-- ==== Sys2Proof/Word.lean ====
section
/-!
DEFINITION. The words KS-CORE moves (`00_scope` R4 "word width 32 bits", R5; `20_memory` R63) and the bytes a
transport serialises them into (`30_encoding` R90).
-/

namespace Sys2Proof

/-- A 32-bit word: a command word, an operand, a response, a stream word, a BUF word or a register. Whether it is read
as a binary32 value (f32) or as an unsigned integer (u32) is decided by the rule that reads it (`30_encoding` R82). -/
abbrev Word := BitVec 32

/-- One byte of a serialised packet (`30_encoding` R90); inside the block there are no bytes (`20_memory` R63). -/
abbrev Byte := BitVec 8

/-- One word of the delay buffer at a word address (`20_memory` R60). -/
abbrev BufCell := Nat × Word

end Sys2Proof
end

