-- ==== Sys2Proof/Config.lean ====
section
/-!
DEFINITION. What one KS-CORE instance fixes and never changes after manufacture (`00_scope` R4), the fixed constants of
the same table, and the values no rule determines (`93_implementation_defined` U2; `00_scope` R8), as opaque constants.
The configuration function `SIN2PI` is `Config.sin2pi`, in `Sys2Proof/Config/Sine.lean`.
-/

namespace Sys2Proof

/-- The open parameters of `00_scope` R4 (`92_eei_decisions` "Open parameters, collected"), less `SIN2PI`.
DESIGN CHOICE, safe: the record is carried in State, so that every statement about every state holds for every
instance (log entry 1). -/
structure Config where
  /-- `LOG2C`, `2 ≤ LOG2C ≤ 24`. -/
  log2c : Nat
  /-- `FS`, the sample rate, binary32, finite and positive. -/
  fs : Word
  /-- `K_CLIP`, the soft-clip knee constant, binary32, finite and positive. -/
  kClip : Word
  /-- `ATTACK_MAX_MS`, binary32, finite, not negative. -/
  attackMaxMs : Word
deriving DecidableEq, Repr

/-- The default column of `00_scope` R4: `C = 1024`, 48000.0, binary32 nearest to 0.05, 1000.0. -/
def Config.standard : Config :=
  { log2c := 10, fs := 0x473B8000#32, kClip := 0x3D4CCCCD#32, attackMaxMs := 0x447A0000#32 }

/-- `C = 2^LOG2C`, the number of words of the delay buffer (`00_scope` R4). -/
def Config.capacity (c : Config) : Nat := 2 ^ c.log2c

/-- `EPS`, the binary32 nearest to 10^-6 (`00_scope` R4; `92_eei_decisions` D8). -/
def Config.eps : Word := 0x358637BD#32

/-- `ONE_M_EPS = fsub(1.0, EPS)` (`00_scope` R4). -/
def Config.oneMEps : Word := 0x3F7FFFEF#32

/-- `PHI_MAX`, the largest binary32 below 1 (`00_scope` R4; `92_eei_decisions` D14). -/
def Config.phiMax : Word := 0x3F7FFFFF#32

/-- Sign of the n-th NaN the block produces: unspecified (`00_scope` R7 (c), U2). Free value, log entry 7. -/
opaque Config.nanSign : Nat → Bool

/-- Payload of the n-th NaN the block produces: unspecified (`00_scope` R7 (c), U2). Free value, log entry 7. -/
opaque Config.nanPayload : Nat → BitVec 23

/-- `round_u32` of a NaN or of a negative value, which no rule applies it to and for which `00_scope` R8 states no
result. Free value, log entry 8. -/
opaque Config.roundOutside : Word → Word

end Sys2Proof
end

