-- ==== Sys2Proof/Machine/Binary32.lean ====
section
/-!
DEFINITION. The numerics every unit uses (`00_scope` section 7, R5 to R9): binary32 data in 32-bit words, the four
correctly rounded primitives, the comparisons, the integer conversions and the clamp.

Every finite binary32 value is an integer number of units of 2^-149. A primitive converts its operands to such
integers, computes exactly, and rounds once, to nearest with ties to even (`00_scope` R6). The IEEE 754 format and its
operations are relied on, not reproduced, by the spec (R5); here they are written out (PRESUMED, log entry 21).
-/

namespace Sys2Proof.F32

/-! ### The format (R5) -/

/-- Bit 31, the sign (R5). -/
def signBit (w : Word) : Bool := decide (2 ^ 31 ≤ w.toNat)

/-- Bits 30:0: exponent and fraction together, a number whose order is the order of the magnitudes. -/
def magBits (w : Word) : Nat := w.toNat % 2 ^ 31

/-- The pattern of an infinity without its sign: exponent field 255, fraction 0. -/
def infMag : Nat := 0x7F800000

/-- A NaN: exponent field 255 and a fraction that is not 0. -/
def isNaN (w : Word) : Bool := decide (infMag < magBits w)

/-- An infinity of either sign. -/
def isInf (w : Word) : Bool := decide (magBits w = infMag)

/-- Neither a NaN nor an infinity. -/
def isFinite (w : Word) : Bool := decide (magBits w < infMag)

/-- The magnitude of a finite pattern in units of 2^-149: a subnormal's fraction, or 2^23 plus the fraction, scaled by
the exponent field less one. -/
def magUnits (m : Nat) : Nat :=
  if m < 2 ^ 23 then m else (2 ^ 23 + m % 2 ^ 23) * 2 ^ (m / 2 ^ 23 - 1)

/-- The magnitude of a finite word in units of 2^-149. -/
def units (w : Word) : Nat := magUnits (magBits w)

/-- The value of a finite word in units of 2^-149, with its sign. -/
def signedUnits (w : Word) : Int := if signBit w then -(units w : Int) else units w

/-- The rational value of a finite word. -/
def toRat (w : Word) : ℚ := (signedUnits w : ℚ) / 2 ^ 149

/-- A word from a sign and the 31 bits below it. -/
def pack (sign : Bool) (mag : Nat) : Word :=
  BitVec.ofNat 32 (if sign then 2 ^ 31 + mag else mag)

/-- `+0.0`. -/
def zero : Word := 0x00000000#32
/-- `-0.0`. -/
def negZero : Word := 0x80000000#32
/-- `0.25`. -/
def quarter : Word := 0x3E800000#32
/-- `0.5`. -/
def half : Word := 0x3F000000#32
/-- `0.75`. -/
def threeQuarters : Word := 0x3F400000#32
/-- `1.0`. -/
def one : Word := 0x3F800000#32
/-- `-1.0`. -/
def negOne : Word := 0xBF800000#32
/-- `2.0`. -/
def two : Word := 0x40000000#32
/-- `4.0`. -/
def four : Word := 0x40800000#32
/-- `1000.0`. -/
def thousand : Word := 0x447A0000#32

/-! ### Rounding (R6) -/

/-- `num / den` rounded to an integer, to nearest, ties to even. -/
def divNearestEven (num den : Nat) : Nat :=
  let q := num / den
  let r := num % den
  if 2 * r < den then q else if den < 2 * r then q + 1 else q + q % 2

/-- How far the quotient `q`, in units of 2^-149, has to be shifted right to have at most 24 significant bits. -/
def excess (q : Nat) : Nat := Nat.log2 q - 23

/-- The 31-bit pattern of the binary32 nearest to `num / den` units of 2^-149 (R6): the significand, rounded once, plus
2^23 for each place it was shifted; gradual underflow (R7 (a)) is the case of no shift, and a pattern at or above the
infinity's is an overflow to infinity (R7 (b)). -/
def roundMag (num den : Nat) : Nat :=
  let e := excess (num / den)
  min (e * 2 ^ 23 + divNearestEven num (den * 2 ^ e)) infMag

/-! ### NaN results (R7 (c)) -/

/-- The NaN of draw `t`: sign and payload are whatever `Config` draws, the payload never 0 (a NaN's fraction is not 0).
Every NaN pattern is some draw's (log entry 7). -/
def nan (t : Nat) : Word :=
  let payload := Config.nanPayload t
  pack (Config.nanSign t) (infMag + if payload.toNat = 0 then 1 else payload.toNat)

/-! ### The primitives (R6, R7). `t` is the draw a NaN result would take. -/

/-- `fadd(a, b)`. An exact sum of zero is `+0`, but for two negative zeros. -/
def fadd (t : Nat) (a b : Word) : Word :=
  if isNaN a || isNaN b then nan t
  else if isInf a then (if isInf b && (signBit a != signBit b) then nan t else a)
  else if isInf b then b
  else
    let z := signedUnits a + signedUnits b
    if z = 0 then (if signBit a && signBit b then negZero else zero)
    else pack (decide (z < 0)) (roundMag z.natAbs 1)

/-- Bit 31 inverted: the operand `fsub` adds. (R6: `fneg` is no primitive of the block.) -/
def flipSign (a : Word) : Word := a ^^^ 0x80000000#32

/-- `fsub(a, b)`: the IEEE difference, which is the sum with the second operand's sign inverted. -/
def fsub (t : Nat) (a b : Word) : Word := fadd t a (flipSign b)

/-- `fmul(a, b)`. -/
def fmul (t : Nat) (a b : Word) : Word :=
  let s := signBit a != signBit b
  if isNaN a || isNaN b then nan t
  else if isInf a then (if units b = 0 then nan t else pack s infMag)
  else if isInf b then (if units a = 0 then nan t else pack s infMag)
  else pack s (roundMag (units a * units b) (2 ^ 149))

/-- `fdiv(a, b)` (R7 (b): a finite non-zero over a zero is an infinity, `0/0` and `∞/∞` are NaN). -/
def fdiv (t : Nat) (a b : Word) : Word :=
  let s := signBit a != signBit b
  if isNaN a || isNaN b then nan t
  else if isInf a then (if isInf b then nan t else pack s infMag)
  else if isInf b then pack s 0
  else if units b = 0 then (if units a = 0 then nan t else pack s infMag)
  else pack s (roundMag (units a * 2 ^ 149) (units b))

/-- `fabs(a)` clears bit 31 (R6), of a NaN too. -/
def fabs (a : Word) : Word := a &&& 0x7FFFFFFF#32

/-! ### Comparisons (R6): false whenever an operand is NaN, and `+0 = -0` -/

/-- The order of the values of words that are no NaN, as the order of integers; both zeros are 0. -/
def orderKey (w : Word) : Int := if signBit w then -(magBits w : Int) else magBits w

/-- `a < b`. -/
def flt (a b : Word) : Bool := !isNaN a && !isNaN b && decide (orderKey a < orderKey b)

/-- `a > b`. -/
def fgt (a b : Word) : Bool := flt b a

/-- `a <= b`. -/
def fle (a b : Word) : Bool := !isNaN a && !isNaN b && decide (orderKey a ≤ orderKey b)

/-- `a >= b`. -/
def fge (a b : Word) : Bool := fle b a

/-- A phase: a binary32 `p` with `0 ≤ p < 1` (`42_lfo` R137, `10_state` R27). -/
def isPhase (p : Word) : Bool := fle zero p && flt p one

/-! ### Conversions (R8) -/

/-- `u2f(n)`: an unsigned integer to binary32, to nearest even. -/
def u2f (n : Nat) : Word := pack false (roundMag (n * 2 ^ 149) 1)

/-- `floor_i(d)` for `0 ≤ d ≤ C`: the integer part, exact. -/
def floorI (d : Word) : Nat := units d / 2 ^ 149

/-- `round_u32(x)` for `x ≥ 0`: `min(⌊x + 1/2⌋, 2^32 - 1)`, the sum taken exactly (round half up, saturating; an
infinity saturates). For a NaN or a negative value, to which no rule applies it, the result is free (log entry 8). -/
def roundU32 (x : Word) : Word :=
  if fge x zero then
    if isInf x then 0xFFFFFFFF#32
    else BitVec.ofNat 32 (min ((2 * units x + 2 ^ 149) / 2 ^ 150) (2 ^ 32 - 1))
  else Config.roundOutside x

/-! ### Clamp (R9) -/

/-- `clamp(lo, x, hi)`: a NaN `x` gives `lo` (R9; `92_eei_decisions` D5). -/
def clamp (lo x hi : Word) : Word :=
  if !fge x lo then lo else if fgt x hi then hi else x

end Sys2Proof.F32

namespace Sys2Proof

/-- `SR_PER_MS = fdiv(FS, 1000.0)` (`00_scope` R4), a constant of the instance; with a finite positive `FS` it is no
NaN, so its draw number is never used. -/
def Config.srPerMs (c : Config) : Word := F32.fdiv 0 c.fs F32.thousand

/-- The constraints of `00_scope` R4 on the open parameters; `ATTACK_MAX_MS · SR_PER_MS < 2^32 - 1` is over the reals. -/
abbrev Config.WellFormed (c : Config) : Prop :=
  2 ≤ c.log2c ∧ c.log2c ≤ 24 ∧
  F32.isFinite c.fs = true ∧ F32.flt F32.zero c.fs = true ∧
  F32.isFinite c.kClip = true ∧ F32.flt F32.zero c.kClip = true ∧
  F32.isFinite c.attackMaxMs = true ∧ F32.fle F32.zero c.attackMaxMs = true ∧
  F32.units c.attackMaxMs * F32.units (Config.srPerMs c) < (2 ^ 32 - 1) * 2 ^ 298

end Sys2Proof
end

