-- ==== Sys2Proof/Syntax.lean ====
section
/-!
DEFINITION. The command packet (`30_encoding` R80), the 25 commands of `spec/opcode_table.json` with the operands they
use (R82, R83), and the pseudo-instructions (R89).
-/

namespace Sys2Proof

/-- A command packet, format P: the command word and the two operand words (`30_encoding` R80). -/
structure Packet where
  w0 : Word
  a : Word
  b : Word
deriving DecidableEq, Repr

/-- The commands, one constructor per row of the opcode table, with the operands the command reads (`30_encoding` R82).
An operand word a command ignores is no part of the instruction (R80). -/
inductive Instr where
  /-- `NOP` (`44_system` R200). -/
  | nop
  /-- `INIT platformId, apiVersion` (`44_system` R201): both u32, accepted and dropped (`92_eei_decisions` D33). -/
  | init (platformId apiVersion : Word)
  /-- `PARAM index, value` (`43_voice` R162): u32, then f32 or u32 by the index. -/
  | param (index value : Word)
  /-- `NOTE_ON hz` (`43_voice` R168): f32. -/
  | noteOn (hz : Word)
  /-- `NOTE_OFF` (`43_voice` R169). -/
  | noteOff
  /-- `PITCH hz` (`43_voice` R170): f32. -/
  | pitch (hz : Word)
  /-- `PROCESS frames, target` (`43_voice` R171): u32, f32. -/
  | process (frames target : Word)
  /-- `RDREG number` (`44_system` R202): u32. -/
  | rdreg (number : Word)
  /-- `DL.WRITE sample` (`40_delay_line` R101): f32. -/
  | dlWrite (sample : Word)
  /-- `DL.READX offset` (`40_delay_line` R103): u32. -/
  | dlReadx (offset : Word)
  /-- `DL.READF delay` (`40_delay_line` R104): f32. -/
  | dlReadf (delay : Word)
  /-- `DL.CLEAR` (`40_delay_line` R105). -/
  | dlClear
  /-- `OP.SETC coefficient` (`41_one_pole` R121): f32. -/
  | opSetc (coefficient : Word)
  /-- `OP.PROC sample` (`41_one_pole` R122): f32. -/
  | opProc (sample : Word)
  /-- `LFO.SETF hz, sampleRateReciprocal` (`42_lfo` R131): f32, f32. -/
  | lfoSetf (hz recip : Word)
  /-- `LFO.RESET` (`42_lfo` R132). -/
  | lfoReset
  /-- `LFO.ADV` (`42_lfo` R133). -/
  | lfoAdv
  /-- `LFO.SIN` (`42_lfo` R138). -/
  | lfoSin
  /-- `LFO.TRI` (`42_lfo` R139). -/
  | lfoTri
  /-- `LFO.SAW` (`42_lfo` R140). -/
  | lfoSaw
  /-- `LFO.SQR` (`42_lfo` R141). -/
  | lfoSqr
  /-- `LFO.SINO offset` (`42_lfo` R142): f32. -/
  | lfoSino (offset : Word)
  /-- `LFO.TRIO offset` (`42_lfo` R143): f32. -/
  | lfoTrio (offset : Word)
  /-- `LFO.SAWO offset` (`42_lfo` R144): f32. -/
  | lfoSawo (offset : Word)
  /-- `LFO.SQRO offset` (`42_lfo` R145): f32. -/
  | lfoSqro (offset : Word)
deriving DecidableEq, Repr

/-- The pseudo-instructions of `30_encoding` R89. -/
inductive Pseudo where
  | shape (v : Word)
  | shiftShape (v : Word)
  | attack (ms : Word)
  | modDepth (v : Word)
  | modCfg (n : Word)
  | phOfs (v : Word)
  /-- `PROCESS n`, a block with modulation target 0. -/
  | processFlat (n : Word)
deriving DecidableEq, Repr

/-- Each pseudo-instruction expands to exactly one command (`30_encoding` R89). -/
def Pseudo.expand : Pseudo → Instr
  | .shape v => .param 0#32 v
  | .shiftShape v => .param 1#32 v
  | .attack ms => .param 2#32 ms
  | .modDepth v => .param 3#32 v
  | .modCfg n => .param 4#32 n
  | .phOfs v => .param 5#32 v
  | .processFlat n => .process n 0#32

end Sys2Proof
end

