-- ==== Sys2Proof/Machine/State.lean ====
section
/-!
DEFINITION. The state of one KS-CORE instance as plain data (`10_state` R20, R21), with the interface streams
(`20_memory` R66, R68; `30_encoding` R84, R86), the temporaries of a `PROCESS` that waits (`10_state` R40), the
configuration record (`00_scope` R4) and the model's own counter of draws; the reasons a step can stop; and the state
after power-on reset (`70_reset_and_hazards` R230).
-/

namespace Sys2Proof.Machine

/-- What a `PROCESS` command holds while it executes (`10_state` R40). It outlasts a step only while the command waits
for a noise word (`70_reset_and_hazards` R237). -/
structure Block where
  /-- `length`, the string length of the block, f32 (`43_voice` R172). -/
  length : Word
  /-- `inc`, the ramp increment, f32 (`43_voice` R174). -/
  inc : Word
  /-- `v`, the running ramp value, f32 (`43_voice` R174, R180). -/
  v : Word
  /-- `j`, the index of the next sample. -/
  j : Nat
  /-- `frames`, how many samples the block has. -/
  frames : Nat
deriving DecidableEq, Repr

/-- The state. Registers keep the order of `10_state` R21. -/
structure State where
  /-- `INITED` (`10_state` R38). -/
  inited : Bool
  /-- `RESET_PEND` (`10_state` R37). -/
  resetPend : Bool
  /-- `BUF` (`20_memory` R60): the words that are not `+0.0`, by rising address. -/
  buf : List BufCell
  /-- `DL_W`, the write cursor (`10_state` R25); only its low `LOG2C` bits exist (log entry 12). -/
  dlW : Word
  /-- `EXF_A` (`10_state` R26). -/
  exfA : Word
  /-- `EXF_Z` (`10_state` R26). -/
  exfZ : Word
  /-- `LFO_PHI` (`10_state` R27). -/
  lfoPhi : Word
  /-- `LFO_F0` (`10_state` R27). -/
  lfoF0 : Word
  /-- `ATTACK_MS` (`10_state` R28). -/
  attackMs : Word
  /-- `DAMP_BASE` (`10_state` R29). -/
  dampBase : Word
  /-- `BURST` (`10_state` R30). -/
  burst : Word
  /-- `MOD_CUR` (`10_state` R31). -/
  modCur : Word
  /-- `MOD_PREV` (`10_state` R31). -/
  modPrev : Word
  /-- `LASTSIG` (`10_state` R32). -/
  lastSig : Word
  /-- `FREQ` (`10_state` R33). -/
  freq : Word
  /-- `MOD_DEPTH` (`10_state` R34). -/
  modDepth : Word
  /-- `MOD_CFG` (`10_state` R35): bit 0 `SRC`, bits 2:1 `WAVE`; the hardwired zeros above are not stored. -/
  modCfg : BitVec 3
  /-- `PH_OFS` (`10_state` R36). -/
  phOfs : Word
  /-- The temporaries of a `PROCESS` that waits for a noise word (`10_state` R40, `70_reset_and_hazards` R237). -/
  inFlight : Option Block
  /-- The packets the host has sent and the port has not accepted yet, oldest first (`30_encoding` R86). -/
  port : List Packet
  /-- The response words delivered, oldest first (`30_encoding` R84). -/
  resp : List Word
  /-- `OUT`: the words pushed and not taken by the host, oldest first (`20_memory` R66). -/
  out : List Word
  /-- `NOISE`: the words supplied and not popped, next first (`20_memory` R68). -/
  noise : List Word
  /-- The configuration record (`00_scope` R4), which no step changes. -/
  cfg : Config
  /-- The model's own field: the number of the next draw of an unspecified NaN (log entry 7). -/
  draws : Nat
deriving DecidableEq, Repr

/-- Why a step stops with a fault: never. KS-CORE "raises **no exception**, of any kind, from any command, in any
state" (`60_exceptions` R210), and a missing noise word is a waiting state (`70_reset_and_hazards` R237), so there is no
reason to list. Safe: every packet has its effect (log entry 14). -/
inductive Fault where
deriving DecidableEq, Repr

/-- Why a step is refused. -/
inductive Refusal where
  /-- The instruction has no meaning in this model. Raised by no arm of `exec`: every command is modelled. Safe. -/
  | notModelled (mnemonic : String)
deriving DecidableEq, Repr

/-- Power-on reset (`70_reset_and_hazards` R230): `INITED` is 0, OUT is empty and no command is in progress. Everything
else is unspecified and, while `INITED` is 0, unobservable; it is 0 here (DESIGN CHOICE, unsafe: log entries 2, 3). The
configuration is the default one (log entry 1), the host has sent nothing (log entries 5, 11). -/
def State.reset : State :=
  { inited := false
    resetPend := false
    buf := []
    dlW := 0#32
    exfA := 0#32
    exfZ := 0#32
    lfoPhi := 0#32
    lfoF0 := 0#32
    attackMs := 0#32
    dampBase := 0#32
    burst := 0#32
    modCur := 0#32
    modPrev := 0#32
    lastSig := 0#32
    freq := 0#32
    modDepth := 0#32
    modCfg := 0#3
    phOfs := 0#32
    inFlight := none
    port := []
    resp := []
    out := []
    noise := []
    cfg := Config.standard
    draws := 0 }

end Sys2Proof.Machine
end

