-- ==== Sys2Proof/Machine/Ops.lean ====
section
/-!
DEFINITION. The named operations over memory, registers and streams that the meanings share: BUF (`20_memory` R60),
slot addressing (`40_delay_line` R102), the response (`30_encoding` R84), the `INITED` gate (`30_encoding` R87), OUT and
NOISE (`20_memory` R66, R68).

TAKING AN EXCEPTION AND RETURNING FROM ONE. KS-CORE has neither: it "raises **no exception**" (`60_exceptions` R210), has
"**no trap entry**" (R214) and "**no trap return**" (R215). There is therefore no such operation, and no meaning takes one.
-/

namespace Sys2Proof.Machine

/-! ### BUF as a canonical list -/

/-- What an address that the list does not hold reads as: `+0.0`, the value of every word of a cleared line
(`40_delay_line` R105; log entry 3). -/
def bufDefault : Word := 0x00000000#32

/-- The word at an address. -/
def bufRead : List BufCell → Nat → Word
  | [], _ => bufDefault
  | (k, w) :: rest, a => if k = a then w else bufRead rest a

/-- The list with the word at an address replaced, in canonical form. -/
def bufWrite : List BufCell → Nat → Word → List BufCell
  | [], a, v => if v = bufDefault then [] else [(a, v)]
  | (k, w) :: rest, a, v =>
    if k < a then (k, w) :: bufWrite rest a v
    else if k = a then (if v = bufDefault then rest else (a, v) :: rest)
    else if v = bufDefault then (k, w) :: rest else (a, v) :: (k, w) :: rest

/-- Canonical form: addresses strictly rising, and no entry equal to what an unlisted address reads as. -/
def Memory.wf : List BufCell → Bool
  | [] => true
  | (k, w) :: rest => (w != bufDefault) && rest.all (fun c => k < c.1) && Memory.wf rest

/-! ### The state's own operations -/

/-- `C` (`00_scope` R4). -/
def State.capacity (s : State) : Nat := s.cfg.capacity

/-- `x[DL_W]`: the low `LOG2C` bits (`10_state` R25). -/
def State.cursor (s : State) : Nat := s.dlW.toNat % s.capacity

/-- `Slot(k) = (x[DL_W] - (k mod C)) mod C` (`40_delay_line` R102). -/
def State.slot (s : State) (k : Nat) : Nat := (s.cursor + (s.capacity - k % s.capacity)) % s.capacity

/-- `MemRead(a, 1)` (`00_scope` section 8). -/
def State.memRead (s : State) (a : Nat) : Word := bufRead s.buf a

/-- `MemWrite(a, 1, v)` (`00_scope` section 8). -/
def State.memWrite (s : State) (a : Nat) (v : Word) : State := { s with buf := bufWrite s.buf a v }

/-- `x[DL_W] <- n mod C` (`40_delay_line` R101, R105). -/
def State.setCursor (s : State) (n : Nat) : State := { s with dlW := BitVec.ofNat 32 (n % s.capacity) }

/-- `RESP <- r`, delivered after all effects of the command (`30_encoding` R84). -/
def State.respond (s : State) (r : Word) : State := { s with resp := s.resp ++ [r] }

/-- The next `n` draws are spoken for (log entry 7). -/
def State.spend (s : State) (n : Nat) : State := { s with draws := s.draws + n }

/-- `OutPush(v)` (`20_memory` R66). -/
def State.outPush (s : State) (v : Word) : State := { s with out := s.out ++ [v] }

/-- `NoisePop()` (`20_memory` R68): the next word of the stream and the state without it; none where the host has
supplied no word, and then the pop does not complete. -/
def State.noisePop (s : State) : Option (Word × State) :=
  match s.noise with
  | [] => none
  | w :: rest => some (w, { s with noise := rest })

/-- The gate of `30_encoding` R87: while `INITED` is 0 the command is ignored, with no effect and response 0. -/
def gated (s : State) (effect : State → State) : Host.Outcome State Fault Refusal :=
  .next (if s.inited then effect s else s.respond 0#32)

end Sys2Proof.Machine
end

