-- ==== Sys2Proof/Machine/Operands.lean ====
section
/-!
DEFINITION. The operand forms (`30_encoding` R82): each of `A` and `B` is taken whole, as f32 or as u32, as the command
says. An f32 operand is the word itself, read by the primitives of `F32`; a u32 operand is the number the word holds.
Also the fields of `MOD_CFG` (`10_state` R35), the one operand the block keeps only bits of.
-/

namespace Sys2Proof.Machine

/-- A u32 operand: the unsigned integer in the word (`30_encoding` R82, `00_scope` R8). -/
def u32 (w : Word) : Nat := w.toNat

/-- What `PARAM` index 4 keeps of its value: `B[2:0]` (`43_voice` R167). -/
def modCfgOf (b : Word) : BitVec 3 := BitVec.ofNat 3 b.toNat

/-- `MOD_CFG.SRC`, bit 0: false is the host source, true the internal source (`10_state` R35). -/
def State.internalSource (s : State) : Bool := decide (s.modCfg.toNat % 2 = 1)

/-- `MOD_CFG.WAVE`, bits 2:1: 0 sine, 1 triangle, 2 sawtooth, 3 square (`10_state` R35). -/
def State.waveSelect (s : State) : Nat := s.modCfg.toNat / 2

end Sys2Proof.Machine
end

