-- ==== Sys2Proof/Machine/DelayLine.lean ====
section
/-!
DEFINITION. The delay line unit (`40_delay_line`): `DL.WRITE`, `DL.READX`, `DL.READF`, `DL.CLEAR`, and the procedures
`ReadFrac` and `Clear` that the voice and `INIT` share with them.
-/

namespace Sys2Proof.Machine

open F32

/-- The write of `40_delay_line` R101: store at the cursor, bit for bit, then advance the cursor modulo `C`. -/
def State.pushSample (s : State) (x : Word) : State :=
  (s.memWrite s.cursor x).setCursor (s.cursor + 1)

/-- `Clear()` (`40_delay_line` R105): every word of BUF `+0.0`, the cursor 0, nothing else. -/
def State.clearLine (s : State) : State := { s with buf := [], dlW := 0#32 }

/-- The word at integer offset `k` behind the cursor (`40_delay_line` R102, R103). -/
def State.readExact (s : State) (k : Nat) : Word := s.memRead (s.slot k)

/-- `ReadFrac(delay)` (`40_delay_line` R104). Uses draws `t` to `t + 3`. -/
def State.readFrac (t : Nat) (s : State) (delay : Word) : Word :=
  let d := clamp zero delay (u2f s.capacity)
  let i := floorI d
  let frac := fsub t d (u2f i)
  let s0 := s.readExact i
  let s1 := s.readExact (i + 1)
  fadd (t + 3) s0 (fmul (t + 2) frac (fsub (t + 1) s1 s0))

/-- `DL.WRITE` (`40_delay_line` R101). -/
def execDlWrite (sample : Word) (s : State) : Host.Outcome State Fault Refusal :=
  gated s fun s => (s.pushSample sample).respond 0#32

/-- `DL.READX` (`40_delay_line` R103): any offset, wrapped modulo `C`. -/
def execDlReadx (offset : Word) (s : State) : Host.Outcome State Fault Refusal :=
  gated s fun s => s.respond (s.readExact (u32 offset))

/-- `DL.READF` (`40_delay_line` R104). -/
def execDlReadf (delay : Word) (s : State) : Host.Outcome State Fault Refusal :=
  gated s fun s => (s.spend 4).respond (s.readFrac s.draws delay)

/-- `DL.CLEAR` (`40_delay_line` R105). -/
def execDlClear (s : State) : Host.Outcome State Fault Refusal :=
  gated s fun s => s.clearLine.respond 0#32

end Sys2Proof.Machine
end

