-- ==== Sys2Proof/Machine/Flags.lean ====
section
/-!
DEFINITION. `STATUS`, the read-only view of three one-bit conditions (`10_state` R23). There are no condition codes and
no floating-point exception flags (R23, `00_scope` R6), so this is every flag the spec gives.
-/

namespace Sys2Proof.Machine

/-- The voice state Exciting: `BURST > 0` (`10_state` R30, `43_voice` R161). -/
def State.exciting (s : State) : Bool := decide (0 < s.burst.toNat)

/-- `STATUS` (`10_state` R23): bit 0 `INITED`, bit 1 `RESET_PEND`, bit 2 `EXCITING`, bits 31:3 read as 0. While `INITED`
is 0 the other bits are masked (`44_system` R202, `10_state` R42). -/
def State.statusWord (s : State) : Word :=
  if s.inited then
    BitVec.ofNat 32 (1 + (if s.resetPend then 2 else 0) + (if s.exciting then 4 else 0))
  else 0#32

end Sys2Proof.Machine
end

