-- ==== Sys2Proof/Machine/System.lean ====
section
/-!
DEFINITION. The system commands (`44_system`): `NOP`, `INIT`, `RDREG`, the three that execute while `INITED` is 0
(`30_encoding` R87).
-/

namespace Sys2Proof.Machine

open F32

/-- `NOP` (`44_system` R200). -/
def execNop (s : State) : Host.Outcome State Fault Refusal := .next (s.respond 0#32)

/-- The whole default state (`44_system` R201, `10_state` R42). The streams, the configuration and the model's draw
counter are not touched (R201 (c)). -/
def State.initialise (s : State) : State :=
  { s.clearLine with
    exfA := 0x3F600000#32
    exfZ := zero
    lfoPhi := zero
    lfoF0 := zero
    attackMs := 0x41200000#32
    dampBase := 0x3F000000#32
    burst := 0#32
    modCur := zero
    modPrev := zero
    lastSig := zero
    freq := 0x43DC0000#32
    modDepth := zero
    modCfg := 0#3
    phOfs := zero
    resetPend := false
    inited := true }

/-- `INIT` (`44_system` R201): both operands are dropped. -/
def execInit (_platformId _apiVersion : Word) (s : State) : Host.Outcome State Fault Refusal :=
  .next (s.initialise.respond 0#32)

/-- The register of a number, after `INIT` (`44_system` R202, `10_state` R21): u32 zero-extended or the binary32
pattern; a number that names no register reads 0. -/
def State.register (s : State) (n : Nat) : Word :=
  match n with
  | 0x00 => s.statusWord
  | 0x01 => BitVec.ofNat 32 s.cursor
  | 0x02 => s.exfA
  | 0x03 => s.exfZ
  | 0x04 => s.lfoPhi
  | 0x05 => s.lfoF0
  | 0x06 => s.attackMs
  | 0x07 => s.dampBase
  | 0x08 => s.burst
  | 0x09 => s.modCur
  | 0x0A => s.modPrev
  | 0x0B => s.lastSig
  | 0x0C => s.freq
  | 0x0D => s.modDepth
  | 0x0E => s.modCfg.zeroExtend 32
  | 0x0F => s.phOfs
  | 0x10 => BitVec.ofNat 32 s.capacity
  | 0x11 => s.cfg.fs
  | _ => 0#32

/-- What a read of a register answers before `INIT` (`44_system` R202): only the constants are not masked. -/
def State.maskedRegister (s : State) (n : Nat) : Word :=
  match n with
  | 0x10 => BitVec.ofNat 32 s.capacity
  | 0x11 => s.cfg.fs
  | _ => 0#32

/-- `RDREG` (`44_system` R202). -/
def execRdreg (number : Word) (s : State) : Host.Outcome State Fault Refusal :=
  .next (s.respond (if s.inited then s.register number.toNat else s.maskedRegister number.toNat))

end Sys2Proof.Machine
end

