-- ==== Sys2Proof/Config/SineWitness.lean ====
section
/-!
DEFINITION. That a function with the four properties of `42_lfo` R137 exists: a Taylor sum rounded to a grid of 2^-23.
Nothing of the model computes with it; it only shows that the type of `Config.sin2pi` is inhabited, so that the opaque
constant there assumes nothing.
-/

namespace Sys2Proof.SineWitness

open F32

/-- A rational close to π. -/
def piApprox : ℚ := 314159265358979323846 / 100000000000000000000

/-- The Taylor sum of the sine to degree 29. -/
def taylor (y : ℚ) : ℚ :=
  ∑ k ∈ Finset.range 15, (-1) ^ k * y ^ (2 * k + 1) / (2 * k + 1).factorial

/-- An approximation of `sin(2πp)`, expanded about the half cycle. -/
def approx (p : ℚ) : ℚ := -taylor (2 * piApprox * (p - 1 / 2))

/-- The magnitude pattern of `a · 2^-23` for `a ≤ 2^23`. -/
def gridMag (a : Nat) : Nat :=
  if a = 0 then 0 else (Nat.log2 a + 103) * 2 ^ 23 + a * 2 ^ (23 - Nat.log2 a)

/-- The multiple of 2^-23 nearest to the approximation. -/
def gridIndex (p : ℚ) : ℤ := ⌊approx p * 2 ^ 23 + 1 / 2⌋

/-- The witness: exact at the four quadrant phases, the nearest grid value elsewhere. -/
def sine (p : Word) : Word :=
  if p = zero then zero else if p = quarter then one else if p = half then zero
  else if p = threeQuarters then negOne
  else pack (decide (gridIndex (toRat p) < 0)) (gridMag (gridIndex (toRat p)).natAbs)

theorem gridMag_bounds {a : Nat} (ha : a ≤ 2 ^ 23) :
    gridMag a < infMag ∧ magUnits (gridMag a) = a * 2 ^ 126 := by
  unfold gridMag
  split
  · next h => subst h; constructor <;> simp [infMag, magUnits]
  · next h =>
    have hL := Nat.log2_self_le h
    have hU := @Nat.lt_log2_self a
    generalize Nat.log2 a = L at *
    have hL23 : L ≤ 23 := by
      by_contra hc
      have : 2 ^ 24 ≤ 2 ^ L := Nat.pow_le_pow_right (by norm_num) (by omega)
      omega
    have e1 : 2 ^ L * 2 ^ (23 - L) = 2 ^ 23 := by rw [← pow_add]; congr 1; omega
    have e2 : 2 ^ (L + 1) * 2 ^ (23 - L) = 2 ^ 24 := by rw [← pow_add]; congr 1; omega
    have lo : 2 ^ 23 ≤ a * 2 ^ (23 - L) := by rw [← e1]; exact Nat.mul_le_mul_right _ hL
    have hi : a * 2 ^ (23 - L) < 2 ^ 24 := by
      rw [← e2]; exact Nat.mul_lt_mul_of_pos_right hU (by positivity)
    have e3 : a * 2 ^ (23 - L) * 2 ^ (L + 103) = a * 2 ^ 126 := by
      rw [mul_assoc, ← pow_add]; congr 2; omega
    generalize a * 2 ^ (23 - L) = b at *
    refine ⟨by simp only [infMag]; omega, ?_⟩
    unfold magUnits
    rw [if_neg (by omega)]
    have d1 : ((L + 103) * 2 ^ 23 + b) / 2 ^ 23 - 1 = L + 103 := by omega
    have d2 : 2 ^ 23 + ((L + 103) * 2 ^ 23 + b) % 2 ^ 23 = b := by omega
    rw [d1, d2, e3]

theorem toRat_pack {s : Bool} {m : Nat} (hm : m < 2 ^ 31) :
    toRat (pack s m) = (if s then -(magUnits m : ℚ) else magUnits m) / 2 ^ 149 ∧ magBits (pack s m) = m := by
  have h1 : magBits (pack s m) = m := by
    cases s <;> simp only [magBits, pack, BitVec.toNat_ofNat, if_true, if_false, Bool.false_eq_true] <;> omega
  have h2 : signBit (pack s m) = s := by
    cases s <;> simp only [signBit, pack, BitVec.toNat_ofNat, if_true, if_false, Bool.false_eq_true,
      decide_eq_true_eq, decide_eq_false_iff_not] <;> omega
  refine ⟨?_, h1⟩
  unfold toRat signedUnits units
  rw [h1, h2]
  cases s <;> simp

theorem imaginary_partial_sum (y : ℚ) (n : ℕ) :
    (∑ m ∈ Finset.range (2 * n), ((y : ℂ) * Complex.I) ^ m / (m.factorial : ℂ)).im =
      ((∑ k ∈ Finset.range n, (-1) ^ k * y ^ (2 * k + 1) / ((2 * k + 1).factorial : ℚ) : ℚ) : ℝ) := by
  induction n with
  | zero => simp
  | succ n ih =>
    have hI : (Complex.I) ^ (2 * n) = (((-1 : ℝ) ^ n : ℝ) : ℂ) := by
      rw [pow_mul, Complex.I_sq]; push_cast; rfl
    have he : ((y : ℂ) * Complex.I) ^ (2 * n) / ((2 * n).factorial : ℂ) =
        (((y : ℝ) ^ (2 * n) * (-1) ^ n / ((2 * n).factorial : ℝ) : ℝ) : ℂ) := by
      rw [mul_pow, hI]; push_cast; rfl
    have ho : ((y : ℂ) * Complex.I) ^ (2 * n + 1) / ((2 * n + 1).factorial : ℂ) =
        (((y : ℝ) ^ (2 * n + 1) * (-1) ^ n / ((2 * n + 1).factorial : ℝ) : ℝ) : ℂ) * Complex.I := by
      rw [mul_pow, pow_succ Complex.I, hI]; push_cast; ring
    rw [show 2 * (n + 1) = 2 * n + 1 + 1 by ring, Finset.sum_range_succ, Finset.sum_range_succ,
      Complex.add_im, Complex.add_im, ih, Finset.sum_range_succ, he, ho, Complex.ofReal_im,
      Complex.im_ofReal_mul, Complex.I_im]
    push_cast
    ring

/-- Taylor's bound for the sine of an argument of at most π, from the exponential series. -/
theorem sin_taylor {y : ℚ} (hy : |(y : ℝ)| ≤ 3.15) :
    |Real.sin y - (taylor y : ℝ)| ≤ 1 / 10 ^ 12 := by
  have hn : ‖(y : ℂ) * Complex.I‖ ≤ 3.15 := by
    rw [norm_mul, Complex.norm_I, mul_one, show (y : ℂ) = ((y : ℝ) : ℂ) by norm_cast, Complex.norm_real]
    exact hy
  have hb := Complex.exp_bound' (x := (y : ℂ) * Complex.I) (n := 30) (by
    rw [div_le_iff₀ (by positivity)]; norm_num; linarith)
  have him : (Complex.exp ((y : ℂ) * Complex.I) -
      ∑ m ∈ Finset.range 30, ((y : ℂ) * Complex.I) ^ m / (m.factorial : ℂ)).im =
        Real.sin y - (taylor y : ℝ) := by
    rw [Complex.sub_im, show (30 : ℕ) = 2 * 15 from rfl, imaginary_partial_sum,
      show (y : ℂ) = ((y : ℝ) : ℂ) by norm_cast, Complex.exp_ofReal_mul_I_im]
    rfl
  calc |Real.sin y - (taylor y : ℝ)| = |(Complex.exp ((y : ℂ) * Complex.I) -
      ∑ m ∈ Finset.range 30, ((y : ℂ) * Complex.I) ^ m / (m.factorial : ℂ)).im| := by rw [him]
    _ ≤ _ := Complex.abs_im_le_norm _
    _ ≤ _ := hb
    _ ≤ 3.15 ^ 30 / (30 : ℕ).factorial * 2 := by gcongr
    _ ≤ _ := by norm_num [Nat.factorial]

theorem approx_close {p : ℚ} (h0 : 0 ≤ p) (h1 : p < 1) :
    |(approx p : ℝ) - Real.sin (2 * Real.pi * p)| ≤ 2 / 10 ^ 12 := by
  have hp0 : (0 : ℝ) ≤ p := by exact_mod_cast h0
  have hp1 : (p : ℝ) < 1 := by exact_mod_cast h1
  have hpi : |2 * Real.pi * (p - 1 / 2) - 2 * piApprox * ((p : ℝ) - 1 / 2)| ≤ 1 / 10 ^ 12 := by
    have hl := Real.pi_gt_d20
    have hu := Real.pi_lt_d20
    have hq : (piApprox : ℝ) = 3.14159265358979323846 := by norm_num [piApprox]
    rw [hq, show 2 * Real.pi * ((p : ℝ) - 1 / 2) - 2 * 3.14159265358979323846 * ((p : ℝ) - 1 / 2) =
      (Real.pi - 3.14159265358979323846) * (2 * p - 1) by ring, abs_mul]
    have a1 : |Real.pi - 3.14159265358979323846| ≤ 1 / 10 ^ 12 := by
      rw [abs_le]; constructor <;> norm_num at * <;> linarith
    have a2 : |2 * (p : ℝ) - 1| ≤ 1 := by rw [abs_le]; constructor <;> linarith
    calc _ ≤ (1 / 10 ^ 12 : ℝ) * 1 := by gcongr
      _ = _ := by ring
  have hs : Real.sin (2 * Real.pi * p) = -Real.sin (2 * Real.pi * (p - 1 / 2)) := by
    rw [← Real.sin_add_pi]; congr 1; ring
  have hy : |((2 * piApprox * (p - 1 / 2) : ℚ) : ℝ)| ≤ 3.15 := by
    have hq : (piApprox : ℝ) = 3.14159265358979323846 := by norm_num [piApprox]
    push_cast
    rw [hq, abs_le]; constructor <;> norm_num <;> linarith
  have ht := sin_taylor hy
  have hc : ((approx p : ℚ) : ℝ) = -(taylor (2 * piApprox * (p - 1 / 2)) : ℝ) := by
    simp [approx]
  have hd : |Real.sin ((2 * piApprox * (p - 1 / 2) : ℚ) : ℝ) - Real.sin (2 * Real.pi * (p - 1 / 2))| ≤ 1 / 10 ^ 12 := by
    refine le_trans (Real.abs_sin_sub_sin_le _ _) ?_
    rw [abs_sub_comm]
    push_cast
    exact hpi
  rw [hc, hs]
  rw [abs_le] at *
  constructor <;> linarith [ht.1, ht.2, hd.1, hd.2]

theorem gridIndex_close {p : ℚ} (h0 : 0 ≤ p) (h1 : p < 1) :
    (gridIndex p).natAbs ≤ 2 ^ 23 ∧ |(gridIndex p : ℝ) / 2 ^ 23 - Real.sin (2 * Real.pi * p)| ≤ 1 / 2 ^ 23 := by
  have ha := approx_close h0 h1
  have hf1 : (gridIndex p : ℚ) ≤ approx p * 2 ^ 23 + 1 / 2 := Int.floor_le _
  have hf2 : approx p * 2 ^ 23 + 1 / 2 < (gridIndex p : ℚ) + 1 := Int.lt_floor_add_one _
  have g1 := (Rat.cast_le (K := ℝ)).mpr hf1
  have g2 := (Rat.cast_lt (K := ℝ)).mpr hf2
  push_cast at g1 g2
  have hs1 := Real.sin_le_one (2 * Real.pi * p)
  have hs2 := Real.neg_one_le_sin (2 * Real.pi * p)
  rw [abs_le] at ha
  obtain ⟨a1, a2⟩ := ha
  have up : gridIndex p < 2 ^ 23 + 1 := by
    have : (gridIndex p : ℝ) < 2 ^ 23 + 1 := by norm_num at *; linarith
    exact_mod_cast this
  have lo : -(2 ^ 23 : ℤ) - 1 < gridIndex p := by
    have : (-(2 ^ 23) - 1 : ℝ) < gridIndex p := by norm_num at *; linarith
    exact_mod_cast this
  refine ⟨by omega, ?_⟩
  rw [abs_le]
  constructor <;> norm_num at * <;> linarith

theorem orderKey_range {p : Word} (h : isPhase p = true) :
    isFinite p = true ∧ 0 ≤ toRat p ∧ toRat p < 1 := by
  simp only [isPhase, fle, flt, Bool.and_eq_true, Bool.not_eq_true', decide_eq_true_eq] at h
  obtain ⟨⟨-, h0⟩, -, h1⟩ := h
  have z0 : orderKey zero = 0 := by decide
  have z1 : orderKey one = 0x3F800000 := by decide
  rw [z0] at h0
  rw [z1] at h1
  have key : ∃ m : ℕ, m < 0x3F800000 ∧ magBits p = m ∧ (signBit p = true → m = 0) := by
    refine ⟨magBits p, ?_, rfl, ?_⟩ <;> unfold orderKey at h0 h1 <;> split at h0 <;> simp_all
  obtain ⟨m, hm, hpm, hs⟩ := key
  have hu : magUnits m < 2 ^ 149 := by
    unfold magUnits
    split
    · have : (2 : ℕ) ^ 23 ≤ 2 ^ 149 := Nat.pow_le_pow_right (by norm_num) (by norm_num)
      omega
    · have e1 : m / 2 ^ 23 - 1 ≤ 125 := by omega
      have e2 : 2 ^ 23 + m % 2 ^ 23 < 2 ^ 24 := by omega
      calc _ < 2 ^ 24 * 2 ^ (m / 2 ^ 23 - 1) := Nat.mul_lt_mul_of_pos_right e2 (by positivity)
        _ ≤ 2 ^ 24 * 2 ^ 125 := Nat.mul_le_mul_left _ (Nat.pow_le_pow_right (by norm_num) e1)
        _ = _ := by norm_num
  have ht : toRat p = (magUnits m : ℚ) / 2 ^ 149 := by
    unfold toRat signedUnits units
    rw [hpm]
    split
    · next h => rw [hs h]; simp [magUnits]
    · simp
  refine ⟨by simp only [isFinite, hpm, infMag, decide_eq_true_eq]; omega, ?_, ?_⟩
  · rw [ht]; positivity
  · rw [ht, div_lt_one (by positivity)]; exact_mod_cast hu

theorem grid_value {k : ℤ} (hk : k.natAbs ≤ 2 ^ 23) :
    isFinite (pack (decide (k < 0)) (gridMag k.natAbs)) = true ∧
      toRat (pack (decide (k < 0)) (gridMag k.natAbs)) = k / 2 ^ 23 := by
  obtain ⟨h1, h2⟩ := gridMag_bounds hk
  obtain ⟨h3, h4⟩ := toRat_pack (s := decide (k < 0)) (m := gridMag k.natAbs) (by
    simp only [infMag] at h1; omega)
  refine ⟨by simp only [isFinite, h4, decide_eq_true_eq]; exact h1, ?_⟩
  rw [h3, h2]
  have hc : ((k.natAbs * 2 ^ 126 : ℕ) : ℚ) = |(k : ℚ)| * 2 ^ 126 := by
    push_cast; rw [Nat.cast_natAbs]; push_cast; rfl
  rw [hc]
  by_cases hneg : k < 0
  · have : (k : ℚ) < 0 := by exact_mod_cast hneg
    simp only [hneg, decide_true, if_true, abs_of_neg this]
    field_simp
  · have : (0 : ℚ) ≤ k := by exact_mod_cast not_lt.mp hneg
    simp only [hneg, decide_false, Bool.false_eq_true, if_false, abs_of_nonneg this]
    field_simp

/-- The words of the witness at the four quadrant phases. -/
theorem sine_quadrants :
    sine zero = zero ∧ sine quarter = one ∧ sine half = zero ∧ sine threeQuarters = negOne := by
  decide

theorem sine_off_grid {p : Word} (hz : p ≠ zero) (hq : p ≠ quarter) (hh : p ≠ half) (ht : p ≠ threeQuarters) :
    sine p = pack (decide (gridIndex (toRat p) < 0)) (gridMag (gridIndex (toRat p)).natAbs) := by
  simp [sine, hz, hq, hh, ht]

theorem quadrant_toRat : toRat zero = 0 ∧ toRat quarter = 1 / 4 ∧ toRat half = 1 / 2 ∧
    toRat threeQuarters = 3 / 4 ∧ toRat one = 1 ∧ toRat negOne = -1 := by
  have h0 : signedUnits zero = 0 := by decide
  have h1 : signedUnits quarter = 2 ^ 147 := by decide
  have h2 : signedUnits half = 2 ^ 148 := by decide
  have h3 : signedUnits threeQuarters = 3 * 2 ^ 147 := by decide
  have h4 : signedUnits one = 2 ^ 149 := by decide
  have h5 : signedUnits negOne = -2 ^ 149 := by decide
  refine ⟨?_, ?_, ?_, ?_, ?_, ?_⟩ <;> simp only [toRat, h0, h1, h2, h3, h4, h5] <;> norm_num

theorem sine_bounded (p : Word) (h : isPhase p = true) :
    isFinite (sine p) = true ∧ -1 ≤ toRat (sine p) ∧ toRat (sine p) ≤ 1 := by
  obtain ⟨q0, -, -, -, q1, qn⟩ := quadrant_toRat
  obtain ⟨w0, w1, w2, w3⟩ := sine_quadrants
  by_cases h0 : p = zero
  · rw [h0, w0, q0]; refine ⟨by decide, by norm_num, by norm_num⟩
  by_cases h1 : p = quarter
  · rw [h1, w1, q1]; refine ⟨by decide, by norm_num, by norm_num⟩
  by_cases h2 : p = half
  · rw [h2, w2, q0]; refine ⟨by decide, by norm_num, by norm_num⟩
  by_cases h3 : p = threeQuarters
  · rw [h3, w3, qn]; refine ⟨by decide, by norm_num, by norm_num⟩
  obtain ⟨-, p0, p1⟩ := orderKey_range h
  obtain ⟨hk, -⟩ := gridIndex_close p0 p1
  obtain ⟨hf, hv⟩ := grid_value hk
  rw [sine_off_grid h0 h1 h2 h3, hv]
  have hz1 : (gridIndex (toRat p) : ℚ) ≤ 2 ^ 23 := by
    have : gridIndex (toRat p) ≤ 2 ^ 23 := by omega
    exact_mod_cast this
  have hz2 : -(2 ^ 23 : ℚ) ≤ gridIndex (toRat p) := by
    have : -(2 ^ 23 : ℤ) ≤ gridIndex (toRat p) := by omega
    exact_mod_cast this
  refine ⟨hf, ?_, ?_⟩
  · rw [le_div_iff₀ (by positivity)]; linarith
  · rw [div_le_iff₀ (by positivity)]; linarith

theorem sine_close (p : Word) (h : isPhase p = true) :
    |(toRat (sine p) : ℝ) - Real.sin (2 * Real.pi * toRat p)| ≤ 1 / 2 ^ 23 := by
  obtain ⟨v0, v1, v2, v3, q1, qn⟩ := quadrant_toRat
  obtain ⟨w0, w1, w2, w3⟩ := sine_quadrants
  by_cases h0 : p = zero
  · rw [h0, w0, v0]; simp
  by_cases h1 : p = quarter
  · rw [h1, w1, q1, v1, show 2 * Real.pi * ((1 / 4 : ℚ) : ℝ) = Real.pi / 2 by push_cast; ring]; simp
  by_cases h2 : p = half
  · rw [h2, w2, v0, v2, show 2 * Real.pi * ((1 / 2 : ℚ) : ℝ) = Real.pi by push_cast; ring]; simp
  by_cases h3 : p = threeQuarters
  · rw [h3, w3, qn, v3, show 2 * Real.pi * ((3 / 4 : ℚ) : ℝ) = Real.pi / 2 + Real.pi by push_cast; ring,
      Real.sin_add_pi]; simp
  obtain ⟨-, p0, p1⟩ := orderKey_range h
  obtain ⟨hk, hc⟩ := gridIndex_close p0 p1
  obtain ⟨-, hv⟩ := grid_value hk
  rw [sine_off_grid h0 h1 h2 h3, hv]
  push_cast
  exact hc

end Sys2Proof.SineWitness
end

