-- ==== Sys2Proof/Config/Sine.lean ====
section
/-!
DEFINITION. The configuration function `SIN2PI` (`00_scope` R4, `42_lfo` R137): an uninterpreted function constrained
by the four properties the spec gives it (`92_eei_decisions` D15, `93_implementation_defined` U6).
-/

namespace Sys2Proof

open F32

/-- A function that may serve as `SIN2PI`: properties (i) to (iii) of `42_lfo` R137 for every phase; (iv), that it
depends on the phase alone, is that it is a function. The default values of the fields are a witness that such a
function exists; they are not what `Config.sin2pi` is. -/
structure Sin2Pi where
  /-- The function. -/
  fn : Word → Word := SineWitness.sine
  /-- (i) `-1 ≤ SIN2PI(p) ≤ 1`, and it is never a NaN. -/
  bounded : ∀ p, isPhase p = true →
    isFinite (fn p) = true ∧ -1 ≤ toRat (fn p) ∧ toRat (fn p) ≤ 1 := by
      exact SineWitness.sine_bounded
  /-- (ii) The values at the quadrant phases. The zero at 0.5 is `+0` (DEDUCED from vector S4, log entry 9). -/
  quadrants : fn zero = zero ∧ fn quarter = one ∧ fn half = zero ∧ fn threeQuarters = negOne := by
      exact SineWitness.sine_quadrants
  /-- (iii) Within `TOL_SIN = 2^-23` of the real sine. -/
  close : ∀ p, isPhase p = true →
    |(toRat (fn p) : ℝ) - Real.sin (2 * Real.pi * toRat p)| ≤ 1 / 2 ^ 23 := by
      exact SineWitness.sine_close
deriving Inhabited

/-- The instance's `SIN2PI`: nothing is known of it but the properties its type states (log entry 9). -/
opaque Config.sin2pi : Sin2Pi

end Sys2Proof
end

