-- ==== Sys2Proof/Machine/Lfo.lean ====
section
/-!
DEFINITION. The periodic modulator (`42_lfo`): the phase, the four waveforms and the eleven commands, and the
procedures `LfoAdvance` and `Shift` that the voice shares with them.
-/

namespace Sys2Proof.Machine

open F32

/-- A phase plus a step, brought back below 1 by at most one subtraction (`42_lfo` R133, R134). Uses draws `t`, `t + 1`. -/
def wrapAdd (t : Nat) (phase step : Word) : Word :=
  let p := fadd t phase step
  if fge p one then fsub (t + 1) p one else p

/-- `Shift(φ, o)` (`42_lfo` R134): the offset clamped into `[0, PHI_MAX]`. Uses draws `t`, `t + 1`. -/
def shiftPhase (t : Nat) (phase offset : Word) : Word :=
  wrapAdd t phase (clamp zero offset Config.phiMax)

/-- `LfoAdvance()` (`42_lfo` R133). Uses draws `t`, `t + 1`; it spends none itself. -/
def State.lfoAdvance (t : Nat) (s : State) : State := { s with lfoPhi := wrapAdd t s.lfoPhi s.lfoF0 }

/-- `Sin(p) = SIN2PI(p)` (`42_lfo` R137). The four quadrant values, which property (ii) fixes, are written out so that
they evaluate; `sinWave_eq_sin2pi` (Laws) says that nothing else is meant. -/
def sinWave (p : Word) : Word :=
  if p = zero then zero else if p = quarter then one else if p = half then zero
  else if p = threeQuarters then negOne else Config.sin2pi.fn p

/-- `Tri(p)` (`42_lfo` R136). Uses draws `t`, `t + 1`. -/
def triWave (t : Nat) (p : Word) : Word :=
  if flt p quarter then fmul t four p
  else if flt p threeQuarters then fsub (t + 1) two (fmul t four p)
  else fsub (t + 1) (fmul t four p) four

/-- `Saw(p)` (`42_lfo` R136). Uses draws `t`, `t + 1`. -/
def sawWave (t : Nat) (p : Word) : Word := fsub (t + 1) (fmul t two p) one

/-- `Sqr(p)` (`42_lfo` R136). -/
def sqrWave (p : Word) : Word := if flt p half then one else negOne

/-- `LFO.SETF` (`42_lfo` R131): the product clamped into `[0, 0.5]`. -/
def execLfoSetf (hz recip : Word) (s : State) : Host.Outcome State Fault Refusal :=
  gated s fun s => ({ s with lfoF0 := clamp zero (fmul s.draws hz recip) half }.spend 1).respond 0#32

/-- `LFO.RESET` (`42_lfo` R132). -/
def execLfoReset (s : State) : Host.Outcome State Fault Refusal :=
  gated s fun s => State.respond { s with lfoPhi := zero } 0#32

/-- `LFO.ADV` (`42_lfo` R133). -/
def execLfoAdv (s : State) : Host.Outcome State Fault Refusal :=
  gated s fun s => ((s.lfoAdvance s.draws).spend 2).respond 0#32

/-- `LFO.SIN` (`42_lfo` R138). -/
def execLfoSin (s : State) : Host.Outcome State Fault Refusal :=
  gated s fun s => s.respond (sinWave s.lfoPhi)

/-- `LFO.TRI` (`42_lfo` R139). -/
def execLfoTri (s : State) : Host.Outcome State Fault Refusal :=
  gated s fun s => (s.spend 2).respond (triWave s.draws s.lfoPhi)

/-- `LFO.SAW` (`42_lfo` R140). -/
def execLfoSaw (s : State) : Host.Outcome State Fault Refusal :=
  gated s fun s => (s.spend 2).respond (sawWave s.draws s.lfoPhi)

/-- `LFO.SQR` (`42_lfo` R141). -/
def execLfoSqr (s : State) : Host.Outcome State Fault Refusal :=
  gated s fun s => s.respond (sqrWave s.lfoPhi)

/-- `LFO.SINO` (`42_lfo` R142). -/
def execLfoSino (offset : Word) (s : State) : Host.Outcome State Fault Refusal :=
  gated s fun s => (s.spend 2).respond (sinWave (shiftPhase s.draws s.lfoPhi offset))

/-- `LFO.TRIO` (`42_lfo` R143). -/
def execLfoTrio (offset : Word) (s : State) : Host.Outcome State Fault Refusal :=
  gated s fun s => (s.spend 4).respond (triWave (s.draws + 2) (shiftPhase s.draws s.lfoPhi offset))

/-- `LFO.SAWO` (`42_lfo` R144). -/
def execLfoSawo (offset : Word) (s : State) : Host.Outcome State Fault Refusal :=
  gated s fun s => (s.spend 4).respond (sawWave (s.draws + 2) (shiftPhase s.draws s.lfoPhi offset))

/-- `LFO.SQRO` (`42_lfo` R145). -/
def execLfoSqro (offset : Word) (s : State) : Host.Outcome State Fault Refusal :=
  gated s fun s => (s.spend 2).respond (sqrWave (shiftPhase s.draws s.lfoPhi offset))

end Sys2Proof.Machine
end

