-- ==== Sys2Proof/Machine/OnePole.lean ====
section
/-!
DEFINITION. The one-pole filter unit (`41_one_pole`): `OP.SETC`, `OP.PROC`, and the recurrence that the excitation
filter and the damping stage of the voice share (R120, R123).
-/

namespace Sys2Proof.Machine

open F32

/-- `OnePole(a, x, z) = a·x + (1 - a)·z` with its four primitives in this order (`41_one_pole` R120). Uses draws `t` to
`t + 3`. -/
def onePole (t : Nat) (a x z : Word) : Word :=
  let t1 := fmul t a x
  let t2 := fsub (t + 1) one a
  let t3 := fmul (t + 2) t2 z
  fadd (t + 3) t1 t3

/-- What `ExfStep(x)` leaves in `EXF_Z` and returns (`41_one_pole` R122). Uses draws `t` to `t + 3`. -/
def State.exfNext (t : Nat) (s : State) (x : Word) : Word := onePole t s.exfA x s.exfZ

/-- The clamp that keeps a coefficient strictly inside (0,1) (`10_state` R26, `41_one_pole` R121). -/
def clampCoefficient (c : Word) : Word := clamp Config.eps c Config.oneMEps

/-- `OP.SETC` (`41_one_pole` R121). -/
def execOpSetc (coefficient : Word) (s : State) : Host.Outcome State Fault Refusal :=
  gated s fun s => State.respond { s with exfA := clampCoefficient coefficient } 0#32

/-- `OP.PROC` (`41_one_pole` R122): the response is the new `EXF_Z`. -/
def execOpProc (sample : Word) (s : State) : Host.Outcome State Fault Refusal :=
  gated s fun s =>
    let z := s.exfNext s.draws sample
    State.respond ({ s with exfZ := z }.spend 4) z

end Sys2Proof.Machine
end

