-- ==== Sys2Proof/Machine/Voice.lean ====
section
/-!
DEFINITION. The plucked-string voice (`43_voice`): `PARAM`, `NOTE_ON`, `NOTE_OFF`, `PITCH`, `PROCESS`.

A `PROCESS` runs in one step when the noise stream holds every word it pops. When a word is missing the command does
not complete (`20_memory` R68, `70_reset_and_hazards` R237): the samples before it have had their effects, the block's
temporaries stay in `inFlight`, no response is given, and `resumeBlock` goes on from the same sample (log entry 10).
-/

namespace Sys2Proof.Machine

open F32

/-- `SoftClip(x) = x / (1 + K_CLIP·|x|)` (`43_voice` R163). Uses draws `t` to `t + 2`. -/
def softClip (t : Nat) (kClip x : Word) : Word :=
  let a := fabs x
  let m := fmul t a kClip
  let den := fadd (t + 1) one m
  fdiv (t + 2) x den

/-! ### Parameter changes (R162 to R167) -/

/-- `PARAM` index 0: `damping = 1 - clamp(value)` (`43_voice` R164). Uses draw `t`. -/
def shapeDamping (t : Nat) (value : Word) : Word := fsub t one (clampCoefficient value)

/-- `PARAM` index 1: the cubic warp `1 - (1 - x)^3`, clamped (`43_voice` R165). Uses draws `t` to `t + 3`. -/
def shiftShapePole (t : Nat) (value : Word) : Word :=
  let u := fsub t one value
  let u3 := fmul (t + 2) (fmul (t + 1) u u) u
  let p := fsub (t + 3) one u3
  clampCoefficient p

/-- The effect of `PARAM` by index (`43_voice` R162): one register, or nothing for an index from 6 on. -/
def State.setParam (s : State) (index : Nat) (value : Word) : State :=
  match index with
  | 0 => { s with dampBase := shapeDamping s.draws value }.spend 1
  | 1 => { s with exfA := shiftShapePole s.draws value }.spend 4
  | 2 => { s with attackMs := clamp zero value s.cfg.attackMaxMs }
  | 3 => { s with modDepth := clamp zero value one }
  | 4 => { s with modCfg := modCfgOf value }
  | 5 => { s with phOfs := clamp zero value Config.phiMax }
  | _ => s

/-- `PARAM` (`43_voice` R162). -/
def execParam (index value : Word) (s : State) : Host.Outcome State Fault Refusal :=
  gated s fun s => (s.setParam (u32 index) value).respond 0#32

/-! ### Note events (R168 to R170) -/

/-- The burst length of a note (`43_voice` R168). Uses draw `t`. -/
def State.burstLength (t : Nat) (s : State) : Word := roundU32 (fmul t s.attackMs s.cfg.srPerMs)

/-- `NOTE_ON` (`43_voice` R168): the pitch and the burst at once, the clear of the line pending. -/
def execNoteOn (hz : Word) (s : State) : Host.Outcome State Fault Refusal :=
  gated s fun s =>
    ({ s with freq := hz, burst := s.burstLength s.draws, resetPend := true }.spend 1).respond 0#32

/-- `NOTE_OFF` (`43_voice` R169): no state changes. -/
def execNoteOff (s : State) : Host.Outcome State Fault Refusal :=
  gated s fun s => s.respond 0#32

/-- `PITCH` (`43_voice` R170). -/
def execPitch (hz : Word) (s : State) : Host.Outcome State Fault Refusal :=
  gated s fun s => State.respond { s with freq := hz } 0#32

/-! ### Block processing (R171 to R181) -/

/-- The deferred clear of a note-on (`43_voice` R171 (b)): the flag is consumed, BUF and `DL_W` are cleared. -/
def State.consumeReset (s : State) : State :=
  if s.resetPend then { s.clearLine with resetPend := false } else s

/-- The string length (`43_voice` R172). Uses draw `t`. -/
def State.stringLength (t : Nat) (s : State) : Word :=
  clamp two (fdiv t s.cfg.fs s.freq) (u2f s.capacity)

/-- The selected waveform at a phase (`43_voice` R173, `10_state` R35). Uses draws `t`, `t + 1`. -/
def waveform (t : Nat) (wave : Nat) (p : Word) : Word :=
  match wave with
  | 0 => sinWave p
  | 1 => triWave t p
  | 2 => sawWave t p
  | _ => sqrWave p

/-- The modulation target of the block (`43_voice` R173). Uses draws `t` to `t + 4`. -/
def State.modTarget (t : Nat) (s : State) (hostTarget : Word) : Word :=
  if s.internalSource then
    fmul (t + 4) s.modDepth (waveform (t + 2) s.waveSelect (shiftPhase t s.lfoPhi s.phOfs))
  else hostTarget

/-- What happens before the first sample of a block of `frames ≥ 1` samples (`43_voice` R171 (b), R172 to R174): the
temporaries, and the state with the line cleared if a reset was pending and the modulation pair shifted. -/
def State.openBlock (s : State) (frames : Nat) (hostTarget : Word) : Block × State :=
  let s := s.consumeReset
  let t := s.draws
  let target := s.modTarget (t + 1) hostTarget
  let start := s.modCur
  ({ length := s.stringLength t
     inc := fdiv (t + 7) (fsub (t + 6) target start) (u2f frames)
     v := start
     j := 0
     frames := frames },
   { s with modPrev := start, modCur := target }.spend 8)

/-- The effective damping of a sample (`43_voice` R175). Uses draw `t`. -/
def State.damping (t : Nat) (s : State) (v : Word) : Word := clampCoefficient (fadd t s.dampBase v)

/-- Read and damp (`43_voice` R176). Uses draws `t` to `t + 8`. -/
def State.feedback (t : Nat) (s : State) (b : Block) : Word :=
  onePole (t + 5) (s.damping t b.v) (s.readFrac (t + 1) b.length) s.lastSig

/-- The excitation of a sample (`43_voice` R177, R178): in the state Exciting one noise word is popped and filtered into
the signal and the burst counter goes down by one; none where the word is missing. Uses draws `t` to `t + 4`. -/
def State.excite (t : Nat) (s : State) (sig : Word) : Option (Word × State) :=
  if s.exciting then
    match s.noisePop with
    | none => none
    | some (n, s') =>
      let e := s'.exfNext t n
      some (fadd (t + 4) sig e, { s' with exfZ := e, burst := s'.burst - 1#32 })
  else some (sig, s)

/-- Write and output, then the end of the sample (`43_voice` R179, R180): the clipped signal to the line and twice to
OUT, the unclipped one to `LASTSIG`, the LFO advanced in the internal source. Uses draws `t` to `t + 5`. -/
def State.emit (t : Nat) (s : State) (sig : Word) : State :=
  let y := softClip t s.cfg.kClip sig
  let s := ((s.pushSample y).outPush y).outPush y
  let s := { s with lastSig := sig }
  if s.internalSource then s.lfoAdvance (t + 4) else s

/-- One sample of a block (`43_voice` R175 to R180); none where it waits for a noise word, and then it has done
nothing. -/
def sampleStep (b : Block) (s : State) : Option (Block × State) :=
  match s.excite (s.draws + 9) (s.feedback s.draws b) with
  | none => none
  | some (sig, s') =>
    some ({ b with v := fadd (s.draws + 17) b.v b.inc, j := b.j + 1 }, (s'.emit (s.draws + 14) sig).spend 20)

/-- The samples of a block from the next one on, `left` of them: to the response, or to where the command waits. -/
def runBlock : Nat → Block → State → State
  | 0, _, s => s.respond 0#32
  | left + 1, b, s =>
    match sampleStep b s with
    | none => { s with inFlight := some b }
    | some (b', s') => runBlock left b' s'

/-- `PROCESS` (`43_voice` R171). With `frames = 0` nothing at all happens (R171 (a)). -/
def execProcess (frames target : Word) (s : State) : Host.Outcome State Fault Refusal :=
  gated s fun s =>
    if u32 frames = 0 then s.respond 0#32
    else
      let (b, s') := s.openBlock (u32 frames) target
      runBlock (u32 frames) b s'

/-- A waiting `PROCESS` goes on from the sample it waits in (`70_reset_and_hazards` R237). -/
def resumeBlock (b : Block) (s : State) : Host.Outcome State Fault Refusal :=
  .next (runBlock (b.frames - b.j) b { s with inFlight := none })

end Sys2Proof.Machine
end

