-- ==== Sys2Proof/Machine/Dispatch.lean ====
section
/-! DEFINITION. One arm per command, each one direct call of the command's meaning. -/

namespace Sys2Proof.Machine

def exec (i : Instr) (s : State) : Host.Outcome State Fault Refusal :=
  match i with
  | .nop => Sys2Proof.Machine.execNop s
  | .init platformId apiVersion => Sys2Proof.Machine.execInit platformId apiVersion s
  | .param index value => Sys2Proof.Machine.execParam index value s
  | .noteOn hz => Sys2Proof.Machine.execNoteOn hz s
  | .noteOff => Sys2Proof.Machine.execNoteOff s
  | .pitch hz => Sys2Proof.Machine.execPitch hz s
  | .process frames target => Sys2Proof.Machine.execProcess frames target s
  | .rdreg number => Sys2Proof.Machine.execRdreg number s
  | .dlWrite sample => Sys2Proof.Machine.execDlWrite sample s
  | .dlReadx offset => Sys2Proof.Machine.execDlReadx offset s
  | .dlReadf delay => Sys2Proof.Machine.execDlReadf delay s
  | .dlClear => Sys2Proof.Machine.execDlClear s
  | .opSetc coefficient => Sys2Proof.Machine.execOpSetc coefficient s
  | .opProc sample => Sys2Proof.Machine.execOpProc sample s
  | .lfoSetf hz recip => Sys2Proof.Machine.execLfoSetf hz recip s
  | .lfoReset => Sys2Proof.Machine.execLfoReset s
  | .lfoAdv => Sys2Proof.Machine.execLfoAdv s
  | .lfoSin => Sys2Proof.Machine.execLfoSin s
  | .lfoTri => Sys2Proof.Machine.execLfoTri s
  | .lfoSaw => Sys2Proof.Machine.execLfoSaw s
  | .lfoSqr => Sys2Proof.Machine.execLfoSqr s
  | .lfoSino offset => Sys2Proof.Machine.execLfoSino offset s
  | .lfoTrio offset => Sys2Proof.Machine.execLfoTrio offset s
  | .lfoSawo offset => Sys2Proof.Machine.execLfoSawo offset s
  | .lfoSqro offset => Sys2Proof.Machine.execLfoSqro offset s

end Sys2Proof.Machine
end

