-- ==== Sys2Proof/WellFormed.lean ====
section
/-!
DEFINITION. The checks on a packet and on a command. A packet is well formed when it is no reserved encoding
(`30_encoding` R85): three checks, one for each way to be reserved. A command's operands are whole 32-bit words
(R82), so its type admits exactly what the encoding admits; the one further check is the register number of `RDREG`,
which names a register when it is at most 0x11 (`10_state` R21).
-/

namespace Sys2Proof

/-- `RSV`, `W0[31:8]` (`30_encoding` R81). -/
def Packet.rsv (p : Packet) : Nat := p.w0.toNat / 256

/-- `UNIT`, `W0[7:4]` (`30_encoding` R81). -/
def Packet.unit (p : Packet) : Nat := p.w0.toNat / 16 % 16

/-- `FN`, `W0[3:0]` (`30_encoding` R81). -/
def Packet.fn (p : Packet) : Nat := p.w0.toNat % 16

/-- `RSV` must be 0 (`30_encoding` R81). -/
def Packet.rsvClear (p : Packet) : Bool := p.rsv == 0

/-- Units 4 to 15 are reserved (`30_encoding` R81). -/
def Packet.unitAssigned (p : Packet) : Bool := p.unit < 4

/-- The unassigned functions of units 0 to 3 (`30_encoding` R85): `0x08`-`0x0F`, `0x14`-`0x1F`, `0x22`-`0x2F`, `0x33`,
`0x38`-`0x3B`. -/
def Packet.functionAssigned (p : Packet) : Bool :=
  match p.unit with
  | 0 => p.fn < 8
  | 1 => p.fn < 4
  | 2 => p.fn < 2
  | 3 => p.fn != 3 && !(8 ≤ p.fn && p.fn < 12)
  | _ => true

/-- The packet is no reserved encoding (`30_encoding` R85). -/
def Packet.wellFormed (p : Packet) : Bool := p.rsvClear && p.unitAssigned && p.functionAssigned

/-- The command names only registers that exist (`10_state` R21: "Register numbers `0x12` and above do not exist").
It does not gate execution: a read of another number answers 0 (`44_system` R202; log entry 6). -/
def Instr.wellFormed : Instr → Bool
  | .nop => true
  | .init _ _ => true
  | .param _ _ => true
  | .noteOn _ => true
  | .noteOff => true
  | .pitch _ => true
  | .process _ _ => true
  | .rdreg n => n.toNat < 0x12
  | .dlWrite _ => true
  | .dlReadx _ => true
  | .dlReadf _ => true
  | .dlClear => true
  | .opSetc _ => true
  | .opProc _ => true
  | .lfoSetf _ _ => true
  | .lfoReset => true
  | .lfoAdv => true
  | .lfoSin => true
  | .lfoTri => true
  | .lfoSaw => true
  | .lfoSqr => true
  | .lfoSino _ => true
  | .lfoTrio _ => true
  | .lfoSawo _ => true
  | .lfoSqro _ => true

end Sys2Proof
end

