-- ==== Sys2Proof/Decode.lean ====
section
/-!
DEFINITION. Decoding a packet (`30_encoding` R80 to R85), the byte serialisation of packets (R90, `20_memory` R63), and
the encoder (R80, R83, R88).
-/

namespace Sys2Proof

/-- Why the decoder rejects. The first three are the reserved encodings of `30_encoding` R85, which the block executes
as a no-operation; the last is a byte sequence that ends inside a packet. -/
inductive DecodeError where
  /-- `W0[31:8] ≠ 0`. -/
  | reservedBits
  /-- `W0[7:4] ≥ 4`. -/
  | reservedUnit
  /-- An unassigned function of units 0 to 3. -/
  | unassignedFunction
  /-- Fewer than twelve bytes. -/
  | truncated
deriving DecidableEq, Repr

/-- The command that opcode `OPC = W0[7:0]` selects, with its operand words (`30_encoding` R82, R83). -/
def decodeOpcode (opc : Nat) (a b : Word) : Option Instr :=
  match opc with
  | 0x00 => some .nop
  | 0x01 => some (.init a b)
  | 0x02 => some (.param a b)
  | 0x03 => some (.noteOn a)
  | 0x04 => some .noteOff
  | 0x05 => some (.pitch a)
  | 0x06 => some (.process a b)
  | 0x07 => some (.rdreg a)
  | 0x10 => some (.dlWrite a)
  | 0x11 => some (.dlReadx a)
  | 0x12 => some (.dlReadf a)
  | 0x13 => some .dlClear
  | 0x20 => some (.opSetc a)
  | 0x21 => some (.opProc a)
  | 0x30 => some (.lfoSetf a b)
  | 0x31 => some .lfoReset
  | 0x32 => some .lfoAdv
  | 0x34 => some .lfoSin
  | 0x35 => some .lfoTri
  | 0x36 => some .lfoSaw
  | 0x37 => some .lfoSqr
  | 0x3C => some (.lfoSino a)
  | 0x3D => some (.lfoTrio a)
  | 0x3E => some (.lfoSawo a)
  | 0x3F => some (.lfoSqro a)
  | _ => none

/-- Decoding compares all 32 bits of `W0` (`30_encoding` R81); a packet that selects no command is rejected by the
name of the field that makes it reserved (R85). -/
def decode (p : Packet) : Except DecodeError Instr :=
  match decodeOpcode p.w0.toNat p.a p.b with
  | some i => .ok i
  | none =>
    if p.rsvClear then (if p.unitAssigned then .error .unassignedFunction else .error .reservedUnit)
    else .error .reservedBits

/-- A word from four bytes, least significant first (`30_encoding` R90). -/
def wordOfBytes (b0 b1 b2 b3 : Byte) : Word :=
  BitVec.ofNat 32 (b0.toNat + 2 ^ 8 * b1.toNat + 2 ^ 16 * b2.toNat + 2 ^ 24 * b3.toNat)

/-- The four bytes of a word, least significant first (`30_encoding` R90). -/
def bytesOfWord (w : Word) : List Byte :=
  [BitVec.ofNat 8 w.toNat, BitVec.ofNat 8 (w.toNat / 2 ^ 8), BitVec.ofNat 8 (w.toNat / 2 ^ 16),
    BitVec.ofNat 8 (w.toNat / 2 ^ 24)]

/-- A packet as twelve bytes: `W0`, then `A`, then `B` (`30_encoding` R90). -/
def Packet.toBytes (p : Packet) : List Byte := bytesOfWord p.w0 ++ bytesOfWord p.a ++ bytesOfWord p.b

/-- The first packet of a byte sequence and the bytes after it; none where fewer than twelve bytes are left. -/
def packetOfBytes : List Byte → Option (Packet × List Byte)
  | x0 :: x1 :: x2 :: x3 :: y0 :: y1 :: y2 :: y3 :: z0 :: z1 :: z2 :: z3 :: rest =>
    some (⟨wordOfBytes x0 x1 x2 x3, wordOfBytes y0 y1 y2 y3, wordOfBytes z0 z1 z2 z3⟩, rest)
  | _ => none

/-- Decoding of serialised bytes: the first command and the bytes after its packet. -/
def decodeBytes (bytes : List Byte) : Except DecodeError (Instr × List Byte) :=
  match packetOfBytes bytes with
  | none => .error .truncated
  | some (p, rest) =>
    match decode p with
    | .ok i => .ok (i, rest)
    | .error e => .error e

/-! ### The encoder -/

/-- The opcode of a command, its row of `30_encoding` R83. -/
def Instr.opcode : Instr → Word
  | .nop => 0x00#32
  | .init _ _ => 0x01#32
  | .param _ _ => 0x02#32
  | .noteOn _ => 0x03#32
  | .noteOff => 0x04#32
  | .pitch _ => 0x05#32
  | .process _ _ => 0x06#32
  | .rdreg _ => 0x07#32
  | .dlWrite _ => 0x10#32
  | .dlReadx _ => 0x11#32
  | .dlReadf _ => 0x12#32
  | .dlClear => 0x13#32
  | .opSetc _ => 0x20#32
  | .opProc _ => 0x21#32
  | .lfoSetf _ _ => 0x30#32
  | .lfoReset => 0x31#32
  | .lfoAdv => 0x32#32
  | .lfoSin => 0x34#32
  | .lfoTri => 0x35#32
  | .lfoSaw => 0x36#32
  | .lfoSqr => 0x37#32
  | .lfoSino _ => 0x3C#32
  | .lfoTrio _ => 0x3D#32
  | .lfoSawo _ => 0x3E#32
  | .lfoSqro _ => 0x3F#32

/-- The operand words of a command; an operand it does not use is assembled as 0 (`30_encoding` R80, R88). -/
def Instr.operands : Instr → Word × Word
  | .nop => (0, 0)
  | .init p v => (p, v)
  | .param n v => (n, v)
  | .noteOn hz => (hz, 0)
  | .noteOff => (0, 0)
  | .pitch hz => (hz, 0)
  | .process n t => (n, t)
  | .rdreg n => (n, 0)
  | .dlWrite x => (x, 0)
  | .dlReadx k => (k, 0)
  | .dlReadf d => (d, 0)
  | .dlClear => (0, 0)
  | .opSetc c => (c, 0)
  | .opProc x => (x, 0)
  | .lfoSetf hz r => (hz, r)
  | .lfoReset => (0, 0)
  | .lfoAdv => (0, 0)
  | .lfoSin => (0, 0)
  | .lfoTri => (0, 0)
  | .lfoSaw => (0, 0)
  | .lfoSqr => (0, 0)
  | .lfoSino o => (o, 0)
  | .lfoTrio o => (o, 0)
  | .lfoSawo o => (o, 0)
  | .lfoSqro o => (o, 0)

/-- The packet of a command (`30_encoding` R80, R83). -/
def encode (i : Instr) : Packet := ⟨i.opcode, i.operands.1, i.operands.2⟩

/-! ### The host's view of the decoder -/

/-- The twelve bytes of a packet whose 96 bits are `w`, bit 0 the least significant of `W0` (`30_encoding` R90). -/
def packetBytes (w : Nat) : List Byte :=
  (List.range 12).map fun k => BitVec.ofNat 8 (w / 2 ^ (8 * k))

/-- The instruction the decoder reads from the `nbits` bits `w` of an opcode-table row, every bit above them 0. The
table gives a row the 32 bits of `W0`; the operand words are then 0. -/
def decodeTableWord (nbits w : Nat) : Option Instr :=
  match decodeBytes (packetBytes (w % 2 ^ nbits)) with
  | .ok (i, _) => some i
  | .error _ => none

end Sys2Proof
end

