-- ==== Sys2Proof/Machine/Port.lean ====
section
/-!
DEFINITION. The command port (`30_encoding` R86) and what the host does at the interface between two steps
(`00_scope` R3 (a)): it sends packets, supplies noise words, and takes response and OUT words. The host's operations
are no part of a step.
-/

namespace Sys2Proof.Machine

/-- The port accepts the next packet the host has sent; none where the host has sent none. -/
def State.accept (s : State) : Option (Packet × State) :=
  match s.port with
  | [] => none
  | p :: rest => some (p, { s with port := rest })

/-- A reserved encoding executes as a no-operation with response 0 (`30_encoding` R85; log entry 6). -/
def reservedNoOperation (s : State) : Host.Outcome State Fault Refusal := .next (s.respond 0#32)

/-- The host sends one more packet. -/
def State.send (s : State) (p : Packet) : State := { s with port := s.port ++ [p] }

/-- The host supplies one more noise word (`20_memory` R68). -/
def State.supply (s : State) (w : Word) : State := { s with noise := s.noise ++ [w] }

/-- The host takes the oldest OUT word (`20_memory` R65, R66). -/
def State.takeOut (s : State) : Option (Word × State) :=
  match s.out with
  | [] => none
  | w :: rest => some (w, { s with out := rest })

/-- The host takes the oldest response word (`30_encoding` R86). -/
def State.takeResp (s : State) : Option (Word × State) :=
  match s.resp with
  | [] => none
  | w :: rest => some (w, { s with resp := rest })

end Sys2Proof.Machine
end

