-- ==== Sys2Proof/Machine/Step.lean ====
section
/-!
DEFINITION. One step of KS-CORE. The block has no program counter and fetches nothing (`10_state` R22): a step takes the
next packet the host has sent and executes it to completion (`30_encoding` R86, `20_memory` R69). The order of checks is
`60_exceptions` R213: reserved encoding, then the `INITED` gate (in the meanings), then the command's rule.
-/

namespace Sys2Proof.Machine

/-- One step. While a `PROCESS` waits, the block accepts no packet and goes on with it (`70_reset_and_hazards` R237);
with no packet to accept the block is idle and holds its state (`60_exceptions` R221). -/
def step (s : State) : Host.Outcome State Fault Refusal :=
  match s.inFlight with
  | some b => resumeBlock b s
  | none =>
    match s.accept with
    | none => .next s
    | some (p, s') =>
      match decode p with
      | .ok i => exec i s'
      | .error _ => reservedNoOperation s'

/-- The state with one packet, given as the `nbits` bits `w` of an opcode-table row, standing where the port accepts its
next packet, and no command in progress: the host's sending of that packet (log entry 5). Bits above `nbits`, the
operand words of a row of 32 bits among them, are 0. -/
def State.withFetchWord (s : State) (nbits w : Nat) : State :=
  let bits := w % 2 ^ nbits
  let p : Packet :=
    ⟨BitVec.ofNat 32 bits, BitVec.ofNat 32 (bits / 2 ^ 32), BitVec.ofNat 32 (bits / 2 ^ 64)⟩
  { s with port := p :: s.port, inFlight := none }

end Sys2Proof.Machine
end

