-- ==== Sys2Proof/Safety.lean ====
section
/-!
DEFINITION. What a state and a run must satisfy to count as sound, in the terms the statements use: the invariants of
`10_state` R41 with the canonical form of the buffer, and the programs and noise words the spec tells a model to be
content with (`93_implementation_defined` U5, U7, U8).
-/

namespace Sys2Proof.Safety

open Sys2Proof.Machine F32

/-- `fsub(1, ONE_M_EPS)`, the lower end of `DAMP_BASE` (`10_state` R29: `0x35880000`). -/
def dampLow : Word := 0x35880000#32

/-- `lo ≤ x ≤ hi` as binary32 values; false for a NaN. -/
def within (lo x hi : Word) : Bool := fle lo x && fle x hi

/-- The register ranges of `10_state` R41. (`MOD_CFG < 8` is its width; `DL_W` is in `Invariant`.) -/
def registersInRange (s : State) : Bool :=
  within Config.eps s.exfA Config.oneMEps && isPhase s.lfoPhi && within zero s.lfoF0 half &&
  within zero s.attackMs s.cfg.attackMaxMs && within dampLow s.dampBase Config.oneMEps &&
  within zero s.modDepth one && within zero s.phOfs Config.phiMax

/-- A waiting `PROCESS` has a sample left to do (`10_state` R40, `70_reset_and_hazards` R237). -/
def waitsSoundly (s : State) : Bool :=
  match s.inFlight with
  | none => true
  | some b => s.inited && decide (b.j < b.frames)

/-- What holds between any two steps: the configuration is a legal one (`00_scope` R4), the buffer is in canonical form
and lists addresses below `C` only (`20_memory` R60, R64), the cursor is below `C` (`10_state` R25), from `INIT` on the
registers are in their ranges (R41), and a waiting `PROCESS` is a legal one. -/
structure Invariant (s : State) : Prop where
  config : s.cfg.WellFormed
  /-- `INIT` writes 10.0 to `ATTACK_MS` (`44_system` R201), so R41 holds only where `ATTACK_MAX_MS` is at least that
  (DEDUCED, log entry 20). -/
  attackLimit : fle 0x41200000#32 s.cfg.attackMaxMs = true
  canonical : Memory.wf s.buf = true
  inBounds : s.buf.all (fun c => c.1 < s.capacity) = true
  cursor : s.dlW.toNat < s.capacity
  registers : s.inited = true → registersInRange s = true
  waiting : waitsSoundly s = true

/-- A packet a model should not refuse (`93_implementation_defined` U7, U8): no reserved encoding, and no read of a
register number that does not exist. It gates nothing (log entry 6). -/
def portablePacket (p : Packet) : Bool :=
  p.wellFormed && (match decode p with
    | .ok i => i.wellFormed
    | .error _ => false)

/-- A program of portable packets (`93_implementation_defined` U7, U8). -/
def portableProgram (ps : List Packet) : Bool := ps.all portablePacket

/-- The noise words a white-noise generator is expected to deliver (`20_memory` R68): finite and in `[-1, 1]`. No rule
assumes it; a statement that needs it says so. -/
def tameNoise (s : State) : Bool := s.noise.all fun w => within negOne w one

/-- The block waits for a noise word (`70_reset_and_hazards` R237). -/
def stuckForNoise (s : State) : Bool := s.inFlight.isSome && s.noise.isEmpty

end Sys2Proof.Safety
end

