-- ==== Sys2Proof/Certificates/Slice0/Obligations.lean ====
section
/-!
DEFINITION. The statements for the provers. Each cites the rules of `spec/` it rests on in its docstring; a statement
about a next state gives the whole of it, so that it says what changes and that nothing else does. The model's own draw
counter (`draws`, log entry 7) is left free in every next state.
-/

open Sys2Proof Sys2Proof.Machine Sys2Proof.Safety Sys2Proof.F32

namespace Sys2Proof.Claims

/-- `w` is the binary32 nearest to the rational `q`, the even one where two are equally near (`00_scope` R6). -/
def IsNearestEven (q : ℚ) (w : Word) : Prop :=
  (∀ v : Word, isFinite v = true → |toRat w - q| ≤ |toRat v - q|) ∧
  ∀ v : Word, isFinite v = true → |toRat v - q| = |toRat w - q| → toRat v ≠ toRat w → w.toNat % 2 = 0

/-- `w` is `q` correctly rounded (`00_scope` R6, R7): finite and the nearest, or, for a `q` at or beyond
the middle between the largest finite value and 2^128, an infinity of its sign. -/
def IsCorrectlyRounded (q : ℚ) (w : Word) : Prop :=
  (isFinite w = true ∧ |q| < (2 ^ 25 - 1) * 2 ^ 103 ∧ IsNearestEven q w) ∨
  (isInf w = true ∧ signBit w = false ∧ (2 ^ 25 - 1) * 2 ^ 103 ≤ q) ∨
  (isInf w = true ∧ signBit w = true ∧ q ≤ -((2 ^ 25 - 1) * 2 ^ 103))

/-- The two states look the same from outside the block and have the same configuration. -/
def SameInterface (s t : State) : Prop :=
  s.port = t.port ∧ s.resp = t.resp ∧ s.out = t.out ∧ s.noise = t.noise ∧ s.cfg = t.cfg ∧ s.draws = t.draws

/-- The packet selects the command: `W0` is the opcode of its row of the table of `30_encoding` R83, and the operand words
that R82 gives the command are those of the packet. A word that R82 has the command ignore stands under no condition
(R80); of `INIT`, which takes both words and drops them, the model keeps them as operands. -/
def Selects (p : Packet) : Instr → Prop
  | .nop => p.w0 = 0x00000000#32
  | .init platformId apiVersion => p.w0 = 0x00000001#32 ∧ p.a = platformId ∧ p.b = apiVersion
  | .param index value => p.w0 = 0x00000002#32 ∧ p.a = index ∧ p.b = value
  | .noteOn hz => p.w0 = 0x00000003#32 ∧ p.a = hz
  | .noteOff => p.w0 = 0x00000004#32
  | .pitch hz => p.w0 = 0x00000005#32 ∧ p.a = hz
  | .process frames target => p.w0 = 0x00000006#32 ∧ p.a = frames ∧ p.b = target
  | .rdreg number => p.w0 = 0x00000007#32 ∧ p.a = number
  | .dlWrite sample => p.w0 = 0x00000010#32 ∧ p.a = sample
  | .dlReadx offset => p.w0 = 0x00000011#32 ∧ p.a = offset
  | .dlReadf delay => p.w0 = 0x00000012#32 ∧ p.a = delay
  | .dlClear => p.w0 = 0x00000013#32
  | .opSetc coefficient => p.w0 = 0x00000020#32 ∧ p.a = coefficient
  | .opProc sample => p.w0 = 0x00000021#32 ∧ p.a = sample
  | .lfoSetf hz recip => p.w0 = 0x00000030#32 ∧ p.a = hz ∧ p.b = recip
  | .lfoReset => p.w0 = 0x00000031#32
  | .lfoAdv => p.w0 = 0x00000032#32
  | .lfoSin => p.w0 = 0x00000034#32
  | .lfoTri => p.w0 = 0x00000035#32
  | .lfoSaw => p.w0 = 0x00000036#32
  | .lfoSqr => p.w0 = 0x00000037#32
  | .lfoSino offset => p.w0 = 0x0000003C#32 ∧ p.a = offset
  | .lfoTrio offset => p.w0 = 0x0000003D#32 ∧ p.a = offset
  | .lfoSawo offset => p.w0 = 0x0000003E#32 ∧ p.a = offset
  | .lfoSqro offset => p.w0 = 0x0000003F#32 ∧ p.a = offset

/-! #### The rules of the sample loop, written out from the spec

These repeat the pseudocode of the rules in terms of the primitives (`00_scope` R6), the constants and reads of one word
of the line, so that a statement that uses them names no meaning of the model. `d` gives the number of the draw a NaN of
each primitive would take (log entry 7); the statements leave it free. -/

/-- `Slot(k) = (x[DL_W] - (k mod C)) mod C` (`40_delay_line` R102). -/
def slotRule (s : State) (k : ℕ) : ℕ := (((s.cursor : ℤ) - (k % s.capacity : ℕ)) % (s.capacity : ℤ)).toNat

/-- `ReadFrac(delay)` (`40_delay_line` R104). -/
def readRule (d : ℕ → ℕ) (s : State) (delay : Word) : Word :=
  let x := clamp zero delay (u2f (2 ^ s.cfg.log2c))
  let i := floorI x
  let s0 := s.memRead (slotRule s i)
  let s1 := s.memRead (slotRule s (i + 1))
  fadd (d 0) s0 (fmul (d 1) (fsub (d 2) x (u2f i)) (fsub (d 3) s1 s0))

/-- `OnePole(a, x, z)` (`41_one_pole` R120). -/
def poleRule (d : ℕ → ℕ) (a x z : Word) : Word :=
  fadd (d 0) (fmul (d 1) a x) (fmul (d 2) (fsub (d 3) one a) z)

/-- `SoftClip(x)` (`43_voice` R163). -/
def clipRule (d : ℕ → ℕ) (kClip x : Word) : Word :=
  fdiv (d 0) x (fadd (d 1) one (fmul (d 2) (fabs x) kClip))

/-- A phase plus a step, less 1.0 where the sum has reached it (`42_lfo` R133). -/
def advanceRule (d : ℕ → ℕ) (phase step : Word) : Word :=
  if fge (fadd (d 0) phase step) one then fsub (d 1) (fadd (d 0) phase step) one else fadd (d 0) phase step

/-- `Shift(φ, o)`: the offset clamped into `[0, PHI_MAX]` and added, less 1.0 where the sum has reached it (`42_lfo`
R134). -/
def shiftRule (d : ℕ → ℕ) (phase offset : Word) : Word :=
  if fge (fadd (d 0) phase (clamp zero offset Config.phiMax)) one then
    fsub (d 1) (fadd (d 0) phase (clamp zero offset Config.phiMax)) one
  else fadd (d 0) phase (clamp zero offset Config.phiMax)

/-- The waveform that `MOD_CFG.WAVE` numbers, at a phase: 0 `SIN2PI`, 1 triangle, 2 sawtooth, 3 square (`10_state` R35,
`42_lfo` R136, R137). -/
def waveRule (d : ℕ → ℕ) (wave : BitVec 2) (p : Word) : Word :=
  if wave = 0#2 then Config.sin2pi.fn p
  else if wave = 1#2 then
    if flt p quarter then fmul (d 0) four p
    else if flt p threeQuarters then fsub (d 1) two (fmul (d 0) four p)
    else fsub (d 1) (fmul (d 0) four p) four
  else if wave = 2#2 then fsub (d 1) (fmul (d 0) two p) one
  else if flt p half then one else negOne

/-- The modulation target of the block: the host's word while bit 0 of `MOD_CFG` is 0, else `MOD_DEPTH` times the
waveform of bits 2:1 at `Shift(LFO_PHI, PH_OFS)` (`43_voice` R173). -/
def targetRule (d : ℕ → ℕ) (s : State) (host : Word) : Word :=
  if s.modCfg.getLsbD 0 = false then host
  else fmul (d 0) s.modDepth
    (waveRule (fun i => d (i + 1)) (s.modCfg.extractLsb' 1 2) (shiftRule (fun i => d (i + 3)) s.lfoPhi s.phOfs))

/-- `length` (`43_voice` R172). -/
def lengthRule (d : ℕ) (s : State) : Word := clamp two (fdiv d s.cfg.fs s.freq) (u2f (2 ^ s.cfg.log2c))

/-- `sig` before the excitation: the read at `length`, damped by `DAMP_BASE + v` clamped into `[EPS, ONE_M_EPS]`
(`43_voice` R175, R176). -/
def dampedRule (d : ℕ → ℕ → ℕ) (s : State) (length v : Word) : Word :=
  poleRule (d 0) (clamp Config.eps (fadd (d 1 0) s.dampBase v) Config.oneMEps) (readRule (d 2) s length) s.lastSig

/-- The line a block of at least one frame starts from: cleared where a reset is pending (`43_voice` R171 (b)). -/
def lineAtStart (s : State) : State := if s.resetPend then { s with buf := [], dlW := 0#32 } else s

/-- What `R179` and `R180` do with a signal: the clipped word to the line and twice to OUT, the signal to `LASTSIG`, the
phase advanced by `LFO_F0` while bit 0 of `MOD_CFG` is 1. -/
def emitRule (d : ℕ → ℕ → ℕ) (s : State) (sig : Word) : State :=
  { s with
    buf := bufWrite s.buf s.cursor (clipRule (d 0) s.cfg.kClip sig)
    dlW := BitVec.ofNat 32 ((s.cursor + 1) % s.capacity)
    out := s.out ++ [clipRule (d 0) s.cfg.kClip sig, clipRule (d 0) s.cfg.kClip sig]
    lastSig := sig
    lfoPhi := if s.modCfg.getLsbD 0 then advanceRule (d 1) s.lfoPhi s.lfoF0 else s.lfoPhi }

/-- `s'` is `s` after one sample of a block of string length `length`, at the ramp value `v` (`43_voice` R175 to R180): in
the state Idle the damped signal is emitted; in the state Exciting one noise word is popped and filtered into `EXF_Z`, the
filtered word is added to the signal, and `BURST` goes down by one. -/
def SampleFollows (length v : Word) (s s' : State) : Prop :=
  ∃ (d e : ℕ → ℕ → ℕ) (n : ℕ),
    (s.burst.toNat = 0 ∧ s' = { emitRule e s (dampedRule d s length v) with draws := n }) ∨
    (0 < s.burst.toNat ∧ ∃ w rest z, s.noise = w :: rest ∧ z = poleRule (e 2) s.exfA w s.exfZ ∧
      s' = { emitRule e s (fadd (e 3 0) (dampedRule d s length v) z) with
        exfZ := z, burst := s.burst - 1#32, noise := rest, draws := n })

/-- The first `n` samples of a `PROCESS` of `frames` samples on `s`: `u j` is the state before sample `j` and `v j` the ramp
value it uses. The block starts from the line of R171 (b) with the modulation pair shifted to the target of R173; the
ramp starts at the previous target and advances by `(target - start) / frames` (R174, R180); each sample follows from the
one before, at the length of R172 (`43_voice` R171 to R180). -/
structure SamplesFollow (s : State) (frames : ℕ) (host : Word) (n : ℕ) (d : ℕ → ℕ → ℕ) (u : ℕ → State) (v : ℕ → Word)
    (length target inc : Word) : Prop where
  length_eq : length = lengthRule (d 0 0) s
  target_eq : target = targetRule (d 1) s host
  inc_eq : inc = fdiv (d 2 0) (fsub (d 2 1) target s.modCur) (u2f frames)
  start : u 0 = { lineAtStart s with
    resetPend := false, modPrev := s.modCur, modCur := target, draws := (u 0).draws }
  ramp_start : v 0 = s.modCur
  sample : ∀ j < n, SampleFollows length (v j) (u j) (u (j + 1))
  ramp : ∀ j < n, ∃ e, v (j + 1) = fadd e (v j) inc

/-- What `n` samples of a `PROCESS` on `s`, whose clipped words are `ys`, have done to the streams and the burst counter
when the state is `t` (`43_voice` R177 to R179, R181; `20_memory` R66, R68): the words are pushed in pairs, one noise word
is popped for each exciting sample. -/
structure StreamsDone (s t : State) (n : ℕ) (ys : List Word) : Prop where
  count : ys.length = n
  out : t.out = s.out ++ ys.flatMap (fun y => [y, y])
  noise : t.noise = s.noise.drop (min s.burst.toNat n)
  burst : t.burst.toNat = s.burst.toNat - n

/-- What those samples have done to the line (`43_voice` R171 (b), R179, R181; `20_memory` R72): the last of the words (at
most `C`) stand in the slots behind the cursor, the older slots are as before, or cleared where a reset was pending. -/
structure LineDone (s t : State) (n : ℕ) (ys : List Word) : Prop where
  cursor : t.cursor = ((if s.resetPend then 0 else s.cursor) + n) % s.capacity
  written : ∀ k, 1 ≤ k → k ≤ n → k ≤ s.capacity → t.memRead (slotRule t k) = ys.getD (n - k) 0#32
  older : ∀ k, n < k → k ≤ s.capacity → t.memRead (slotRule t k) =
    if s.resetPend then 0x00000000#32 else s.memRead (slotRule s (k - n))

/-- The voice in a bounded regime: the default knee, a line of words below the soft-clip bound, filter states of moderate
size and tame noise. The bounds 2 and 2^22 are derived: fixed points of the recurrences of `43_voice` R182 (b) with their
roundings, at the smallest coefficient `EPS`. -/
def Bounded (s : State) : Prop :=
  s.cfg.kClip = 0x3D4CCCCD#32 ∧
  (∀ a, isFinite (s.memRead a) = true ∧ |toRat (s.memRead a)| < 20000005 / 1000000) ∧
  isFinite s.exfZ = true ∧ |toRat s.exfZ| ≤ 2 ∧ isFinite s.lastSig = true ∧ |toRat s.lastSig| ≤ 2 ^ 22 ∧
  tameNoise s = true

end Sys2Proof.Claims

open Sys2Proof.Claims

/-! ### Encoding, port, gate -/

/-- A command serialised to twelve bytes, whatever follows, is read back as itself, and the rest is left
(`30_encoding` R80, R82, R83, R90). -/
def Obligations.SerialisedCommandDecodesToItself : Prop :=
  ∀ (i : Instr) (rest : List Byte), decodeBytes ((encode i).toBytes ++ rest) = .ok (i, rest)

/-- The decoder reads the command `i` from a packet exactly where the packet selects it: its command word is the opcode of
`i` and the operand words `i` uses are the packet's, whatever the words it ignores hold (`30_encoding` R80 to R83). And it
reads some command exactly where the packet is no reserved encoding (R85). -/
def Obligations.DecoderAcceptsExactlyAssignedEncodings : Prop :=
  (∀ (p : Packet) (i : Instr), decode p = .ok i ↔ Selects p i) ∧
  ∀ p : Packet, (∃ i, decode p = .ok i) ↔
    ¬ (p.w0.toNat / 256 ≠ 0 ∨ 4 ≤ p.w0.toNat / 16 % 16 ∨
      (0x08 ≤ p.w0.toNat ∧ p.w0.toNat ≤ 0x0F) ∨ (0x14 ≤ p.w0.toNat ∧ p.w0.toNat ≤ 0x1F) ∨
      (0x22 ≤ p.w0.toNat ∧ p.w0.toNat ≤ 0x2F) ∨ p.w0.toNat = 0x33 ∨
      (0x38 ≤ p.w0.toNat ∧ p.w0.toNat ≤ 0x3B))

/-- Packets written out from `30_encoding` R81, R83 and `95_test_vectors` 2.1 decode to their commands. -/
def Obligations.SpecPacketsDecodeToTheirCommands : Prop :=
  decode ⟨0x00000000#32, 0#32, 0#32⟩ = .ok .nop ∧
  decode ⟨0x00000002#32, 0x00000004#32, 0x00000003#32⟩ = .ok (.param 4#32 3#32) ∧
  decode ⟨0x00000006#32, 0x00000004#32, 0x3E800000#32⟩ = .ok (.process 4#32 0x3E800000#32) ∧
  decode ⟨0x00000012#32, 0x3FA00000#32, 0#32⟩ = .ok (.dlReadf 0x3FA00000#32) ∧
  decode ⟨0x00000021#32, 0x3F800000#32, 0#32⟩ = .ok (.opProc 0x3F800000#32) ∧
  decode ⟨0x00000030#32, 0x3E000000#32, 0x3F800000#32⟩ = .ok (.lfoSetf 0x3E000000#32 0x3F800000#32) ∧
  decode ⟨0x0000003E#32, 0x3E800000#32, 0#32⟩ = .ok (.lfoSawo 0x3E800000#32) ∧
  decode ⟨0x00000106#32, 4#32, 0#32⟩ = .error .reservedBits ∧
  decode ⟨0x00000040#32, 0#32, 0#32⟩ = .error .reservedUnit ∧
  decode ⟨0x00000033#32, 0#32, 0#32⟩ = .error .unassignedFunction

/-- A step of a block that is not waiting executes the command the next packet decodes to, with that packet taken from
the port and nothing else around it (`30_encoding` R86, `20_memory` R69; the port as a list is log entry 5). -/
def Obligations.StepExecutesTheDecodedCommand : Prop :=
  ∀ (s : State) (p : Packet) (rest : List Packet) (i : Instr),
    s.inFlight = none → s.port = p :: rest → decode p = .ok i → step s = exec i { s with port := rest }

/-- A reserved encoding executes as a no-operation with response 0, before `INIT` and after (`30_encoding` R85,
`60_exceptions` R213). -/
def Obligations.ReservedEncodingIsNoOperation : Prop :=
  ∀ (s : State) (p : Packet) (rest : List Packet), s.inFlight = none → s.port = p :: rest →
    (p.w0.toNat / 256 ≠ 0 ∨ 4 ≤ p.w0.toNat / 16 % 16 ∨
      (0x08 ≤ p.w0.toNat ∧ p.w0.toNat ≤ 0x0F) ∨ (0x14 ≤ p.w0.toNat ∧ p.w0.toNat ≤ 0x1F) ∨
      (0x22 ≤ p.w0.toNat ∧ p.w0.toNat ≤ 0x2F) ∨ p.w0.toNat = 0x33 ∨
      (0x38 ≤ p.w0.toNat ∧ p.w0.toNat ≤ 0x3B)) →
    step s = .next { s with port := rest, resp := s.resp ++ [0#32] }

/-- With no packet and no command in progress the block holds its state (`60_exceptions` R221; that a step then answers
the same state is the model's choice, log entry 5). -/
def Obligations.IdleBlockHoldsItsState : Prop :=
  ∀ s : State, s.inFlight = none → s.port = [] → step s = .next s

/-- While `INITED` is 0 only `NOP`, `INIT` and `RDREG` execute; every other command is ignored with response 0
(`30_encoding` R87). -/
def Obligations.CommandsBeforeInitAreIgnored : Prop :=
  ∀ (i : Instr) (s : State), s.inited = false → i ≠ .nop → (∀ p v, i ≠ .init p v) → (∀ n, i ≠ .rdreg n) →
    exec i s = .next { s with resp := s.resp ++ [0#32] }

/-- Each accepted packet gets exactly one response word, when its command completes; a `PROCESS` that waits has given
none yet and gives one when it is done (`30_encoding` R84, R86; `20_memory` R68). -/
def Obligations.OneResponsePerCompletedCommand : Prop :=
  (∀ (s t : State) (p : Packet) (rest : List Packet), s.inFlight = none → s.port = p :: rest → step s = .next t →
    t.port = rest ∧
      ((t.inFlight = none ∧ ∃ r, t.resp = s.resp ++ [r]) ∨
        (t.inFlight ≠ none ∧ t.resp = s.resp ∧ ∃ n b, decode p = .ok (.process n b)))) ∧
  (∀ (s t : State) (b : Block), s.inFlight = some b → step s = .next t →
    t.port = s.port ∧
      ((t.inFlight = none ∧ t.resp = s.resp ++ [0#32]) ∨ (t.inFlight ≠ none ∧ t.resp = s.resp)))

/-! ### System commands -/

/-- `NOP` (`44_system` R200). -/
def Obligations.NopOnlyAnswersZero : Prop :=
  ∀ s : State, exec .nop s = .next { s with resp := s.resp ++ [0#32] }

/-- `INIT` establishes the whole default state from any state, whatever its operands (`44_system` R201); the streams and
the configuration stay. -/
def Obligations.InitEstablishesTheDefaultState : Prop :=
  ∀ (s : State) (platformId apiVersion : Word), ∃ t, exec (.init platformId apiVersion) s = .next t ∧
    (∀ a, t.memRead a = 0x00000000#32) ∧ t.cursor = 0 ∧ t.statusWord = 0x00000001#32 ∧
    t = { s with
      inited := true, resetPend := false, buf := t.buf, dlW := t.dlW,
      exfA := 0x3F600000#32, exfZ := 0x00000000#32, lfoPhi := 0x00000000#32, lfoF0 := 0x00000000#32,
      attackMs := 0x41200000#32, dampBase := 0x3F000000#32, burst := 0#32, modCur := 0x00000000#32,
      modPrev := 0x00000000#32, lastSig := 0x00000000#32, freq := 0x43DC0000#32, modDepth := 0x00000000#32,
      modCfg := 0#3, phOfs := 0x00000000#32, resp := s.resp ++ [0#32] }

/-- `RDREG` answers the register its operand numbers, and 0 for a number that names none; before `INIT` everything but
the two constants is masked. It changes nothing (`44_system` R202). -/
def Obligations.RdregAnswersTheNumberedRegister : Prop :=
  ∀ (s : State) (n : Word), exec (.rdreg n) s = .next { s with resp := s.resp ++ [
    if s.inited then
      if n = 0x00#32 then
        ((BitVec.ofBool (decide (0 < s.burst.toNat)) ++ BitVec.ofBool s.resetPend) ++ 1#1).zeroExtend 32
      else if n = 0x01#32 then BitVec.ofNat 32 s.cursor
      else if n = 0x02#32 then s.exfA
      else if n = 0x03#32 then s.exfZ
      else if n = 0x04#32 then s.lfoPhi
      else if n = 0x05#32 then s.lfoF0
      else if n = 0x06#32 then s.attackMs
      else if n = 0x07#32 then s.dampBase
      else if n = 0x08#32 then s.burst
      else if n = 0x09#32 then s.modCur
      else if n = 0x0A#32 then s.modPrev
      else if n = 0x0B#32 then s.lastSig
      else if n = 0x0C#32 then s.freq
      else if n = 0x0D#32 then s.modDepth
      else if n = 0x0E#32 then s.modCfg.zeroExtend 32
      else if n = 0x0F#32 then s.phOfs
      else if n = 0x10#32 then BitVec.ofNat 32 (2 ^ s.cfg.log2c)
      else if n = 0x11#32 then s.cfg.fs
      else 0#32
    else if n = 0x10#32 then BitVec.ofNat 32 (2 ^ s.cfg.log2c)
    else if n = 0x11#32 then s.cfg.fs
    else 0#32] }

/-- After power-on `INITED` is 0, OUT is empty and no command is in progress (`70_reset_and_hazards` R230). -/
def Obligations.PowerOnState : Prop :=
  State.reset.inited = false ∧ State.reset.out = [] ∧ State.reset.inFlight = none ∧
  (∀ i, i ≠ .nop → (∀ p v, i ≠ .init p v) → (∀ n, i ≠ .rdreg n) →
    exec i State.reset = .next { State.reset with resp := [0#32] })

/-! ### The voice: parameters and notes -/

/-- `PARAM` index 0 writes `1 - clamp(value)` to `DAMP_BASE`, and the result is within its range for every value, a NaN
among them (`43_voice` R164; the range is `10_state` R29). -/
def Obligations.ParamShapeSetsTheDamping : Prop :=
  ∀ (s : State) (v : Word), s.inited = true →
    (∃ n, exec (.param 0#32 v) s = .next { s with
      dampBase := fsub s.draws one (clamp Config.eps v Config.oneMEps), resp := s.resp ++ [0#32], draws := n }) ∧
    within dampLow (fsub s.draws one (clamp Config.eps v Config.oneMEps)) Config.oneMEps = true

/-- `PARAM` index 1 writes the clamped cubic warp to `EXF_A` (`43_voice` R165). -/
def Obligations.ParamShiftShapeSetsThePole : Prop :=
  ∀ (s : State) (v : Word), s.inited = true → ∃ d0 d1 d2 d3 n,
    exec (.param 1#32 v) s = .next { s with
      exfA := clamp Config.eps (fsub d3 one (fmul d2 (fmul d1 (fsub d0 one v) (fsub d0 one v)) (fsub d0 one v)))
        Config.oneMEps
      resp := s.resp ++ [0#32]
      draws := n }

/-- `PARAM` index 2 writes the clamped attack time (`43_voice` R166). -/
def Obligations.ParamAttackSetsTheAttackTime : Prop :=
  ∀ (s : State) (v : Word), s.inited = true → ∃ n, exec (.param 2#32 v) s = .next { s with
    attackMs := clamp zero v s.cfg.attackMaxMs, resp := s.resp ++ [0#32], draws := n }

/-- `PARAM` indices 3, 4 and 5 write the modulation source registers (`43_voice` R167). -/
def Obligations.ParamModulationRegisters : Prop :=
  ∀ (s : State) (v : Word), s.inited = true →
    (∃ n, exec (.param 3#32 v) s = .next { s with
      modDepth := clamp zero v one, resp := s.resp ++ [0#32], draws := n }) ∧
    (∃ n, exec (.param 4#32 v) s = .next { s with
      modCfg := v.extractLsb' 0 3, resp := s.resp ++ [0#32], draws := n }) ∧
    (∃ n, exec (.param 5#32 v) s = .next { s with
      phOfs := clamp zero v Config.phiMax, resp := s.resp ++ [0#32], draws := n })

/-- `PARAM` with any index from 6 on changes nothing (`43_voice` R162). -/
def Obligations.ParamUnknownIndexIsIgnored : Prop :=
  ∀ (s : State) (k v : Word), s.inited = true → 6 ≤ k.toNat → ∃ n,
    exec (.param k v) s = .next { s with resp := s.resp ++ [0#32], draws := n }

/-- `NOTE_ON` writes the pitch, the burst length and the pending flag, and nothing else (`43_voice` R168). -/
def Obligations.NoteOnStartsABurst : Prop :=
  ∀ (s : State) (hz : Word), s.inited = true → ∃ d n, exec (.noteOn hz) s = .next { s with
    freq := hz, burst := roundU32 (fmul d s.attackMs (fdiv 0 s.cfg.fs thousand)), resetPend := true,
    resp := s.resp ++ [0#32], draws := n }

/-- In a sound state the burst a `NOTE_ON` sets is the binary32 attack time in samples, rounded half up (`43_voice`
R168, `00_scope` R8). The saturation bound stays in the statement: a product below `2^32 - 1` can round to `2^32`
(log entry 20). -/
def Obligations.NoteOnBurstIsTheRoundedAttackTime : Prop :=
  ∀ (s t : State) (hz : Word), Invariant s → s.inited = true → exec (.noteOn hz) s = .next t →
    (t.burst.toNat : ℤ) = min ⌊toRat (fmul s.draws s.attackMs (fdiv 0 s.cfg.fs thousand)) + 1 / 2⌋ (2 ^ 32 - 1)

/-- `NOTE_OFF` changes nothing (`43_voice` R169). -/
def Obligations.NoteOffChangesNothing : Prop :=
  ∀ s : State, s.inited = true → exec .noteOff s = .next { s with resp := s.resp ++ [0#32] }

/-- `PITCH` writes the pitch as given, and nothing else (`43_voice` R170). -/
def Obligations.PitchWritesTheFrequency : Prop :=
  ∀ (s : State) (hz : Word), s.inited = true →
    exec (.pitch hz) s = .next { s with freq := hz, resp := s.resp ++ [0#32] }

/-! ### The voice: blocks -/

/-- `PROCESS` with no frames does nothing at all (`43_voice` R171 (a)). -/
def Obligations.ProcessWithoutFramesIsNoOperation : Prop :=
  ∀ (s : State) (target : Word), s.inited = true →
    exec (.process 0#32 target) s = .next { s with resp := s.resp ++ [0#32] }

/-- One sample in the state Idle, a reset pending or not, in every modulation source: the line is cleared first where a
reset is pending, then read, damp, clip, write, push, remember (`43_voice` R171 (b), R172 to R176, R179, R180). The draws
of NaNs are left free (`00_scope` R7). -/
def Obligations.ProcessOneIdleSample : Prop :=
  ∀ (s : State) (host : Word), s.inited = true → s.burst = 0#32 →
    ∃ d : ℕ → ℕ → ℕ, ∃ l sig y n,
      l = lineAtStart s ∧
      sig = poleRule (d 0) (clamp Config.eps (fadd (d 1 0) s.dampBase s.modCur) Config.oneMEps)
        (readRule (d 2) l (clamp two (fdiv (d 3 0) s.cfg.fs s.freq) (u2f (2 ^ s.cfg.log2c)))) s.lastSig ∧
      y = fdiv (d 4 0) sig (fadd (d 4 1) one (fmul (d 4 2) (fabs sig) s.cfg.kClip)) ∧
      exec (.process 1#32 host) s = .next { s with
        resetPend := false, modPrev := s.modCur, modCur := targetRule (d 5) s host, lastSig := sig,
        buf := bufWrite l.buf l.cursor y, dlW := BitVec.ofNat 32 ((l.cursor + 1) % s.capacity),
        lfoPhi := if s.modCfg.getLsbD 0 then advanceRule (d 6) s.lfoPhi s.lfoF0 else s.lfoPhi,
        out := s.out ++ [y, y], resp := s.resp ++ [0#32], draws := n }

/-- One sample in the state Exciting, a reset pending or not, in every modulation source: the line is cleared first where
a reset is pending; one noise word is popped, filtered and added; the burst counter goes down (`43_voice` R171 (b), R172
to R180). -/
def Obligations.ProcessOneExcitedSampleAfterNoteOn : Prop :=
  ∀ (s : State) (host w : Word) (rest : List Word), s.inited = true → 0 < s.burst.toNat → s.noise = w :: rest →
    ∃ d : ℕ → ℕ → ℕ, ∃ l e sig y n,
      l = lineAtStart s ∧
      e = poleRule (d 7) s.exfA w s.exfZ ∧
      sig = fadd (d 8 0) (poleRule (d 0) (clamp Config.eps (fadd (d 1 0) s.dampBase s.modCur) Config.oneMEps)
        (readRule (d 2) l (clamp two (fdiv (d 3 0) s.cfg.fs s.freq) (u2f (2 ^ s.cfg.log2c)))) s.lastSig) e ∧
      y = fdiv (d 4 0) sig (fadd (d 4 1) one (fmul (d 4 2) (fabs sig) s.cfg.kClip)) ∧
      exec (.process 1#32 host) s = .next { s with
        resetPend := false, modPrev := s.modCur, modCur := targetRule (d 5) s host, lastSig := sig, exfZ := e,
        burst := s.burst - 1#32, noise := rest,
        buf := bufWrite l.buf l.cursor y, dlW := BitVec.ofNat 32 ((l.cursor + 1) % s.capacity),
        lfoPhi := if s.modCfg.getLsbD 0 then advanceRule (d 6) s.lfoPhi s.lfoF0 else s.lfoPhi,
        out := s.out ++ [y, y], resp := s.resp ++ [0#32], draws := n }

/-- A `PROCESS` whose noise words are all there completes: the block runs through all its samples as `SamplesFollow` says,
and the last state with the response is the end. The clauses after that read off it the words pushed, each the soft clip
of its sample's signal, and the counters, the streams, the line and the registers at the end of the block (`43_voice`
R181, R171 to R180; `20_memory` R66, R68). -/
def Obligations.ProcessCompletesTheBlock : Prop :=
  ∀ (s : State) (frames host : Word), s.inited = true → s.inFlight = none → s.cfg.WellFormed →
    Memory.wf s.buf = true → 0 < frames.toNat → min s.burst.toNat frames.toNat ≤ s.noise.length →
    ∃ (t : State) (ys : List Word) (d : ℕ → ℕ → ℕ) (u : ℕ → State) (v : ℕ → Word) (length target inc : Word),
      exec (.process frames host) s = .next t ∧
      SamplesFollow s frames.toNat host frames.toNat d u v length target inc ∧
      t = { u frames.toNat with resp := s.resp ++ [0#32] } ∧
      (∀ j < frames.toNat, ∃ e, ys.getD j 0#32 = clipRule e s.cfg.kClip (u (j + 1)).lastSig) ∧
      StreamsDone s t frames.toNat ys ∧ LineDone s t frames.toNat ys ∧
      t.inFlight = none ∧ t.resp = s.resp ++ [0#32] ∧ t.resetPend = false ∧
      t.modPrev = s.modCur ∧ t.modCur = target ∧
      t.lfoPhi = (if s.modCfg.getLsbD 0 then
        (List.range frames.toNat).foldl (fun p j => advanceRule (d (j + 3)) p s.lfoF0) s.lfoPhi else s.lfoPhi) ∧
      (s.burst.toNat = 0 → t.exfZ = s.exfZ) ∧
      t = { s with
        buf := t.buf, dlW := t.dlW, exfZ := t.exfZ, lfoPhi := t.lfoPhi, burst := t.burst, modCur := t.modCur,
        modPrev := t.modPrev, lastSig := t.lastSig, resetPend := t.resetPend, out := t.out, noise := t.noise,
        resp := t.resp, draws := t.draws }

/-- A `PROCESS` whose noise runs out waits: the samples before the missing word are done, each from the one before as in a
block that completes, and their words are pushed; the block's temporaries are those of the sample it waits in; no
response is given (`20_memory` R68, `70_reset_and_hazards` R237, `43_voice` R171 to R180; that the samples done are
visible, and that the waiting sample has had no effect, is log entry 10). -/
def Obligations.ProcessWaitsForAMissingNoiseWord : Prop :=
  ∀ (s : State) (frames host : Word), s.inited = true → s.inFlight = none →
    s.noise.length < min s.burst.toNat frames.toNat →
    ∃ (t : State) (ys : List Word) (d : ℕ → ℕ → ℕ) (u : ℕ → State) (v : ℕ → Word) (length target inc : Word),
      exec (.process frames host) s = .next t ∧
      SamplesFollow s frames.toNat host s.noise.length d u v length target inc ∧
      t = { u s.noise.length with
        inFlight := some ⟨length, inc, v s.noise.length, s.noise.length, frames.toNat⟩ } ∧
      (∀ j < s.noise.length, ∃ e, ys.getD j 0#32 = clipRule e s.cfg.kClip (u (j + 1)).lastSig) ∧
      StreamsDone s t s.noise.length ys ∧
      (s.cfg.WellFormed → Memory.wf s.buf = true → LineDone s t s.noise.length ys) ∧
      t.noise = [] ∧ t.resp = s.resp ∧ t.port = s.port ∧ t.resetPend = false ∧
      t.modPrev = s.modCur ∧ t.modCur = target ∧
      t.lfoPhi = (if s.modCfg.getLsbD 0 then
        (List.range s.noise.length).foldl (fun p j => advanceRule (d (j + 3)) p s.lfoF0) s.lfoPhi else s.lfoPhi) ∧
      t = { s with
        buf := t.buf, dlW := t.dlW, exfZ := t.exfZ, lfoPhi := t.lfoPhi, burst := t.burst, modCur := t.modCur,
        modPrev := t.modPrev, lastSig := t.lastSig, resetPend := t.resetPend, inFlight := t.inFlight, out := t.out,
        noise := t.noise, draws := t.draws }

/-- While the word is missing the block is stuck: a step answers the same state and accepts no packet
(`70_reset_and_hazards` R237; stuck as a step to the same state is log entry 10). -/
def Obligations.WaitingBlockIsStuckWithoutNoise : Prop :=
  ∀ (s : State) (b : Block), s.inFlight = some b → b.j < b.frames → 0 < s.burst.toNat → s.noise = [] →
    step s = .next s

/-- Noise that arrives late changes nothing but the time: a `PROCESS` that waited and is then given the words `ws` ends
in the state it would have reached had the words been there (`20_memory` R68, R69; `70_reset_and_hazards` R237). -/
def Obligations.LateNoiseGivesTheSameBlock : Prop :=
  ∀ (s t : State) (frames target : Word) (ws : List Word), s.inFlight = none →
    exec (.process frames target) s = .next t → t.inFlight ≠ none →
    step { t with noise := ws } = exec (.process frames target) { s with noise := s.noise ++ ws }

/-- The string length of a block is within `[2, C]` for every pitch, zero, negative, infinite and NaN among them
(`43_voice` R172), and its damping is strictly inside (0,1) for every ramp value (R175). -/
def Obligations.LengthAndDampingAreAlwaysLegal : Prop :=
  ∀ (s : State) (d : ℕ) (v : Word), s.cfg.WellFormed →
    within two (s.stringLength d) (u2f s.capacity) = true ∧
    within Config.eps (s.damping d v) Config.oneMEps = true

/-- The soft clip is odd, bit for bit, on every finite value (`43_voice` R163). -/
def Obligations.SoftClipIsOdd : Prop :=
  ∀ (d : ℕ) (k x : Word), isFinite x = true → isFinite k = true → flt zero k = true →
    softClip d k (x ^^^ 0x80000000#32) = softClip d k x ^^^ 0x80000000#32

/-- With the default knee the soft clip of every finite value is finite and below 20.000005 in magnitude
(`43_voice` R163). -/
def Obligations.SoftClipIsBounded : Prop :=
  ∀ (d : ℕ) (x : Word), isFinite x = true →
    isFinite (softClip d 0x3D4CCCCD#32 x) = true ∧ |toRat (softClip d 0x3D4CCCCD#32 x)| < 20000005 / 1000000

/-- With noise words in `[-1, 1]` every block keeps the voice bounded, whatever its target, pitch and parameters, and
every word it pushes is finite and below 20.000005 in magnitude; `INIT` establishes the regime (`43_voice` R182 (b), for
the default knee). -/
def Obligations.TameNoiseKeepsTheOutputBounded : Prop :=
  (∀ (s t : State) (frames target : Word), Invariant s → s.inited = true → Bounded s →
    exec (.process frames target) s = .next t →
    Bounded t ∧ ∃ ws, t.out = s.out ++ ws ∧
      ∀ w ∈ ws, isFinite w = true ∧ |toRat w| < 20000005 / 1000000) ∧
  ∀ (s t : State) (p v : Word), s.cfg.kClip = 0x3D4CCCCD#32 → tameNoise s = true → exec (.init p v) s = .next t → Bounded t

/-- One block is two blocks with the same samples, where the ramp is flat, the source is the host and no reset is pending
(`43_voice` R181); in the bounded regime with the default knee, so that no sample is a NaN, whose payload would be free
(`00_scope` R7 (c)). The responses and the model's draw counter apart, the states at the end are equal. -/
def Obligations.FlatBlocksCanBeSplit : Prop :=
  ∀ (s t : State) (a b target : Word), Invariant s → s.inited = true → Bounded s → s.inFlight = none →
    s.resetPend = false → s.internalSource = false → target = s.modCur → isFinite target = true →
    0 < a.toNat → 0 < b.toNat → a.toNat + b.toNat < 2 ^ 32 →
    min s.burst.toNat (a.toNat + b.toNat) ≤ s.noise.length → exec (.process a target) s = .next t →
    ∃ u v, exec (.process b target) t = .next u ∧ exec (.process (a + b) target) s = .next v ∧
      { u with resp := v.resp, draws := v.draws } = v

/-! ### Delay line -/

/-- `DL.WRITE` stores the operand bit for bit at the cursor and advances the cursor modulo `C`; every other word and
every register is as before (`40_delay_line` R101). -/
def Obligations.DlWriteStoresAndAdvances : Prop :=
  ∀ (s : State) (x : Word), s.inited = true → s.cfg.WellFormed → Memory.wf s.buf = true →
    ∃ t, exec (.dlWrite x) s = .next t ∧ t.memRead s.cursor = x ∧
      (∀ a, a ≠ s.cursor → t.memRead a = s.memRead a) ∧ t.cursor = (s.cursor + 1) % s.capacity ∧
      t = { s with buf := t.buf, dlW := t.dlW, resp := s.resp ++ [0#32] }

/-- `DL.READX` answers the word at `(DL_W - (k mod C)) mod C` for every u32 offset and changes nothing
(`40_delay_line` R102, R103). -/
def Obligations.DlReadxAnswersTheWrappedSlot : Prop :=
  ∀ (s : State) (k : Word), s.inited = true →
    ∃ a : ℕ, a < s.capacity ∧ (a : ℤ) = ((s.cursor : ℤ) - (k.toNat % s.capacity : ℕ)) % s.capacity ∧
      exec (.dlReadx k) s = .next { s with resp := s.resp ++ [s.memRead a] }

/-- `DL.READF` interpolates linearly between the two slots around the clamped delay and changes nothing
(`40_delay_line` R104). -/
def Obligations.DlReadfInterpolates : Prop :=
  ∀ (s : State) (x : Word), s.inited = true → ∃ (d : ℕ → ℕ) (n : ℕ) (dl : Word) (i : ℕ),
    dl = clamp zero x (u2f s.capacity) ∧ i = floorI dl ∧
    exec (.dlReadf x) s = .next { s with
      resp := s.resp ++ [fadd (d 0) (s.memRead (s.slot i))
        (fmul (d 1) (fsub (d 2) dl (u2f i)) (fsub (d 3) (s.memRead (s.slot (i + 1))) (s.memRead (s.slot i))))]
      draws := n }

/-- `DL.CLEAR` zeroes every word and the cursor and touches no register else (`40_delay_line` R105). -/
def Obligations.DlClearZeroesTheLine : Prop :=
  ∀ s : State, s.inited = true → ∃ t, exec .dlClear s = .next t ∧ (∀ a, t.memRead a = 0x00000000#32) ∧
    t.cursor = 0 ∧ t = { s with buf := t.buf, dlW := t.dlW, resp := s.resp ++ [0#32] }

/-- After a clear every exact and every fractional read answers `+0.0`, whatever its operand (`40_delay_line` R106 (a)). -/
def Obligations.ClearedLineReadsZero : Prop :=
  ∀ (s t : State), s.inited = true → s.cfg.WellFormed → exec .dlClear s = .next t →
    ∀ x : Word,
      exec (.dlReadx x) t = .next { t with resp := t.resp ++ [0x00000000#32] } ∧
      ∃ n, exec (.dlReadf x) t = .next { t with resp := t.resp ++ [0x00000000#32], draws := n }

/-- A fractional read at an integer delay answers the value of the sample at that offset, where the two samples are
finite and their difference does not overflow (`40_delay_line` R104, R106 (b)). -/
def Obligations.IntegerDelayReadsTheSample : Prop :=
  ∀ (s : State) (k d : ℕ), s.cfg.WellFormed → k ≤ s.capacity →
    isFinite (s.memRead (s.slot k)) = true → isFinite (s.memRead (s.slot (k + 1))) = true →
    isFinite (fsub (d + 1) (s.memRead (s.slot (k + 1))) (s.memRead (s.slot k))) = true →
    toRat (s.readFrac d (u2f k)) = toRat (s.memRead (s.slot k))

/-- The line holds the most recent `C` samples: after a clear and the writes of `xs`, the slot at offset `k` holds the
`k`-th most recent one, and the slots not written yet hold `+0.0` (`20_memory` R72). -/
def Obligations.LineHoldsTheMostRecentSamples : Prop :=
  ∀ (s : State) (xs : List Word), s.inited = true → s.inFlight = none → s.cfg.WellFormed →
    s.port = encode .dlClear :: xs.map (fun x => encode (.dlWrite x)) →
    ∃ t : State, Host.Core.run Sys2Proof.core (xs.length + 1) s = .next t ∧ t.port = [] ∧
      ∀ k, 1 ≤ k → k ≤ s.capacity →
        t.memRead (t.slot k) = if k ≤ xs.length then xs.getD (xs.length - k) 0#32 else 0x00000000#32

/-! ### One-pole filter -/

/-- `OP.SETC` writes the clamped coefficient, strictly inside (0,1) for every operand (`41_one_pole` R121). -/
def Obligations.OpSetcClampsTheCoefficient : Prop :=
  ∀ (s : State) (c : Word), s.inited = true →
    exec (.opSetc c) s = .next { s with exfA := clamp Config.eps c Config.oneMEps, resp := s.resp ++ [0#32] } ∧
    within Config.eps (clamp Config.eps c Config.oneMEps) Config.oneMEps = true

/-- `OP.PROC` applies `a·x + (1 - a)·z`, keeps the result in `EXF_Z` and answers it (`41_one_pole` R120, R122). -/
def Obligations.OpProcFiltersTheSample : Prop :=
  ∀ (s : State) (x : Word), s.inited = true → ∃ (d : ℕ → ℕ) (n : ℕ) (z : Word),
    z = fadd (d 3) (fmul (d 0) s.exfA x) (fmul (d 2) (fsub (d 1) one s.exfA) s.exfZ) ∧
    exec (.opProc x) s = .next { s with exfZ := z, resp := s.resp ++ [z], draws := n }

/-! ### LFO -/

/-- `LFO.SETF` writes the product clamped into `[0, 0.5]` (`42_lfo` R131). -/
def Obligations.LfoSetfClampsTheProduct : Prop :=
  ∀ (s : State) (hz r : Word), s.inited = true → ∃ d n,
    exec (.lfoSetf hz r) s = .next { s with
      lfoF0 := clamp zero (fmul d hz r) half, resp := s.resp ++ [0#32], draws := n } ∧
    within zero (clamp zero (fmul d hz r) half) half = true

/-- `LFO.RESET` zeroes the phase and nothing else (`42_lfo` R132). -/
def Obligations.LfoResetZeroesThePhase : Prop :=
  ∀ s : State, s.inited = true →
    exec .lfoReset s = .next { s with lfoPhi := 0x00000000#32, resp := s.resp ++ [0#32] }

/-- `LFO.ADV` adds `LFO_F0` to the phase and subtracts 1 where the sum has reached it (`42_lfo` R133). -/
def Obligations.LfoAdvAdvancesThePhase : Prop :=
  ∀ s : State, s.inited = true → ∃ d e n,
    exec .lfoAdv s = .next { s with
      lfoPhi := if fge (fadd d s.lfoPhi s.lfoF0) one then fsub e (fadd d s.lfoPhi s.lfoF0) one
        else fadd d s.lfoPhi s.lfoF0
      resp := s.resp ++ [0#32]
      draws := n }

/-- A phase advanced by at most half a cycle, or shifted by any offset, is a phase again: in `[0, 1)` and no NaN; an
offset of 0 leaves its value. The advanced phase is the sum with the step and the shifted phase the sum with the offset
clamped into `[0, PHI_MAX]`, each less 1.0 where it has reached it (`42_lfo` R133, R134). -/
def Obligations.PhasesStayPhases : Prop :=
  ∀ (d : ℕ) (p f o : Word), isPhase p = true → within zero f half = true →
    isPhase (wrapAdd d p f) = true ∧ isPhase (shiftPhase d p o) = true ∧ toRat (shiftPhase d p zero) = toRat p ∧
    (∃ e, wrapAdd d p f = advanceRule e p f) ∧
    (∃ a b q, q = fadd a p (clamp zero o Config.phiMax) ∧ shiftPhase d p o = if fge q one then fsub b q one else q)

/-- `LFO.SIN` answers a word that depends on the phase alone, finite and in `[-1, 1]`, within 2^-23 of the real sine, and
exact at the quadrants (`42_lfo` R137, R138); it changes nothing. R137 (ii) gives the value at phase 0.5 as 0 without a
sign; that it is `+0` here is the model's reading of vector S4 of `95_test_vectors` (DEDUCED, log entry 9). -/
def Obligations.LfoSinAnswersTheSine : Prop :=
  ∃ f : Word → Word,
    (∀ s : State, s.inited = true → exec .lfoSin s = .next { s with resp := s.resp ++ [f s.lfoPhi] }) ∧
    (∀ p, isPhase p = true → isFinite (f p) = true ∧ |toRat (f p)| ≤ 1 ∧
      |(toRat (f p) : ℝ) - Real.sin (2 * Real.pi * toRat p)| ≤ 1 / 2 ^ 23) ∧
    f 0x00000000#32 = 0x00000000#32 ∧ f 0x3E800000#32 = 0x3F800000#32 ∧ f 0x3F000000#32 = 0x00000000#32 ∧
    f 0x3F400000#32 = 0xBF800000#32

/-- `LFO.TRI`, `LFO.SAW` and `LFO.SQR` answer their piecewise-linear shapes at the phase and change nothing
(`42_lfo` R135, R136, R139 to R141). -/
def Obligations.LfoShapesAtThePhase : Prop :=
  ∀ s : State, s.inited = true →
    (∃ d e n, exec .lfoTri s = .next { s with
      resp := s.resp ++ [if flt s.lfoPhi quarter then fmul d four s.lfoPhi
        else if flt s.lfoPhi threeQuarters then fsub e two (fmul d four s.lfoPhi)
        else fsub e (fmul d four s.lfoPhi) four]
      draws := n }) ∧
    (∃ d e n, exec .lfoSaw s = .next { s with
      resp := s.resp ++ [fsub e (fmul d two s.lfoPhi) one], draws := n }) ∧
    exec .lfoSqr s = .next { s with resp := s.resp ++ [if flt s.lfoPhi half then one else negOne] }

/-- At a phase the triangle and the sawtooth have the exact value of their formula, up to the one rounding of the
sawtooth's difference, and all shapes lie in `[-1, 1]` (`42_lfo` R136). -/
def Obligations.LfoShapesAreBipolar : Prop :=
  ∀ (d : ℕ) (p : Word), isPhase p = true →
    within negOne (triWave d p) one = true ∧ within negOne (sawWave d p) one = true ∧
    within negOne (sqrWave p) one = true ∧
    toRat (triWave d p) = (if toRat p < 1 / 4 then 4 * toRat p
      else if toRat p < 3 / 4 then 2 - 4 * toRat p else 4 * toRat p - 4) ∧
    IsNearestEven (2 * toRat p - 1) (sawWave d p)

/-- The offset variants answer the waveform at the shifted phase `p`, that is the sum of `LFO_PHI` and the offset clamped
into `[0, PHI_MAX]`, less 1.0 where it has reached it, and change nothing; the answer of `LFO.SINO` is the one `LFO.SIN`
gives at `p` (`42_lfo` R134, R136, R137, R142 to R145, R146 (a)). -/
def Obligations.LfoOffsetVariantsShiftThePhase : Prop :=
  ∀ (s : State) (o : Word), s.inited = true →
    (∃ a b n q p, q = fadd a s.lfoPhi (clamp zero o Config.phiMax) ∧ p = (if fge q one then fsub b q one else q) ∧
      exec (.lfoSino o) s = .next { s with resp := s.resp ++ [Config.sin2pi.fn p], draws := n } ∧
      exec .lfoSin { s with lfoPhi := p } =
        .next { s with lfoPhi := p, resp := s.resp ++ [Config.sin2pi.fn p] }) ∧
    (∃ a b d n q p, q = fadd a s.lfoPhi (clamp zero o Config.phiMax) ∧ p = (if fge q one then fsub b q one else q) ∧
      exec (.lfoTrio o) s = .next { s with resp := s.resp ++ [waveRule d 1#2 p], draws := n }) ∧
    (∃ a b d n q p, q = fadd a s.lfoPhi (clamp zero o Config.phiMax) ∧ p = (if fge q one then fsub b q one else q) ∧
      exec (.lfoSawo o) s = .next { s with resp := s.resp ++ [waveRule d 2#2 p], draws := n }) ∧
    (∃ a b d n q p, q = fadd a s.lfoPhi (clamp zero o Config.phiMax) ∧ p = (if fge q one then fsub b q one else q) ∧
      exec (.lfoSqro o) s = .next { s with resp := s.resp ++ [waveRule d 3#2 p], draws := n })

/-! ### The whole machine -/

/-- Every step keeps the invariants of `10_state` R41 together with the canonical form of the buffer. -/
def Obligations.EveryStepKeepsTheInvariant : Prop :=
  ∀ s t : State, Invariant s → step s = .next t → Invariant t

/-- The state after power-on meets the invariant. -/
def Obligations.PowerOnMeetsTheInvariant : Prop := Invariant State.reset

/-- No command raises anything and no step stops (`60_exceptions` R210). -/
def Obligations.NoStepEverStops : Prop :=
  (∀ (i : Instr) (s : State), ∃ t, exec i s = .next t) ∧ ∀ s : State, ∃ t, step s = .next t

/-- Whatever a step does, OUT and the responses only grow, NOISE and the port are only taken from at the front, at most
one packet is accepted, the configuration stays, and `INITED` never closes (`20_memory` R66, R68, R69; `30_encoding` R86;
`00_scope` R4; `60_exceptions` R216). -/
def Obligations.StreamsAreFirstInFirstOut : Prop :=
  ∀ s t : State, step s = .next t →
    (∃ ws, t.out = s.out ++ ws) ∧ (∃ rs, t.resp = s.resp ++ rs ∧ rs.length ≤ 1) ∧
    (∃ ws, s.noise = ws ++ t.noise) ∧ (∃ ps, s.port = ps ++ t.port ∧ ps.length ≤ 1) ∧
    t.cfg = s.cfg ∧ (s.inited = true → t.inited = true)

/-- Which command writes which state: everything outside a command's column of the writer matrix is as before
(`10_state` R43, R24). -/
def Obligations.OnlyTheListedCommandsWrite : Prop :=
  ∀ (i : Instr) (s t : State), exec i s = .next t →
    (i.opcode ∉ [0x01#32, 0x06#32, 0x10#32, 0x13#32] → t.buf = s.buf ∧ t.dlW = s.dlW) ∧
    (i.opcode ∉ [0x01#32, 0x20#32] → (∀ v, i ≠ .param 1#32 v) → t.exfA = s.exfA) ∧
    (i.opcode ∉ [0x01#32, 0x06#32, 0x21#32] → t.exfZ = s.exfZ) ∧
    (i.opcode ∉ [0x01#32, 0x06#32, 0x31#32, 0x32#32] → t.lfoPhi = s.lfoPhi) ∧
    (i.opcode = 0x06#32 → s.internalSource = false → t.lfoPhi = s.lfoPhi) ∧
    (i.opcode ∉ [0x01#32, 0x30#32] → t.lfoF0 = s.lfoF0) ∧
    (i.opcode ≠ 0x01#32 → (∀ v, i ≠ .param 2#32 v) → t.attackMs = s.attackMs) ∧
    (i.opcode ≠ 0x01#32 → (∀ v, i ≠ .param 0#32 v) → t.dampBase = s.dampBase) ∧
    (i.opcode ∉ [0x01#32, 0x03#32, 0x06#32] → t.burst = s.burst ∧ t.resetPend = s.resetPend) ∧
    (i.opcode ∉ [0x01#32, 0x06#32] → t.modCur = s.modCur ∧ t.modPrev = s.modPrev ∧ t.lastSig = s.lastSig) ∧
    (i.opcode ∉ [0x01#32, 0x03#32, 0x05#32] → t.freq = s.freq) ∧
    (i.opcode ≠ 0x01#32 → (∀ v, i ≠ .param 3#32 v) → t.modDepth = s.modDepth) ∧
    (i.opcode ≠ 0x01#32 → (∀ v, i ≠ .param 4#32 v) → t.modCfg = s.modCfg) ∧
    (i.opcode ≠ 0x01#32 → (∀ v, i ≠ .param 5#32 v) → t.phOfs = s.phOfs) ∧
    (i.opcode ≠ 0x01#32 → t.inited = s.inited) ∧
    (i.opcode ≠ 0x06#32 → t.out = s.out ∧ t.noise = s.noise ∧ t.inFlight = s.inFlight)

/-- What the unspecified content holds after power-on is unobservable: two blocks that differ only in it answer the same
words for ever, and are the same once `INIT` has run (`70_reset_and_hazards` R230, R231; `30_encoding` R87; `44_system`
R202). -/
def Obligations.PowerOnContentIsUnobservable : Prop :=
  ∀ (n : ℕ) (s₁ s₂ t₁ t₂ : State), s₁.inited = false → s₂.inited = false → s₁.inFlight = none → s₂.inFlight = none →
    SameInterface s₁ s₂ →
    Host.Core.run Sys2Proof.core n s₁ = .next t₁ → Host.Core.run Sys2Proof.core n s₂ = .next t₂ →
    SameInterface t₁ t₂ ∧ t₁.inited = t₂.inited ∧ (t₁.inited = true → t₁ = t₂)

/-! ### Numerics -/

/-- The four primitives are correctly rounded, to nearest with ties to even, on all finite operands, division by zero
apart, and the sign of a product or quotient is the product of the signs, of a zero too (`00_scope` R5, R6, R7). The
overflow threshold and the signs are those of IEEE 754, which R5 relies on and does not reproduce (PRESUMED, log entry
21). -/
def Obligations.PrimitivesAreCorrectlyRounded : Prop :=
  ∀ (d : ℕ) (a b : Word), isFinite a = true → isFinite b = true →
    IsCorrectlyRounded (toRat a + toRat b) (fadd d a b) ∧ IsCorrectlyRounded (toRat a - toRat b) (fsub d a b) ∧
    IsCorrectlyRounded (toRat a * toRat b) (fmul d a b) ∧
    (toRat b ≠ 0 → IsCorrectlyRounded (toRat a / toRat b) (fdiv d a b)) ∧
    signBit (fmul d a b) = (signBit a != signBit b) ∧
    (toRat b ≠ 0 → signBit (fdiv d a b) = (signBit a != signBit b))

/-- The special operands. An operation with a NaN operand answers a NaN, and so do the invalid operations: `0/0` and
`inf/inf`, which R7 (b) names, and `inf - inf` and `inf * 0`, which are invalid by IEEE 754 (PRESUMED, log entry 21). The
operations with an infinite operand that are not invalid are those of IEEE 754 too (R7 (b) "follow IEEE rules"; PRESUMED,
log entry 21): a sum or difference with one infinity, or of two that do not cancel, is that infinity; a product with an
infinity, and an infinity over a finite value, is an infinity; a finite value over an infinity is a zero; a finite
non-zero over a zero is an infinity; the sign of each such product or quotient is the product of the signs
(`00_scope` R7 (b), (c)). -/
def Obligations.InvalidOperationsGiveNaN : Prop :=
  ∀ (d : ℕ) (a b : Word),
    (isNaN a = true ∨ isNaN b = true → isNaN (fadd d a b) = true ∧ isNaN (fsub d a b) = true ∧
      isNaN (fmul d a b) = true ∧ isNaN (fdiv d a b) = true) ∧
    (isInf a = true → isInf b = true → isNaN (fdiv d a b) = true ∧
      (signBit a ≠ signBit b → isNaN (fadd d a b) = true ∧ fsub d a b = a) ∧
      (signBit a = signBit b → isNaN (fsub d a b) = true ∧ fadd d a b = a)) ∧
    (isInf a = true → toRat b = 0 → isNaN (fmul d a b) = true ∧ isNaN (fmul d b a) = true) ∧
    (toRat a = 0 → toRat b = 0 → isNaN (fdiv d a b) = true) ∧
    (isInf a = true → isFinite b = true →
      fadd d a b = a ∧ fadd d b a = a ∧ fsub d a b = a ∧ fsub d b a = a ^^^ 0x80000000#32 ∧
      isInf (fdiv d a b) = true ∧ signBit (fdiv d a b) = (signBit a != signBit b) ∧
      isFinite (fdiv d b a) = true ∧ toRat (fdiv d b a) = 0 ∧ signBit (fdiv d b a) = (signBit b != signBit a)) ∧
    (isInf a = true → isInf b = true ∨ (isFinite b = true ∧ toRat b ≠ 0) →
      isInf (fmul d a b) = true ∧ isInf (fmul d b a) = true ∧
      signBit (fmul d a b) = (signBit a != signBit b) ∧ signBit (fmul d b a) = (signBit b != signBit a)) ∧
    (isFinite a = true → toRat a ≠ 0 → toRat b = 0 →
      isInf (fdiv d a b) = true ∧ signBit (fdiv d a b) = (signBit a != signBit b))

/-- The integer conversions: `u2f` is correctly rounded and exact up to 2^24, `floor_i` is the floor, `round_u32` rounds
half up and saturates (`00_scope` R8). -/
def Obligations.IntegerConversions : Prop :=
  (∀ n : ℕ, n < 2 ^ 32 → IsCorrectlyRounded n (u2f n)) ∧ (∀ n : ℕ, n ≤ 2 ^ 24 → toRat (u2f n) = n) ∧
  (∀ x : Word, isFinite x = true → 0 ≤ toRat x → (floorI x : ℤ) = ⌊toRat x⌋) ∧
  (∀ x : Word, isFinite x = true → 0 ≤ toRat x →
    ((roundU32 x).toNat : ℤ) = min ⌊toRat x + 1 / 2⌋ (2 ^ 32 - 1))

/-- The clamp: a NaN or a value below `lo` gives `lo`, a value above `hi` gives `hi`, any other is returned bit for bit,
a negative zero at `lo = +0` among them (`00_scope` R9). -/
def Obligations.ClampAnswersWithinItsBounds : Prop :=
  ∀ lo x hi : Word, fle lo hi = true →
    (isNaN x = true → clamp lo x hi = lo) ∧ (flt x lo = true → clamp lo x hi = lo) ∧
    (flt hi x = true → clamp lo x hi = hi) ∧
    (isNaN x = false → flt x lo = false → flt hi x = false → clamp lo x hi = x)
end

