-- ==== Sys2Proof/Laws/Binary32.lean ====
section
/-!
SUPPORT. Facts about the binary32 primitives: what a packed word is made of, the values of patterns, what rounding can
answer, when it is exact, and that it is monotone.
-/

namespace Sys2Proof.F32

/-! ### Words and their parts -/

theorem magBits_lt (w : Word) : magBits w < 2 ^ 31 := Nat.mod_lt _ (by norm_num)

theorem magBits_pack {s : Bool} {m : Nat} (hm : m < 2 ^ 31) : magBits (pack s m) = m := by
  cases s <;> simp only [magBits, pack, BitVec.toNat_ofNat, if_true, if_false, Bool.false_eq_true] <;> omega

theorem signBit_pack {s : Bool} {m : Nat} (hm : m < 2 ^ 31) : signBit (pack s m) = s := by
  cases s <;> simp only [signBit, pack, BitVec.toNat_ofNat, if_true, if_false, Bool.false_eq_true,
    decide_eq_true_eq, decide_eq_false_iff_not] <;> omega

/-- A word is its sign and its magnitude bits. -/
theorem pack_signBit_magBits (w : Word) : pack (signBit w) (magBits w) = w := by
  apply BitVec.eq_of_toNat_eq
  have hw := w.isLt
  simp only [pack, signBit, magBits, BitVec.toNat_ofNat, decide_eq_true_eq]
  split <;> omega

theorem ext_parts {v w : Word} (hs : signBit v = signBit w) (hm : magBits v = magBits w) : v = w := by
  rw [← pack_signBit_magBits v, ← pack_signBit_magBits w, hs, hm]

/-- A word is a NaN, an infinity, or finite. -/
theorem classify (w : Word) :
    (isNaN w = true ∧ isInf w = false ∧ isFinite w = false) ∨
    (isNaN w = false ∧ isInf w = true ∧ isFinite w = false) ∨
    (isNaN w = false ∧ isInf w = false ∧ isFinite w = true) := by
  simp only [isNaN, isInf, isFinite, decide_eq_true_eq, decide_eq_false_iff_not]
  omega

theorem isFinite_iff {w : Word} : isFinite w = true ↔ isNaN w = false ∧ isInf w = false := by
  rcases classify w with ⟨h1, h2, h3⟩ | ⟨h1, h2, h3⟩ | ⟨h1, h2, h3⟩ <;> simp [h1, h2, h3]

/-- Every draw is a NaN (R7 (c)). -/
@[simp] theorem isNaN_nan (t : Nat) : isNaN (nan t) = true := by
  have hp := (Config.nanPayload t).isLt
  unfold nan
  simp only [isNaN, decide_eq_true_eq]
  rw [magBits_pack] <;> simp only [infMag] <;> split <;> omega

theorem magBits_flipSign (a : Word) : magBits (flipSign a) = magBits a := by
  simp only [magBits, flipSign, BitVec.toNat_xor]
  rw [← Nat.and_two_pow_sub_one_eq_mod, ← Nat.and_two_pow_sub_one_eq_mod, Nat.and_xor_distrib_right]
  simp

theorem signBit_eq_testBit (a : Word) : signBit a = a.toNat.testBit 31 := by
  have ha := a.isLt
  rw [Nat.testBit_eq_decide_div_mod_eq]
  unfold signBit
  congr 1
  apply propext
  constructor <;> intro h <;> omega

theorem signBit_flipSign (a : Word) : signBit (flipSign a) = !signBit a := by
  rw [signBit_eq_testBit, signBit_eq_testBit, flipSign, BitVec.toNat_xor, Nat.testBit_xor,
    show (0x80000000#32).toNat.testBit 31 = true by decide]
  simp

theorem magBits_fabs (a : Word) : magBits (fabs a) = magBits a := by
  simp only [magBits, fabs, BitVec.toNat_and]
  rw [show (0x7FFFFFFF#32).toNat = 2 ^ 31 - 1 by decide, Nat.and_two_pow_sub_one_eq_mod, Nat.mod_mod]

theorem signBit_fabs (a : Word) : signBit (fabs a) = false := by
  rw [signBit_eq_testBit, fabs, BitVec.toNat_and, Nat.testBit_and,
    show (0x7FFFFFFF#32).toNat.testBit 31 = false by decide, Bool.and_false]

/-! ### Infinities -/

/-- The infinity of a sign is one, and has that sign. -/
@[simp] theorem isInf_pack_infMag (s : Bool) : isInf (pack s infMag) = true := by cases s <;> decide

@[simp] theorem signBit_pack_infMag (s : Bool) : signBit (pack s infMag) = s := by cases s <;> decide

/-- Inverting the sign keeps the kind of a word. -/
theorem isNaN_flipSign (a : Word) : isNaN (flipSign a) = isNaN a := by simp only [isNaN, magBits_flipSign]

theorem isInf_flipSign (a : Word) : isInf (flipSign a) = isInf a := by simp only [isInf, magBits_flipSign]

theorem isFinite_flipSign (a : Word) : isFinite (flipSign a) = isFinite a := by simp only [isFinite, magBits_flipSign]

/-! ### Rounding to an integer -/

/-- `divNearestEven` is one of the two neighbours of the quotient, and the nearer one. -/
theorem divNearestEven_spec {num den : Nat} (hd : 0 < den) :
    2 * num ≤ 2 * (divNearestEven num den * den) + den ∧ 2 * (divNearestEven num den * den) ≤ 2 * num + den := by
  have h1 := Nat.div_add_mod num den
  have h2 := Nat.mod_lt num hd
  unfold divNearestEven
  generalize num / den = q at *
  generalize num % den = r at *
  have hc : den * q = q * den := Nat.mul_comm _ _
  simp only
  split
  · constructor <;> omega
  · split
    · rw [Nat.add_mul]; constructor <;> omega
    · have h4 : 2 * r = den := by omega
      have h5 : (q + q % 2) * den = q * den + (q % 2) * den := Nat.add_mul _ _ _
      rcases Nat.mod_two_eq_zero_or_one q with h | h <;> rw [h] at h5 ⊢ <;> simp only [zero_mul, one_mul] at h5 <;>
        constructor <;> omega

theorem divNearestEven_of_dvd {num den : Nat} (h : num % den = 0) (hd : 0 < den) :
    divNearestEven num den = num / den := by
  simp [divNearestEven, h, hd]

theorem divNearestEven_le {num den : Nat} : num / den ≤ divNearestEven num den := by
  unfold divNearestEven; simp only; split
  · exact le_rfl
  · split <;> omega

theorem divNearestEven_le_succ {num den : Nat} : divNearestEven num den ≤ num / den + 1 := by
  unfold divNearestEven; simp only; split
  · omega
  · split
    · exact le_rfl
    · have := Nat.mod_lt (num / den) (show 2 > 0 by norm_num)
      omega

/-- Rounding to an integer is monotone. -/
theorem divNearestEven_mono {a b den : Nat} (h : a ≤ b) : divNearestEven a den ≤ divNearestEven b den := by
  rcases Nat.eq_zero_or_pos den with rfl | hd
  · simp only [divNearestEven, Nat.div_zero, Nat.mod_zero, Nat.not_lt_zero, if_false]
    split <;> split <;> omega
  rcases (Nat.div_le_div_right (c := den) h).lt_or_eq with hq | hq
  · exact divNearestEven_le_succ.trans (Nat.succ_le_of_lt hq |>.trans divNearestEven_le)
  · have h1 := Nat.div_add_mod a den
    have h2 := Nat.div_add_mod b den
    rw [hq] at h1
    unfold divNearestEven
    rw [hq]
    generalize b / den = q at *
    generalize a % den = r at *
    generalize b % den = r' at *
    have := Nat.mod_two_eq_zero_or_one q
    simp only
    split
    · split
      · exact le_rfl
      · split <;> omega
    · split
      · split
        · omega
        · split <;> omega
      · split
        · omega
        · split <;> omega

/-! ### The values of patterns -/

/-- The value of the pattern `e · 2^23 + m` with a significand `m` below 2^24, normal unless `e` is 0. -/
theorem magUnits_eq {e m : Nat} (hm : m < 2 ^ 24) (he : e = 0 ∨ 2 ^ 23 ≤ m) :
    magUnits (e * 2 ^ 23 + m) = m * 2 ^ e := by
  unfold magUnits
  split
  · have : e = 0 := by omega
    subst this; simp
  · have d1 : (e * 2 ^ 23 + m) / 2 ^ 23 - 1 = e := by omega
    have d2 : 2 ^ 23 + (e * 2 ^ 23 + m) % 2 ^ 23 = m := by omega
    rw [d1, d2]

/-- Every pattern is `e · 2^23 + m` with such a significand. -/
theorem pattern_cases (p : Nat) :
    ∃ e m, p = e * 2 ^ 23 + m ∧ m < 2 ^ 24 ∧ (e = 0 ∨ 2 ^ 23 ≤ m) := by
  by_cases h : p < 2 ^ 23
  · exact ⟨0, p, by omega, by omega, .inl rfl⟩
  · exact ⟨p / 2 ^ 23 - 1, 2 ^ 23 + p % 2 ^ 23, by omega, by omega, .inr (by omega)⟩

/-- The values of patterns rise with the patterns. -/
theorem magUnits_succ (p : Nat) : magUnits p < magUnits (p + 1) := by
  obtain ⟨e, m, rfl, hm, he⟩ := pattern_cases p
  rw [magUnits_eq hm he]
  by_cases hm' : m + 1 < 2 ^ 24
  · rw [Nat.add_assoc, magUnits_eq hm' (by omega)]
    exact Nat.mul_lt_mul_of_pos_right (by omega) (by positivity)
  · have : m + 1 = 2 ^ 24 := by omega
    rw [show e * 2 ^ 23 + m + 1 = (e + 1) * 2 ^ 23 + 2 ^ 23 by omega, magUnits_eq (by norm_num) (.inr le_rfl)]
    calc m * 2 ^ e < 2 ^ 24 * 2 ^ e := Nat.mul_lt_mul_of_pos_right hm (by positivity)
      _ = 2 ^ 23 * 2 ^ (e + 1) := by ring

theorem magUnits_strictMono : StrictMono magUnits := strictMono_nat_of_lt_succ magUnits_succ

theorem magUnits_le_iff {p q : Nat} : magUnits p ≤ magUnits q ↔ p ≤ q := magUnits_strictMono.le_iff_le

@[simp] theorem magUnits_zero : magUnits 0 = 0 := rfl

theorem magUnits_eq_zero {p : Nat} : magUnits p = 0 ↔ p = 0 :=
  ⟨fun h => magUnits_strictMono.injective (h.trans magUnits_zero.symm), fun h => by rw [h, magUnits_zero]⟩

/-- A value is zero exactly where its units are. -/
theorem toRat_eq_zero {a : Word} : toRat a = 0 ↔ units a = 0 := by
  unfold toRat signedUnits; split <;> simp

/-- A word of no units is a zero, of either sign. -/
theorem magBits_of_units {a : Word} (h : units a = 0) : magBits a = 0 := magUnits_eq_zero.mp h

/-! ### The order of values is the order of keys -/

theorem signedUnits_le_iff {a b : Word} : signedUnits a ≤ signedUnits b ↔ orderKey a ≤ orderKey b := by
  have h0 : ∀ p : Nat, (0 : ℤ) ≤ magUnits p := fun p => Int.natCast_nonneg _
  have hz : ∀ p : Nat, (magUnits p : ℤ) = 0 ↔ p = 0 := fun p => by
    rw [Int.natCast_eq_zero]; exact magUnits_eq_zero
  unfold signedUnits orderKey units
  generalize magBits a = p
  generalize magBits b = q
  have hpq := @magUnits_le_iff p q
  have hqp := @magUnits_le_iff q p
  have hp := h0 p
  have hq := h0 q
  have zp := hz p
  have zq := hz q
  zify at hpq hqp
  cases signBit a <;> cases signBit b <;> simp only [Bool.false_eq_true, if_true, if_false] <;> omega

theorem toRat_le_iff {a b : Word} : toRat a ≤ toRat b ↔ orderKey a ≤ orderKey b := by
  rw [← signedUnits_le_iff]
  unfold toRat
  rw [div_le_div_iff_of_pos_right (by positivity)]
  exact_mod_cast Iff.rfl

theorem toRat_lt_iff {a b : Word} : toRat a < toRat b ↔ orderKey a < orderKey b := by
  rw [← not_le, ← not_le, toRat_le_iff]

/-- A comparison of words that are no NaN compares their values. -/
theorem fle_iff {a b : Word} (ha : isNaN a = false) (hb : isNaN b = false) :
    fle a b = true ↔ toRat a ≤ toRat b := by
  simp [fle, ha, hb, toRat_le_iff]

theorem flt_iff {a b : Word} (ha : isNaN a = false) (hb : isNaN b = false) :
    flt a b = true ↔ toRat a < toRat b := by
  simp [flt, ha, hb, toRat_lt_iff]

theorem fle_not_nan {a b : Word} (h : fle a b = true) : isNaN a = false ∧ isNaN b = false := by
  simp only [fle, Bool.and_eq_true, Bool.not_eq_true'] at h; exact h.1

theorem flt_not_nan {a b : Word} (h : flt a b = true) : isNaN a = false ∧ isNaN b = false := by
  simp only [flt, Bool.and_eq_true, Bool.not_eq_true'] at h; exact h.1

/-! ### Rounding to a pattern -/

theorem roundMag_le (num den : Nat) : roundMag num den ≤ infMag := by
  unfold roundMag; exact min_le_right _ _

theorem roundMag_lt (num den : Nat) : roundMag num den < 2 ^ 31 :=
  lt_of_le_of_lt (roundMag_le num den) (by norm_num [infMag])

@[simp] theorem roundMag_zero (den : Nat) : roundMag 0 den = 0 := by
  unfold roundMag divNearestEven excess
  simp only [Nat.zero_div, Nat.log2_zero, Nat.zero_mod, Nat.mul_zero]
  rcases Nat.eq_zero_or_pos den with rfl | h
  · simp
  · simp [h]

/-- What a primitive's packed result is made of. -/
theorem magBits_pack_roundMag (s : Bool) (num den : Nat) : magBits (pack s (roundMag num den)) = roundMag num den :=
  magBits_pack (roundMag_lt _ _)

theorem signBit_pack_roundMag (s : Bool) (num den : Nat) : signBit (pack s (roundMag num den)) = s :=
  signBit_pack (roundMag_lt _ _)

/-- A rounded result is never a NaN. -/
theorem isNaN_pack_roundMag (s : Bool) (num den : Nat) : isNaN (pack s (roundMag num den)) = false := by
  simp only [isNaN, magBits_pack_roundMag, decide_eq_false_iff_not, not_lt]
  exact roundMag_le _ _

theorem excess_pos {q : Nat} (h : 0 < excess q) : q ≠ 0 ∧ 2 ^ 23 * 2 ^ excess q ≤ q := by
  have hq : q ≠ 0 := by rintro rfl; simp [excess] at h
  refine ⟨hq, ?_⟩
  rw [← pow_add, show 23 + excess q = Nat.log2 q by unfold excess at *; omega]
  exact Nat.log2_self_le hq

theorem lt_excess (q : Nat) : q < 2 ^ 24 * 2 ^ excess q := by
  refine lt_of_lt_of_le (Nat.lt_log2_self (n := q)) ?_
  rw [← pow_add]
  exact Nat.pow_le_pow_right (by norm_num) (by unfold excess; omega)

/-- The significand that rounding computes: at most 2^24, and at least 2^23 where it was shifted. -/
theorem significand_bounds (num den : Nat) :
    divNearestEven num (den * 2 ^ excess (num / den)) ≤ 2 ^ 24 ∧
      (excess (num / den) = 0 ∨ 2 ^ 23 ≤ divNearestEven num (den * 2 ^ excess (num / den))) := by
  have hq : num / (den * 2 ^ excess (num / den)) = num / den / 2 ^ excess (num / den) := (Nat.div_div_eq_div_mul ..).symm
  generalize he : excess (num / den) = e at *
  constructor
  · refine divNearestEven_le_succ.trans ?_
    rw [hq]
    have h := lt_excess (num / den)
    rw [he] at h
    have := Nat.div_lt_of_lt_mul (by rwa [Nat.mul_comm] at h : num / den < 2 ^ e * 2 ^ 24)
    omega
  · rcases Nat.eq_zero_or_pos e with h0 | h0
    · exact .inl h0
    · refine .inr (le_trans ?_ divNearestEven_le)
      rw [hq, Nat.le_div_iff_mul_le (by positivity)]
      have h := (excess_pos (q := num / den) (by omega)).2
      rwa [he] at h

/-- The value of a pattern with a significand of at most 2^24, the carry into the exponent included. -/
theorem magUnits_carry {e m : Nat} (hm : m ≤ 2 ^ 24) (he : e = 0 ∨ 2 ^ 23 ≤ m) :
    magUnits (e * 2 ^ 23 + m) = m * 2 ^ e := by
  rcases hm.lt_or_eq with hm | rfl
  · exact magUnits_eq hm he
  · rw [show e * 2 ^ 23 + 2 ^ 24 = (e + 1) * 2 ^ 23 + 2 ^ 23 by ring, magUnits_eq (by norm_num) (.inr le_rfl)]
    ring

/-- A result that is no infinity: its value is the rounded significand, shifted back. -/
theorem magUnits_roundMag {num den : Nat} (h : roundMag num den < infMag) :
    magUnits (roundMag num den) =
      divNearestEven num (den * 2 ^ excess (num / den)) * 2 ^ excess (num / den) := by
  obtain ⟨h1, h2⟩ := significand_bounds num den
  have : roundMag num den = excess (num / den) * 2 ^ 23 + divNearestEven num (den * 2 ^ excess (num / den)) := by
    unfold roundMag at *
    exact min_eq_left (by rcases min_lt_iff.mp h with h | h <;> omega)
  rw [this, magUnits_carry h1 h2]

/-- Rounding is exact on every multiple `m · 2^j` of a significand below 2^24, unless it overflows. -/
theorem roundMag_exact {m j : Nat} (hm : m < 2 ^ 24) (hf : roundMag (m * 2 ^ j) 1 < infMag) :
    magUnits (roundMag (m * 2 ^ j) 1) = m * 2 ^ j := by
  rw [magUnits_roundMag hf, Nat.div_one, Nat.one_mul]
  generalize he : excess (m * 2 ^ j) = e
  have hej : e ≤ j := by
    by_contra hc
    have h1 : 0 < excess (m * 2 ^ j) := by omega
    have h2 := (excess_pos h1).2
    rw [he] at h2
    have h3 : m * 2 ^ j < 2 ^ 24 * 2 ^ j := Nat.mul_lt_mul_of_pos_right hm (by positivity)
    have h4 : 2 ^ 24 * 2 ^ j ≤ 2 ^ 23 * 2 ^ e := by
      rw [← pow_add, ← pow_add]; exact Nat.pow_le_pow_right (by norm_num) (by omega)
    omega
  have hd : 2 ^ e ∣ m * 2 ^ j := Dvd.dvd.mul_left (pow_dvd_pow 2 hej) m
  rw [divNearestEven_of_dvd (Nat.mod_eq_zero_of_dvd hd) (by positivity), Nat.div_mul_cancel hd]

theorem excess_mono {p q : Nat} (h : p ≤ q) : excess p ≤ excess q := by
  unfold excess
  have : Nat.log2 p ≤ Nat.log2 q := by
    rcases Nat.eq_zero_or_pos p with rfl | hp
    · simp
    · rw [Nat.le_log2 (by omega)]; exact (Nat.log2_self_le (by omega)).trans h
  omega

/-- Rounding is monotone in the numerator. -/
theorem roundMag_mono {a b den : Nat} (h : a ≤ b) : roundMag a den ≤ roundMag b den := by
  have he := excess_mono (Nat.div_le_div_right (c := den) h)
  obtain ⟨ha, -⟩ := significand_bounds a den
  obtain ⟨-, hb⟩ := significand_bounds b den
  unfold roundMag
  simp only
  refine min_le_min_right _ ?_
  rcases he.lt_or_eq with he | he
  · omega
  · rw [he]; exact Nat.add_le_add_left (divNearestEven_mono h) _

/-! ### The clamp (R9) -/

theorem clamp_cases (lo x hi : Word) :
    (fge x lo = false ∧ clamp lo x hi = lo) ∨ (fge x lo = true ∧ fgt x hi = true ∧ clamp lo x hi = hi) ∨
      (fge x lo = true ∧ fgt x hi = false ∧ clamp lo x hi = x) := by
  unfold clamp
  cases fge x lo <;> cases fgt x hi <;> simp

/-- A clamp between two ordered bounds answers a value between them, whatever it is given. -/
theorem clamp_between {lo hi : Word} (x : Word) (h : fle lo hi = true) :
    fle lo (clamp lo x hi) = true ∧ fle (clamp lo x hi) hi = true := by
  obtain ⟨hl, hh⟩ := fle_not_nan h
  rcases clamp_cases lo x hi with ⟨-, e⟩ | ⟨-, -, e⟩ | ⟨h1, h2, e⟩ <;> rw [e]
  · exact ⟨by simp [fle, hl], h⟩
  · exact ⟨h, by simp [fle, hh]⟩
  · refine ⟨h1, ?_⟩
    have hx := (fle_not_nan h1).2
    rw [fle_iff hx hh, ← not_lt, ← flt_iff hh hx]
    simpa [fgt] using h2

/-- A NaN clamps to the lower bound. -/
theorem clamp_nan {lo x hi : Word} (h : isNaN x = true) : clamp lo x hi = lo := by
  simp [clamp, fge, fle, h]

end Sys2Proof.F32
end

