-- ==== Sys2Proof/Laws/Memory.lean ====
section
/-!
SUPPORT. BUF as a canonical list: reading after writing, and that every memory operation keeps the canonical form.
-/

namespace Sys2Proof.Machine

@[simp] theorem bufRead_nil (a : Nat) : bufRead [] a = bufDefault := rfl

theorem Memory.wf_cons {k : Nat} {w : Word} {m : List BufCell} :
    Memory.wf ((k, w) :: m) = true ↔
      w ≠ bufDefault ∧ (∀ c ∈ m, k < c.1) ∧ Memory.wf m = true := by
  simp [Memory.wf, and_assoc]

/-- An address below every listed one is not listed. -/
theorem bufRead_eq_default {m : List BufCell} {a : Nat} (h : ∀ c ∈ m, a < c.1) : bufRead m a = bufDefault := by
  induction m with
  | nil => rfl
  | cons c m ih =>
    obtain ⟨k, w⟩ := c
    have hk : a < k := h (k, w) (by simp)
    simp only [bufRead, if_neg (Nat.ne_of_gt hk)]
    exact ih fun c hc => h c (by simp [hc])

/-- Every address a write lists was listed before or is the one written. -/
theorem mem_bufWrite {m : List BufCell} {a : Nat} {v : Word} {c : BufCell} (h : c ∈ bufWrite m a v) :
    c ∈ m ∨ c = (a, v) := by
  induction m with
  | nil =>
    simp only [bufWrite] at h
    split at h <;> simp_all
  | cons d m ih =>
    obtain ⟨k, w⟩ := d
    simp only [bufWrite] at h
    split at h
    · rcases List.mem_cons.mp h with h | h
      · exact .inl (by simp [h])
      · rcases ih h with h | h
        · exact .inl (by simp [h])
        · exact .inr h
    · split at h
      · split at h
        · exact .inl (by simp [h])
        · rcases List.mem_cons.mp h with h | h
          · exact .inr h
          · exact .inl (by simp [h])
      · split at h
        · exact .inl h
        · rcases List.mem_cons.mp h with h | h
          · exact .inr h
          · exact .inl h

/-- A write keeps the canonical form. -/
theorem bufWrite_wf {m : List BufCell} (a : Nat) (v : Word) (h : Memory.wf m = true) :
    Memory.wf (bufWrite m a v) = true := by
  induction m with
  | nil =>
    simp only [bufWrite]
    split
    · rfl
    · next hv => simp [Memory.wf, hv]
  | cons d m ih =>
    obtain ⟨k, w⟩ := d
    obtain ⟨hw, hlt, hm⟩ := Memory.wf_cons.mp h
    simp only [bufWrite]
    split
    · next hka =>
      refine Memory.wf_cons.mpr ⟨hw, fun c hc => ?_, ih hm⟩
      rcases mem_bufWrite hc with hc | rfl
      · exact hlt c hc
      · exact hka
    · split
      · next hka =>
        subst hka
        split
        · exact hm
        · next hv => exact Memory.wf_cons.mpr ⟨hv, hlt, hm⟩
      · split
        · exact h
        · next hka hne hv =>
          have hak : a < k := by omega
          refine Memory.wf_cons.mpr ⟨hv, fun c hc => ?_, h⟩
          rcases List.mem_cons.mp hc with rfl | hc
          · exact hak
          · exact hak.trans (hlt c hc)

/-- Reading the address written gives the word written. -/
theorem bufRead_bufWrite_same {m : List BufCell} (a : Nat) (v : Word) (h : Memory.wf m = true) :
    bufRead (bufWrite m a v) a = v := by
  induction m with
  | nil => simp only [bufWrite]; split <;> simp_all [bufRead]
  | cons d m ih =>
    obtain ⟨k, w⟩ := d
    obtain ⟨-, hlt, hm⟩ := Memory.wf_cons.mp h
    simp only [bufWrite]
    split
    · next hka => simp only [bufRead, if_neg (Nat.ne_of_lt hka)]; exact ih hm
    · split
      · next hka =>
        subst hka
        split
        · next hv => rw [hv]; exact bufRead_eq_default hlt
        · simp [bufRead]
      · next hka hne =>
        have hak : a < k := by omega
        split
        · next hv =>
          rw [hv]
          refine bufRead_eq_default fun c hc => ?_
          rcases List.mem_cons.mp hc with rfl | hc
          · exact hak
          · exact hak.trans (hlt c hc)
        · simp [bufRead]

/-- Every other address reads as before. -/
theorem bufRead_bufWrite_other {m : List BufCell} {a b : Nat} (v : Word) (h : b ≠ a) :
    bufRead (bufWrite m a v) b = bufRead m b := by
  induction m with
  | nil => simp only [bufWrite]; split <;> simp [bufRead, h.symm]
  | cons d m ih =>
    obtain ⟨k, w⟩ := d
    simp only [bufWrite]
    split
    · simp only [bufRead, ih]
    · split
      · next hka => subst hka; split <;> simp [bufRead, h.symm]
      · split
        · rfl
        · simp [bufRead, h.symm]

/-- A write below `c` lists no address at or above `c` that was not listed. -/
theorem bufWrite_all_lt {m : List BufCell} {a c : Nat} (v : Word) (ha : a < c) (h : m.all (fun d => d.1 < c) = true) :
    (bufWrite m a v).all (fun d => d.1 < c) = true := by
  simp only [List.all_eq_true, decide_eq_true_eq] at *
  intro d hd
  rcases mem_bufWrite hd with hd | rfl
  · exact h d hd
  · exact ha

/-- Memories in canonical form that read the same are the same. -/
theorem bufRead_ext {m n : List BufCell} (hm : Memory.wf m = true) (hn : Memory.wf n = true)
    (h : ∀ a, bufRead m a = bufRead n a) : m = n := by
  induction m generalizing n with
  | nil =>
    cases n with
    | nil => rfl
    | cons d n =>
      obtain ⟨k, w⟩ := d
      exact absurd (by simpa [bufRead] using (h k).symm) (Memory.wf_cons.mp hn).1
  | cons c m ih =>
    obtain ⟨k, w⟩ := c
    obtain ⟨hw, hlt, hm'⟩ := Memory.wf_cons.mp hm
    cases n with
    | nil => exact absurd (by simpa [bufRead] using h k) hw
    | cons d n =>
      obtain ⟨l, x⟩ := d
      obtain ⟨hx, hlt', hn'⟩ := Memory.wf_cons.mp hn
      have hkl : k = l := by
        rcases Nat.lt_trichotomy k l with hk | hk | hk
        · have h1 := h k
          rw [bufRead, if_pos rfl, bufRead, if_neg (by omega),
            bufRead_eq_default fun c hc => hk.trans (hlt' c hc)] at h1
          exact absurd h1 hw
        · exact hk
        · have h1 := h l
          rw [bufRead, if_neg (by omega), bufRead_eq_default fun c hc => hk.trans (hlt c hc), bufRead,
            if_pos rfl] at h1
          exact absurd h1.symm hx
      subst hkl
      have hwx : w = x := by simpa [bufRead] using h k
      subst hwx
      congr 1
      refine ih hm' hn' fun a => ?_
      by_cases ha : k = a
      · subst ha; rw [bufRead_eq_default hlt, bufRead_eq_default hlt']
      · simpa [bufRead, ha] using h a

end Sys2Proof.Machine
end

