-- ==== Sys2Proof/Laws/State.lean ====
section
/-!
SUPPORT. One lemma per field per update of the state, each true by `rfl`, so that no proof unfolds a record update; and
the accessors that read through them.
-/

namespace Sys2Proof.Machine

variable (s : State)

/-! ### `respond` -/

@[simp] theorem State.respond_inited (r : Word) : (s.respond r).inited = s.inited := rfl
@[simp] theorem State.respond_resetPend (r : Word) : (s.respond r).resetPend = s.resetPend := rfl
@[simp] theorem State.respond_buf (r : Word) : (s.respond r).buf = s.buf := rfl
@[simp] theorem State.respond_dlW (r : Word) : (s.respond r).dlW = s.dlW := rfl
@[simp] theorem State.respond_exfA (r : Word) : (s.respond r).exfA = s.exfA := rfl
@[simp] theorem State.respond_exfZ (r : Word) : (s.respond r).exfZ = s.exfZ := rfl
@[simp] theorem State.respond_lfoPhi (r : Word) : (s.respond r).lfoPhi = s.lfoPhi := rfl
@[simp] theorem State.respond_lfoF0 (r : Word) : (s.respond r).lfoF0 = s.lfoF0 := rfl
@[simp] theorem State.respond_attackMs (r : Word) : (s.respond r).attackMs = s.attackMs := rfl
@[simp] theorem State.respond_dampBase (r : Word) : (s.respond r).dampBase = s.dampBase := rfl
@[simp] theorem State.respond_burst (r : Word) : (s.respond r).burst = s.burst := rfl
@[simp] theorem State.respond_modCur (r : Word) : (s.respond r).modCur = s.modCur := rfl
@[simp] theorem State.respond_modPrev (r : Word) : (s.respond r).modPrev = s.modPrev := rfl
@[simp] theorem State.respond_lastSig (r : Word) : (s.respond r).lastSig = s.lastSig := rfl
@[simp] theorem State.respond_freq (r : Word) : (s.respond r).freq = s.freq := rfl
@[simp] theorem State.respond_modDepth (r : Word) : (s.respond r).modDepth = s.modDepth := rfl
@[simp] theorem State.respond_modCfg (r : Word) : (s.respond r).modCfg = s.modCfg := rfl
@[simp] theorem State.respond_phOfs (r : Word) : (s.respond r).phOfs = s.phOfs := rfl
@[simp] theorem State.respond_inFlight (r : Word) : (s.respond r).inFlight = s.inFlight := rfl
@[simp] theorem State.respond_port (r : Word) : (s.respond r).port = s.port := rfl
@[simp] theorem State.respond_resp (r : Word) : (s.respond r).resp = s.resp ++ [r] := rfl
@[simp] theorem State.respond_out (r : Word) : (s.respond r).out = s.out := rfl
@[simp] theorem State.respond_noise (r : Word) : (s.respond r).noise = s.noise := rfl
@[simp] theorem State.respond_cfg (r : Word) : (s.respond r).cfg = s.cfg := rfl
@[simp] theorem State.respond_draws (r : Word) : (s.respond r).draws = s.draws := rfl
@[simp] theorem State.respond_capacity (r : Word) : (s.respond r).capacity = s.capacity := rfl

/-! ### `spend` -/

@[simp] theorem State.spend_inited (n : Nat) : (s.spend n).inited = s.inited := rfl
@[simp] theorem State.spend_resetPend (n : Nat) : (s.spend n).resetPend = s.resetPend := rfl
@[simp] theorem State.spend_buf (n : Nat) : (s.spend n).buf = s.buf := rfl
@[simp] theorem State.spend_dlW (n : Nat) : (s.spend n).dlW = s.dlW := rfl
@[simp] theorem State.spend_exfA (n : Nat) : (s.spend n).exfA = s.exfA := rfl
@[simp] theorem State.spend_exfZ (n : Nat) : (s.spend n).exfZ = s.exfZ := rfl
@[simp] theorem State.spend_lfoPhi (n : Nat) : (s.spend n).lfoPhi = s.lfoPhi := rfl
@[simp] theorem State.spend_lfoF0 (n : Nat) : (s.spend n).lfoF0 = s.lfoF0 := rfl
@[simp] theorem State.spend_attackMs (n : Nat) : (s.spend n).attackMs = s.attackMs := rfl
@[simp] theorem State.spend_dampBase (n : Nat) : (s.spend n).dampBase = s.dampBase := rfl
@[simp] theorem State.spend_burst (n : Nat) : (s.spend n).burst = s.burst := rfl
@[simp] theorem State.spend_modCur (n : Nat) : (s.spend n).modCur = s.modCur := rfl
@[simp] theorem State.spend_modPrev (n : Nat) : (s.spend n).modPrev = s.modPrev := rfl
@[simp] theorem State.spend_lastSig (n : Nat) : (s.spend n).lastSig = s.lastSig := rfl
@[simp] theorem State.spend_freq (n : Nat) : (s.spend n).freq = s.freq := rfl
@[simp] theorem State.spend_modDepth (n : Nat) : (s.spend n).modDepth = s.modDepth := rfl
@[simp] theorem State.spend_modCfg (n : Nat) : (s.spend n).modCfg = s.modCfg := rfl
@[simp] theorem State.spend_phOfs (n : Nat) : (s.spend n).phOfs = s.phOfs := rfl
@[simp] theorem State.spend_inFlight (n : Nat) : (s.spend n).inFlight = s.inFlight := rfl
@[simp] theorem State.spend_port (n : Nat) : (s.spend n).port = s.port := rfl
@[simp] theorem State.spend_resp (n : Nat) : (s.spend n).resp = s.resp := rfl
@[simp] theorem State.spend_out (n : Nat) : (s.spend n).out = s.out := rfl
@[simp] theorem State.spend_noise (n : Nat) : (s.spend n).noise = s.noise := rfl
@[simp] theorem State.spend_cfg (n : Nat) : (s.spend n).cfg = s.cfg := rfl
@[simp] theorem State.spend_draws (n : Nat) : (s.spend n).draws = s.draws + n := rfl
@[simp] theorem State.spend_capacity (n : Nat) : (s.spend n).capacity = s.capacity := rfl

/-! ### `memWrite` -/

@[simp] theorem State.memWrite_inited (a : Nat) (v : Word) : (s.memWrite a v).inited = s.inited := rfl
@[simp] theorem State.memWrite_resetPend (a : Nat) (v : Word) : (s.memWrite a v).resetPend = s.resetPend := rfl
@[simp] theorem State.memWrite_buf (a : Nat) (v : Word) : (s.memWrite a v).buf = bufWrite s.buf a v := rfl
@[simp] theorem State.memWrite_dlW (a : Nat) (v : Word) : (s.memWrite a v).dlW = s.dlW := rfl
@[simp] theorem State.memWrite_exfA (a : Nat) (v : Word) : (s.memWrite a v).exfA = s.exfA := rfl
@[simp] theorem State.memWrite_exfZ (a : Nat) (v : Word) : (s.memWrite a v).exfZ = s.exfZ := rfl
@[simp] theorem State.memWrite_lfoPhi (a : Nat) (v : Word) : (s.memWrite a v).lfoPhi = s.lfoPhi := rfl
@[simp] theorem State.memWrite_lfoF0 (a : Nat) (v : Word) : (s.memWrite a v).lfoF0 = s.lfoF0 := rfl
@[simp] theorem State.memWrite_attackMs (a : Nat) (v : Word) : (s.memWrite a v).attackMs = s.attackMs := rfl
@[simp] theorem State.memWrite_dampBase (a : Nat) (v : Word) : (s.memWrite a v).dampBase = s.dampBase := rfl
@[simp] theorem State.memWrite_burst (a : Nat) (v : Word) : (s.memWrite a v).burst = s.burst := rfl
@[simp] theorem State.memWrite_modCur (a : Nat) (v : Word) : (s.memWrite a v).modCur = s.modCur := rfl
@[simp] theorem State.memWrite_modPrev (a : Nat) (v : Word) : (s.memWrite a v).modPrev = s.modPrev := rfl
@[simp] theorem State.memWrite_lastSig (a : Nat) (v : Word) : (s.memWrite a v).lastSig = s.lastSig := rfl
@[simp] theorem State.memWrite_freq (a : Nat) (v : Word) : (s.memWrite a v).freq = s.freq := rfl
@[simp] theorem State.memWrite_modDepth (a : Nat) (v : Word) : (s.memWrite a v).modDepth = s.modDepth := rfl
@[simp] theorem State.memWrite_modCfg (a : Nat) (v : Word) : (s.memWrite a v).modCfg = s.modCfg := rfl
@[simp] theorem State.memWrite_phOfs (a : Nat) (v : Word) : (s.memWrite a v).phOfs = s.phOfs := rfl
@[simp] theorem State.memWrite_inFlight (a : Nat) (v : Word) : (s.memWrite a v).inFlight = s.inFlight := rfl
@[simp] theorem State.memWrite_port (a : Nat) (v : Word) : (s.memWrite a v).port = s.port := rfl
@[simp] theorem State.memWrite_resp (a : Nat) (v : Word) : (s.memWrite a v).resp = s.resp := rfl
@[simp] theorem State.memWrite_out (a : Nat) (v : Word) : (s.memWrite a v).out = s.out := rfl
@[simp] theorem State.memWrite_noise (a : Nat) (v : Word) : (s.memWrite a v).noise = s.noise := rfl
@[simp] theorem State.memWrite_cfg (a : Nat) (v : Word) : (s.memWrite a v).cfg = s.cfg := rfl
@[simp] theorem State.memWrite_draws (a : Nat) (v : Word) : (s.memWrite a v).draws = s.draws := rfl
@[simp] theorem State.memWrite_capacity (a : Nat) (v : Word) : (s.memWrite a v).capacity = s.capacity := rfl

/-! ### `setCursor` -/

@[simp] theorem State.setCursor_inited (n : Nat) : (s.setCursor n).inited = s.inited := rfl
@[simp] theorem State.setCursor_resetPend (n : Nat) : (s.setCursor n).resetPend = s.resetPend := rfl
@[simp] theorem State.setCursor_buf (n : Nat) : (s.setCursor n).buf = s.buf := rfl
@[simp] theorem State.setCursor_dlW (n : Nat) : (s.setCursor n).dlW = BitVec.ofNat 32 (n % s.capacity) := rfl
@[simp] theorem State.setCursor_exfA (n : Nat) : (s.setCursor n).exfA = s.exfA := rfl
@[simp] theorem State.setCursor_exfZ (n : Nat) : (s.setCursor n).exfZ = s.exfZ := rfl
@[simp] theorem State.setCursor_lfoPhi (n : Nat) : (s.setCursor n).lfoPhi = s.lfoPhi := rfl
@[simp] theorem State.setCursor_lfoF0 (n : Nat) : (s.setCursor n).lfoF0 = s.lfoF0 := rfl
@[simp] theorem State.setCursor_attackMs (n : Nat) : (s.setCursor n).attackMs = s.attackMs := rfl
@[simp] theorem State.setCursor_dampBase (n : Nat) : (s.setCursor n).dampBase = s.dampBase := rfl
@[simp] theorem State.setCursor_burst (n : Nat) : (s.setCursor n).burst = s.burst := rfl
@[simp] theorem State.setCursor_modCur (n : Nat) : (s.setCursor n).modCur = s.modCur := rfl
@[simp] theorem State.setCursor_modPrev (n : Nat) : (s.setCursor n).modPrev = s.modPrev := rfl
@[simp] theorem State.setCursor_lastSig (n : Nat) : (s.setCursor n).lastSig = s.lastSig := rfl
@[simp] theorem State.setCursor_freq (n : Nat) : (s.setCursor n).freq = s.freq := rfl
@[simp] theorem State.setCursor_modDepth (n : Nat) : (s.setCursor n).modDepth = s.modDepth := rfl
@[simp] theorem State.setCursor_modCfg (n : Nat) : (s.setCursor n).modCfg = s.modCfg := rfl
@[simp] theorem State.setCursor_phOfs (n : Nat) : (s.setCursor n).phOfs = s.phOfs := rfl
@[simp] theorem State.setCursor_inFlight (n : Nat) : (s.setCursor n).inFlight = s.inFlight := rfl
@[simp] theorem State.setCursor_port (n : Nat) : (s.setCursor n).port = s.port := rfl
@[simp] theorem State.setCursor_resp (n : Nat) : (s.setCursor n).resp = s.resp := rfl
@[simp] theorem State.setCursor_out (n : Nat) : (s.setCursor n).out = s.out := rfl
@[simp] theorem State.setCursor_noise (n : Nat) : (s.setCursor n).noise = s.noise := rfl
@[simp] theorem State.setCursor_cfg (n : Nat) : (s.setCursor n).cfg = s.cfg := rfl
@[simp] theorem State.setCursor_draws (n : Nat) : (s.setCursor n).draws = s.draws := rfl
@[simp] theorem State.setCursor_capacity (n : Nat) : (s.setCursor n).capacity = s.capacity := rfl

/-! ### `outPush` -/

@[simp] theorem State.outPush_inited (v : Word) : (s.outPush v).inited = s.inited := rfl
@[simp] theorem State.outPush_resetPend (v : Word) : (s.outPush v).resetPend = s.resetPend := rfl
@[simp] theorem State.outPush_buf (v : Word) : (s.outPush v).buf = s.buf := rfl
@[simp] theorem State.outPush_dlW (v : Word) : (s.outPush v).dlW = s.dlW := rfl
@[simp] theorem State.outPush_exfA (v : Word) : (s.outPush v).exfA = s.exfA := rfl
@[simp] theorem State.outPush_exfZ (v : Word) : (s.outPush v).exfZ = s.exfZ := rfl
@[simp] theorem State.outPush_lfoPhi (v : Word) : (s.outPush v).lfoPhi = s.lfoPhi := rfl
@[simp] theorem State.outPush_lfoF0 (v : Word) : (s.outPush v).lfoF0 = s.lfoF0 := rfl
@[simp] theorem State.outPush_attackMs (v : Word) : (s.outPush v).attackMs = s.attackMs := rfl
@[simp] theorem State.outPush_dampBase (v : Word) : (s.outPush v).dampBase = s.dampBase := rfl
@[simp] theorem State.outPush_burst (v : Word) : (s.outPush v).burst = s.burst := rfl
@[simp] theorem State.outPush_modCur (v : Word) : (s.outPush v).modCur = s.modCur := rfl
@[simp] theorem State.outPush_modPrev (v : Word) : (s.outPush v).modPrev = s.modPrev := rfl
@[simp] theorem State.outPush_lastSig (v : Word) : (s.outPush v).lastSig = s.lastSig := rfl
@[simp] theorem State.outPush_freq (v : Word) : (s.outPush v).freq = s.freq := rfl
@[simp] theorem State.outPush_modDepth (v : Word) : (s.outPush v).modDepth = s.modDepth := rfl
@[simp] theorem State.outPush_modCfg (v : Word) : (s.outPush v).modCfg = s.modCfg := rfl
@[simp] theorem State.outPush_phOfs (v : Word) : (s.outPush v).phOfs = s.phOfs := rfl
@[simp] theorem State.outPush_inFlight (v : Word) : (s.outPush v).inFlight = s.inFlight := rfl
@[simp] theorem State.outPush_port (v : Word) : (s.outPush v).port = s.port := rfl
@[simp] theorem State.outPush_resp (v : Word) : (s.outPush v).resp = s.resp := rfl
@[simp] theorem State.outPush_out (v : Word) : (s.outPush v).out = s.out ++ [v] := rfl
@[simp] theorem State.outPush_noise (v : Word) : (s.outPush v).noise = s.noise := rfl
@[simp] theorem State.outPush_cfg (v : Word) : (s.outPush v).cfg = s.cfg := rfl
@[simp] theorem State.outPush_draws (v : Word) : (s.outPush v).draws = s.draws := rfl
@[simp] theorem State.outPush_capacity (v : Word) : (s.outPush v).capacity = s.capacity := rfl

/-! ### `clearLine` -/

@[simp] theorem State.clearLine_inited : (s.clearLine).inited = s.inited := rfl
@[simp] theorem State.clearLine_resetPend : (s.clearLine).resetPend = s.resetPend := rfl
@[simp] theorem State.clearLine_buf : (s.clearLine).buf = [] := rfl
@[simp] theorem State.clearLine_dlW : (s.clearLine).dlW = 0#32 := rfl
@[simp] theorem State.clearLine_exfA : (s.clearLine).exfA = s.exfA := rfl
@[simp] theorem State.clearLine_exfZ : (s.clearLine).exfZ = s.exfZ := rfl
@[simp] theorem State.clearLine_lfoPhi : (s.clearLine).lfoPhi = s.lfoPhi := rfl
@[simp] theorem State.clearLine_lfoF0 : (s.clearLine).lfoF0 = s.lfoF0 := rfl
@[simp] theorem State.clearLine_attackMs : (s.clearLine).attackMs = s.attackMs := rfl
@[simp] theorem State.clearLine_dampBase : (s.clearLine).dampBase = s.dampBase := rfl
@[simp] theorem State.clearLine_burst : (s.clearLine).burst = s.burst := rfl
@[simp] theorem State.clearLine_modCur : (s.clearLine).modCur = s.modCur := rfl
@[simp] theorem State.clearLine_modPrev : (s.clearLine).modPrev = s.modPrev := rfl
@[simp] theorem State.clearLine_lastSig : (s.clearLine).lastSig = s.lastSig := rfl
@[simp] theorem State.clearLine_freq : (s.clearLine).freq = s.freq := rfl
@[simp] theorem State.clearLine_modDepth : (s.clearLine).modDepth = s.modDepth := rfl
@[simp] theorem State.clearLine_modCfg : (s.clearLine).modCfg = s.modCfg := rfl
@[simp] theorem State.clearLine_phOfs : (s.clearLine).phOfs = s.phOfs := rfl
@[simp] theorem State.clearLine_inFlight : (s.clearLine).inFlight = s.inFlight := rfl
@[simp] theorem State.clearLine_port : (s.clearLine).port = s.port := rfl
@[simp] theorem State.clearLine_resp : (s.clearLine).resp = s.resp := rfl
@[simp] theorem State.clearLine_out : (s.clearLine).out = s.out := rfl
@[simp] theorem State.clearLine_noise : (s.clearLine).noise = s.noise := rfl
@[simp] theorem State.clearLine_cfg : (s.clearLine).cfg = s.cfg := rfl
@[simp] theorem State.clearLine_draws : (s.clearLine).draws = s.draws := rfl
@[simp] theorem State.clearLine_capacity : (s.clearLine).capacity = s.capacity := rfl

/-! ### `pushSample` -/

@[simp] theorem State.pushSample_inited (x : Word) : (s.pushSample x).inited = s.inited := rfl
@[simp] theorem State.pushSample_resetPend (x : Word) : (s.pushSample x).resetPend = s.resetPend := rfl
@[simp] theorem State.pushSample_buf (x : Word) : (s.pushSample x).buf = bufWrite s.buf s.cursor x := rfl
@[simp] theorem State.pushSample_dlW (x : Word) : (s.pushSample x).dlW = BitVec.ofNat 32 ((s.cursor + 1) % s.capacity) := rfl
@[simp] theorem State.pushSample_exfA (x : Word) : (s.pushSample x).exfA = s.exfA := rfl
@[simp] theorem State.pushSample_exfZ (x : Word) : (s.pushSample x).exfZ = s.exfZ := rfl
@[simp] theorem State.pushSample_lfoPhi (x : Word) : (s.pushSample x).lfoPhi = s.lfoPhi := rfl
@[simp] theorem State.pushSample_lfoF0 (x : Word) : (s.pushSample x).lfoF0 = s.lfoF0 := rfl
@[simp] theorem State.pushSample_attackMs (x : Word) : (s.pushSample x).attackMs = s.attackMs := rfl
@[simp] theorem State.pushSample_dampBase (x : Word) : (s.pushSample x).dampBase = s.dampBase := rfl
@[simp] theorem State.pushSample_burst (x : Word) : (s.pushSample x).burst = s.burst := rfl
@[simp] theorem State.pushSample_modCur (x : Word) : (s.pushSample x).modCur = s.modCur := rfl
@[simp] theorem State.pushSample_modPrev (x : Word) : (s.pushSample x).modPrev = s.modPrev := rfl
@[simp] theorem State.pushSample_lastSig (x : Word) : (s.pushSample x).lastSig = s.lastSig := rfl
@[simp] theorem State.pushSample_freq (x : Word) : (s.pushSample x).freq = s.freq := rfl
@[simp] theorem State.pushSample_modDepth (x : Word) : (s.pushSample x).modDepth = s.modDepth := rfl
@[simp] theorem State.pushSample_modCfg (x : Word) : (s.pushSample x).modCfg = s.modCfg := rfl
@[simp] theorem State.pushSample_phOfs (x : Word) : (s.pushSample x).phOfs = s.phOfs := rfl
@[simp] theorem State.pushSample_inFlight (x : Word) : (s.pushSample x).inFlight = s.inFlight := rfl
@[simp] theorem State.pushSample_port (x : Word) : (s.pushSample x).port = s.port := rfl
@[simp] theorem State.pushSample_resp (x : Word) : (s.pushSample x).resp = s.resp := rfl
@[simp] theorem State.pushSample_out (x : Word) : (s.pushSample x).out = s.out := rfl
@[simp] theorem State.pushSample_noise (x : Word) : (s.pushSample x).noise = s.noise := rfl
@[simp] theorem State.pushSample_cfg (x : Word) : (s.pushSample x).cfg = s.cfg := rfl
@[simp] theorem State.pushSample_draws (x : Word) : (s.pushSample x).draws = s.draws := rfl
@[simp] theorem State.pushSample_capacity (x : Word) : (s.pushSample x).capacity = s.capacity := rfl

/-! ### `initialise` -/

@[simp] theorem State.initialise_inited : (s.initialise).inited = true := rfl
@[simp] theorem State.initialise_resetPend : (s.initialise).resetPend = false := rfl
@[simp] theorem State.initialise_buf : (s.initialise).buf = [] := rfl
@[simp] theorem State.initialise_dlW : (s.initialise).dlW = 0#32 := rfl
@[simp] theorem State.initialise_exfA : (s.initialise).exfA = 0x3F600000#32 := rfl
@[simp] theorem State.initialise_exfZ : (s.initialise).exfZ = F32.zero := rfl
@[simp] theorem State.initialise_lfoPhi : (s.initialise).lfoPhi = F32.zero := rfl
@[simp] theorem State.initialise_lfoF0 : (s.initialise).lfoF0 = F32.zero := rfl
@[simp] theorem State.initialise_attackMs : (s.initialise).attackMs = 0x41200000#32 := rfl
@[simp] theorem State.initialise_dampBase : (s.initialise).dampBase = 0x3F000000#32 := rfl
@[simp] theorem State.initialise_burst : (s.initialise).burst = 0#32 := rfl
@[simp] theorem State.initialise_modCur : (s.initialise).modCur = F32.zero := rfl
@[simp] theorem State.initialise_modPrev : (s.initialise).modPrev = F32.zero := rfl
@[simp] theorem State.initialise_lastSig : (s.initialise).lastSig = F32.zero := rfl
@[simp] theorem State.initialise_freq : (s.initialise).freq = 0x43DC0000#32 := rfl
@[simp] theorem State.initialise_modDepth : (s.initialise).modDepth = F32.zero := rfl
@[simp] theorem State.initialise_modCfg : (s.initialise).modCfg = 0#3 := rfl
@[simp] theorem State.initialise_phOfs : (s.initialise).phOfs = F32.zero := rfl
@[simp] theorem State.initialise_inFlight : (s.initialise).inFlight = s.inFlight := rfl
@[simp] theorem State.initialise_port : (s.initialise).port = s.port := rfl
@[simp] theorem State.initialise_resp : (s.initialise).resp = s.resp := rfl
@[simp] theorem State.initialise_out : (s.initialise).out = s.out := rfl
@[simp] theorem State.initialise_noise : (s.initialise).noise = s.noise := rfl
@[simp] theorem State.initialise_cfg : (s.initialise).cfg = s.cfg := rfl
@[simp] theorem State.initialise_draws : (s.initialise).draws = s.draws := rfl
@[simp] theorem State.initialise_capacity : (s.initialise).capacity = s.capacity := rfl

/-! ### `lfoAdvance` -/

@[simp] theorem State.lfoAdvance_inited (t : Nat) : (s.lfoAdvance t).inited = s.inited := rfl
@[simp] theorem State.lfoAdvance_resetPend (t : Nat) : (s.lfoAdvance t).resetPend = s.resetPend := rfl
@[simp] theorem State.lfoAdvance_buf (t : Nat) : (s.lfoAdvance t).buf = s.buf := rfl
@[simp] theorem State.lfoAdvance_dlW (t : Nat) : (s.lfoAdvance t).dlW = s.dlW := rfl
@[simp] theorem State.lfoAdvance_exfA (t : Nat) : (s.lfoAdvance t).exfA = s.exfA := rfl
@[simp] theorem State.lfoAdvance_exfZ (t : Nat) : (s.lfoAdvance t).exfZ = s.exfZ := rfl
@[simp] theorem State.lfoAdvance_lfoPhi (t : Nat) : (s.lfoAdvance t).lfoPhi = wrapAdd t s.lfoPhi s.lfoF0 := rfl
@[simp] theorem State.lfoAdvance_lfoF0 (t : Nat) : (s.lfoAdvance t).lfoF0 = s.lfoF0 := rfl
@[simp] theorem State.lfoAdvance_attackMs (t : Nat) : (s.lfoAdvance t).attackMs = s.attackMs := rfl
@[simp] theorem State.lfoAdvance_dampBase (t : Nat) : (s.lfoAdvance t).dampBase = s.dampBase := rfl
@[simp] theorem State.lfoAdvance_burst (t : Nat) : (s.lfoAdvance t).burst = s.burst := rfl
@[simp] theorem State.lfoAdvance_modCur (t : Nat) : (s.lfoAdvance t).modCur = s.modCur := rfl
@[simp] theorem State.lfoAdvance_modPrev (t : Nat) : (s.lfoAdvance t).modPrev = s.modPrev := rfl
@[simp] theorem State.lfoAdvance_lastSig (t : Nat) : (s.lfoAdvance t).lastSig = s.lastSig := rfl
@[simp] theorem State.lfoAdvance_freq (t : Nat) : (s.lfoAdvance t).freq = s.freq := rfl
@[simp] theorem State.lfoAdvance_modDepth (t : Nat) : (s.lfoAdvance t).modDepth = s.modDepth := rfl
@[simp] theorem State.lfoAdvance_modCfg (t : Nat) : (s.lfoAdvance t).modCfg = s.modCfg := rfl
@[simp] theorem State.lfoAdvance_phOfs (t : Nat) : (s.lfoAdvance t).phOfs = s.phOfs := rfl
@[simp] theorem State.lfoAdvance_inFlight (t : Nat) : (s.lfoAdvance t).inFlight = s.inFlight := rfl
@[simp] theorem State.lfoAdvance_port (t : Nat) : (s.lfoAdvance t).port = s.port := rfl
@[simp] theorem State.lfoAdvance_resp (t : Nat) : (s.lfoAdvance t).resp = s.resp := rfl
@[simp] theorem State.lfoAdvance_out (t : Nat) : (s.lfoAdvance t).out = s.out := rfl
@[simp] theorem State.lfoAdvance_noise (t : Nat) : (s.lfoAdvance t).noise = s.noise := rfl
@[simp] theorem State.lfoAdvance_cfg (t : Nat) : (s.lfoAdvance t).cfg = s.cfg := rfl
@[simp] theorem State.lfoAdvance_draws (t : Nat) : (s.lfoAdvance t).draws = s.draws := rfl
@[simp] theorem State.lfoAdvance_capacity (t : Nat) : (s.lfoAdvance t).capacity = s.capacity := rfl

end Sys2Proof.Machine
end

