-- ==== Sys2Proof/Laws/Ops.lean ====
section
/-!
SUPPORT. What each shared operation can do, said once: the gate, the cursor and the slots, the pop of a noise word, the
port, and the delay line's two writers.
-/

namespace Sys2Proof.Machine

/-! ### The gate (`30_encoding` R87) -/

theorem gated_of_inited {s : State} {f : State → State} (h : s.inited = true) : gated s f = .next (f s) := by
  simp [gated, h]

theorem gated_of_not_inited {s : State} {f : State → State} (h : s.inited = false) :
    gated s f = .next (s.respond 0#32) := by
  simp [gated, h]

/-- The gate lets the effect through or ignores the command; it never stops. -/
theorem gated_cases (s : State) (f : State → State) :
    (s.inited = true ∧ gated s f = .next (f s)) ∨ (s.inited = false ∧ gated s f = .next (s.respond 0#32)) := by
  cases h : s.inited
  · exact .inr ⟨rfl, gated_of_not_inited h⟩
  · exact .inl ⟨rfl, gated_of_inited h⟩

/-! ### The cursor and the slots (`40_delay_line` R102) -/

theorem State.capacity_pos (s : State) : 0 < s.capacity := Nat.two_pow_pos _

theorem State.cursor_lt (s : State) : s.cursor < s.capacity := Nat.mod_lt _ s.capacity_pos

theorem State.slot_lt (s : State) (k : Nat) : s.slot k < s.capacity := Nat.mod_lt _ s.capacity_pos

/-- The slot is the cursor less the offset, modulo the capacity. -/
theorem State.slot_eq_sub (s : State) (k : Nat) :
    (s.slot k : ℤ) = ((s.cursor : ℤ) - (k % s.capacity : ℕ)) % s.capacity := by
  have hm : k % s.capacity < s.capacity := Nat.mod_lt _ s.capacity_pos
  unfold State.slot
  push_cast [Nat.cast_sub hm.le]
  rw [show (s.cursor : ℤ) + (s.capacity - (k : ℤ) % s.capacity) =
    ((s.cursor : ℤ) - (k : ℤ) % s.capacity) + s.capacity by ring, Int.add_emod_right]

/-- Offsets wrap: `Slot(k + C) = Slot(k)`. -/
theorem State.slot_add_capacity (s : State) (k : Nat) : s.slot (k + s.capacity) = s.slot k := by
  simp [State.slot]

/-- `Slot(0)` is the slot at the cursor. -/
@[simp] theorem State.slot_zero (s : State) : s.slot 0 = s.cursor := by
  simp [State.slot, Nat.mod_eq_of_lt s.cursor_lt]

theorem State.capacity_lt {s : State} (h : s.cfg.log2c ≤ 24) : s.capacity < 2 ^ 32 :=
  lt_of_le_of_lt (Nat.pow_le_pow_right (by norm_num) h) (by norm_num)

/-- What a write of the cursor leaves in it. -/
theorem State.setCursor_cursor {s : State} (n : Nat) (h : s.cfg.log2c ≤ 24) :
    (s.setCursor n).cursor = n % s.capacity := by
  have h1 : n % s.capacity < s.capacity := Nat.mod_lt _ s.capacity_pos
  have h2 := State.capacity_lt h
  have h3 : n % s.capacity % 2 ^ 32 = n % s.capacity := Nat.mod_eq_of_lt (h1.trans h2)
  unfold State.cursor
  rw [State.setCursor_dlW, State.setCursor_capacity, BitVec.toNat_ofNat, h3, Nat.mod_mod]

/-! ### The delay line's writers -/

theorem State.pushSample_cursor {s : State} (x : Word) (h : s.cfg.log2c ≤ 24) :
    (s.pushSample x).cursor = (s.cursor + 1) % s.capacity :=
  State.setCursor_cursor (s := s.memWrite s.cursor x) _ h

/-- The word written is at the old cursor, every other address is as before. -/
theorem State.pushSample_memRead {s : State} (x : Word) (hw : Memory.wf s.buf = true) (a : Nat) :
    (s.pushSample x).memRead a = if a = s.cursor then x else s.memRead a := by
  unfold State.memRead
  rw [State.pushSample_buf]
  split
  · next h => rw [h, bufRead_bufWrite_same _ _ hw]
  · next h => rw [bufRead_bufWrite_other _ h]

theorem State.pushSample_wf {s : State} (x : Word) (hw : Memory.wf s.buf = true) :
    Memory.wf (s.pushSample x).buf = true := bufWrite_wf _ _ hw

@[simp] theorem State.clearLine_cursor (s : State) : s.clearLine.cursor = 0 := by simp [State.cursor]

@[simp] theorem State.clearLine_memRead (s : State) (a : Nat) : s.clearLine.memRead a = F32.zero := rfl

@[simp] theorem State.clearLine_wf (s : State) : Memory.wf s.clearLine.buf = true := rfl

/-! ### The line does not depend on the response, the draws or the streams -/

@[simp] theorem State.respond_memRead (s : State) (r : Word) (a : Nat) : (s.respond r).memRead a = s.memRead a := rfl

@[simp] theorem State.respond_cursor (s : State) (r : Word) : (s.respond r).cursor = s.cursor := rfl

@[simp] theorem State.respond_slot (s : State) (r : Word) (k : Nat) : (s.respond r).slot k = s.slot k := rfl

@[simp] theorem State.spend_memRead (s : State) (n a : Nat) : (s.spend n).memRead a = s.memRead a := rfl

@[simp] theorem State.spend_cursor (s : State) (n : Nat) : (s.spend n).cursor = s.cursor := rfl

@[simp] theorem State.spend_slot (s : State) (n k : Nat) : (s.spend n).slot k = s.slot k := rfl

@[simp] theorem State.outPush_memRead (s : State) (v : Word) (a : Nat) : (s.outPush v).memRead a = s.memRead a := rfl

@[simp] theorem State.outPush_cursor (s : State) (v : Word) : (s.outPush v).cursor = s.cursor := rfl

@[simp] theorem State.outPush_slot (s : State) (v : Word) (k : Nat) : (s.outPush v).slot k = s.slot k := rfl

/-! ### After power-on -/

/-- The buffer after power-on is in canonical form. -/
theorem State.reset_wf : Memory.wf State.reset.buf = true := rfl

theorem State.reset_memRead (a : Nat) : State.reset.memRead a = F32.zero := rfl

/-! ### The streams (`20_memory` R66, R68) and the port (`30_encoding` R86) -/

theorem State.noisePop_eq_none {s : State} : s.noisePop = none ↔ s.noise = [] := by
  unfold State.noisePop; split <;> simp_all

/-- A pop takes the next word and changes nothing else. -/
theorem State.noisePop_eq_some {s t : State} {w : Word} (h : s.noisePop = some (w, t)) :
    s.noise = w :: t.noise ∧ t = { s with noise := t.noise } := by
  unfold State.noisePop at h
  split at h
  · cases h
  · next hn => cases h; exact ⟨hn, rfl⟩

theorem State.accept_eq_none {s : State} : s.accept = none ↔ s.port = [] := by
  unfold State.accept; split <;> simp_all

/-- Accepting takes the oldest packet and changes nothing else. -/
theorem State.accept_eq_some {s t : State} {p : Packet} (h : s.accept = some (p, t)) :
    s.port = p :: t.port ∧ t = { s with port := t.port } := by
  unfold State.accept at h
  split at h
  · cases h
  · next hn => cases h; exact ⟨hn, rfl⟩

end Sys2Proof.Machine
end

