-- ==== Sys2Proof/Laws/Exec.lean ====
section
/-!
SUPPORT. One equation per command that the gate of `30_encoding` R87 stands before, so that a proof rewrites `exec` to
`gated` (whose two cases are `gated_of_inited`, `gated_of_not_inited`) and unfolds no meaning.
-/

namespace Sys2Proof.Machine

open F32

theorem exec_param (index value : Word) (s : State) :
    exec (.param index value) s = gated s (fun s => (s.setParam (u32 index) value).respond 0#32) := rfl

theorem exec_noteOn (hz : Word) (s : State) :
    exec (.noteOn hz) s = gated s (fun s =>
    ({ s with freq := hz, burst := s.burstLength s.draws, resetPend := true }.spend 1).respond 0#32) := rfl

theorem exec_noteOff (s : State) :
    exec .noteOff s = gated s (fun s => s.respond 0#32) := rfl

theorem exec_pitch (hz : Word) (s : State) :
    exec (.pitch hz) s = gated s (fun s => State.respond { s with freq := hz } 0#32) := rfl

theorem exec_process (frames target : Word) (s : State) :
    exec (.process frames target) s = gated s (fun s =>
    if u32 frames = 0 then s.respond 0#32
    else
      let (b, s') := s.openBlock (u32 frames) target
      runBlock (u32 frames) b s') := rfl

theorem exec_dlWrite (sample : Word) (s : State) :
    exec (.dlWrite sample) s = gated s (fun s => (s.pushSample sample).respond 0#32) := rfl

theorem exec_dlReadx (offset : Word) (s : State) :
    exec (.dlReadx offset) s = gated s (fun s => s.respond (s.readExact (u32 offset))) := rfl

theorem exec_dlReadf (delay : Word) (s : State) :
    exec (.dlReadf delay) s = gated s (fun s => (s.spend 4).respond (s.readFrac s.draws delay)) := rfl

theorem exec_dlClear (s : State) :
    exec .dlClear s = gated s (fun s => s.clearLine.respond 0#32) := rfl

theorem exec_opSetc (coefficient : Word) (s : State) :
    exec (.opSetc coefficient) s = gated s (fun s =>
      State.respond { s with exfA := clampCoefficient coefficient } 0#32) := rfl

theorem exec_opProc (sample : Word) (s : State) :
    exec (.opProc sample) s = gated s (fun s =>
    let z := s.exfNext s.draws sample
    State.respond ({ s with exfZ := z }.spend 4) z) := rfl

theorem exec_lfoSetf (hz recip : Word) (s : State) :
    exec (.lfoSetf hz recip) s = gated s (fun s =>
      ({ s with lfoF0 := clamp zero (fmul s.draws hz recip) half }.spend 1).respond 0#32) := rfl

theorem exec_lfoReset (s : State) :
    exec .lfoReset s = gated s (fun s => State.respond { s with lfoPhi := zero } 0#32) := rfl

theorem exec_lfoAdv (s : State) :
    exec .lfoAdv s = gated s (fun s => ((s.lfoAdvance s.draws).spend 2).respond 0#32) := rfl

theorem exec_lfoSin (s : State) :
    exec .lfoSin s = gated s (fun s => s.respond (sinWave s.lfoPhi)) := rfl

theorem exec_lfoTri (s : State) :
    exec .lfoTri s = gated s (fun s => (s.spend 2).respond (triWave s.draws s.lfoPhi)) := rfl

theorem exec_lfoSaw (s : State) :
    exec .lfoSaw s = gated s (fun s => (s.spend 2).respond (sawWave s.draws s.lfoPhi)) := rfl

theorem exec_lfoSqr (s : State) :
    exec .lfoSqr s = gated s (fun s => s.respond (sqrWave s.lfoPhi)) := rfl

theorem exec_lfoSino (offset : Word) (s : State) :
    exec (.lfoSino offset) s = gated s (fun s =>
      (s.spend 2).respond (sinWave (shiftPhase s.draws s.lfoPhi offset))) := rfl

theorem exec_lfoTrio (offset : Word) (s : State) :
    exec (.lfoTrio offset) s = gated s (fun s =>
      (s.spend 4).respond (triWave (s.draws + 2) (shiftPhase s.draws s.lfoPhi offset))) := rfl

theorem exec_lfoSawo (offset : Word) (s : State) :
    exec (.lfoSawo offset) s = gated s (fun s =>
      (s.spend 4).respond (sawWave (s.draws + 2) (shiftPhase s.draws s.lfoPhi offset))) := rfl

theorem exec_lfoSqro (offset : Word) (s : State) :
    exec (.lfoSqro offset) s = gated s (fun s =>
      (s.spend 2).respond (sqrWave (shiftPhase s.draws s.lfoPhi offset))) := rfl

end Sys2Proof.Machine
end

