-- ==== Sys2Proof/Laws/PerInstr.lean ====
section
/-!
SUPPORT. The family of per-instruction laws about syntax: the packet of a command is well formed, it uses the opcode of
its row, and the decoder reads the command back from it (`30_encoding` R80, R83).
-/

namespace Sys2Proof.Laws

/-- Whether a packet is an assigned encoding is decided by its command word alone (`30_encoding` R81). -/
theorem wellFormed_of_word {a b : Word} (w : Word) (h : (Packet.mk w 0 0).wellFormed = true) :
    (Packet.mk w a b).wellFormed = true := h

/-- The encoded command is an assigned encoding and decodes to the command. -/
def RoundTrip.Statement (i : Instr) : Prop := (encode i).wellFormed = true ∧ decode (encode i) = .ok i

theorem RoundTrip.nop : RoundTrip.Statement .nop :=
  ⟨wellFormed_of_word 0x00#32 (by decide), rfl⟩
theorem RoundTrip.init (platformId apiVersion : Word) : RoundTrip.Statement (.init platformId apiVersion) :=
  ⟨wellFormed_of_word 0x01#32 (by decide), rfl⟩
theorem RoundTrip.param (index value : Word) : RoundTrip.Statement (.param index value) :=
  ⟨wellFormed_of_word 0x02#32 (by decide), rfl⟩
theorem RoundTrip.noteOn (hz : Word) : RoundTrip.Statement (.noteOn hz) :=
  ⟨wellFormed_of_word 0x03#32 (by decide), rfl⟩
theorem RoundTrip.noteOff : RoundTrip.Statement .noteOff :=
  ⟨wellFormed_of_word 0x04#32 (by decide), rfl⟩
theorem RoundTrip.pitch (hz : Word) : RoundTrip.Statement (.pitch hz) :=
  ⟨wellFormed_of_word 0x05#32 (by decide), rfl⟩
theorem RoundTrip.process (frames target : Word) : RoundTrip.Statement (.process frames target) :=
  ⟨wellFormed_of_word 0x06#32 (by decide), rfl⟩
theorem RoundTrip.rdreg (number : Word) : RoundTrip.Statement (.rdreg number) :=
  ⟨wellFormed_of_word 0x07#32 (by decide), rfl⟩
theorem RoundTrip.dlWrite (sample : Word) : RoundTrip.Statement (.dlWrite sample) :=
  ⟨wellFormed_of_word 0x10#32 (by decide), rfl⟩
theorem RoundTrip.dlReadx (offset : Word) : RoundTrip.Statement (.dlReadx offset) :=
  ⟨wellFormed_of_word 0x11#32 (by decide), rfl⟩
theorem RoundTrip.dlReadf (delay : Word) : RoundTrip.Statement (.dlReadf delay) :=
  ⟨wellFormed_of_word 0x12#32 (by decide), rfl⟩
theorem RoundTrip.dlClear : RoundTrip.Statement .dlClear :=
  ⟨wellFormed_of_word 0x13#32 (by decide), rfl⟩
theorem RoundTrip.opSetc (coefficient : Word) : RoundTrip.Statement (.opSetc coefficient) :=
  ⟨wellFormed_of_word 0x20#32 (by decide), rfl⟩
theorem RoundTrip.opProc (sample : Word) : RoundTrip.Statement (.opProc sample) :=
  ⟨wellFormed_of_word 0x21#32 (by decide), rfl⟩
theorem RoundTrip.lfoSetf (hz recip : Word) : RoundTrip.Statement (.lfoSetf hz recip) :=
  ⟨wellFormed_of_word 0x30#32 (by decide), rfl⟩
theorem RoundTrip.lfoReset : RoundTrip.Statement .lfoReset :=
  ⟨wellFormed_of_word 0x31#32 (by decide), rfl⟩
theorem RoundTrip.lfoAdv : RoundTrip.Statement .lfoAdv :=
  ⟨wellFormed_of_word 0x32#32 (by decide), rfl⟩
theorem RoundTrip.lfoSin : RoundTrip.Statement .lfoSin :=
  ⟨wellFormed_of_word 0x34#32 (by decide), rfl⟩
theorem RoundTrip.lfoTri : RoundTrip.Statement .lfoTri :=
  ⟨wellFormed_of_word 0x35#32 (by decide), rfl⟩
theorem RoundTrip.lfoSaw : RoundTrip.Statement .lfoSaw :=
  ⟨wellFormed_of_word 0x36#32 (by decide), rfl⟩
theorem RoundTrip.lfoSqr : RoundTrip.Statement .lfoSqr :=
  ⟨wellFormed_of_word 0x37#32 (by decide), rfl⟩
theorem RoundTrip.lfoSino (offset : Word) : RoundTrip.Statement (.lfoSino offset) :=
  ⟨wellFormed_of_word 0x3C#32 (by decide), rfl⟩
theorem RoundTrip.lfoTrio (offset : Word) : RoundTrip.Statement (.lfoTrio offset) :=
  ⟨wellFormed_of_word 0x3D#32 (by decide), rfl⟩
theorem RoundTrip.lfoSawo (offset : Word) : RoundTrip.Statement (.lfoSawo offset) :=
  ⟨wellFormed_of_word 0x3E#32 (by decide), rfl⟩
theorem RoundTrip.lfoSqro (offset : Word) : RoundTrip.Statement (.lfoSqro offset) :=
  ⟨wellFormed_of_word 0x3F#32 (by decide), rfl⟩

end Sys2Proof.Laws
end

