-- ==== Sys2Proof/Laws/Voice.lean ====
section
/-!
SUPPORT. What the operations of the voice can do, said once: the sine, the modulation source, the excitation, the end of
a sample, one sample, and a block of samples.
-/

namespace Sys2Proof.Machine

/-- The sine waveform is the configuration function, and nothing else (`42_lfo` R137). -/
theorem sinWave_eq_sin2pi (p : Word) : sinWave p = Config.sin2pi.fn p := by
  obtain ⟨h0, h1, h2, h3⟩ := Config.sin2pi.quadrants
  unfold sinWave
  split
  · next h => rw [h, h0]
  split
  · next h => rw [h, h1]
  split
  · next h => rw [h, h2]
  split
  · next h => rw [h, h3]
  · rfl

/-! ### The modulation source (`43_voice` R173) -/

/-- `MOD_CFG.SRC` is bit 0 (`10_state` R35). -/
theorem State.internalSource_eq (s : State) : s.internalSource = s.modCfg.getLsbD 0 := by
  unfold State.internalSource
  generalize s.modCfg = m
  revert m; decide

/-- `MOD_CFG.WAVE` is bits 2:1 (`10_state` R35). -/
theorem State.waveSelect_eq (s : State) : s.waveSelect = (s.modCfg.extractLsb' 1 2).toNat := by
  unfold State.waveSelect
  generalize s.modCfg = m
  revert m; decide

/-- The target of the host source is the host's word. -/
theorem State.modTarget_of_host {s : State} (t : Nat) (host : Word) (h : s.modCfg.getLsbD 0 = false) :
    s.modTarget t host = host := by
  rw [State.modTarget, s.internalSource_eq, h]; rfl

/-- The target of the internal source is the depth times the selected waveform at the shifted phase. -/
theorem State.modTarget_of_internal {s : State} (t : Nat) (host : Word) (h : s.modCfg.getLsbD 0 = true) :
    s.modTarget t host = F32.fmul (t + 4) s.modDepth
      (waveform (t + 2) (s.modCfg.extractLsb' 1 2).toNat (shiftPhase t s.lfoPhi s.phOfs)) := by
  rw [State.modTarget, s.internalSource_eq, h, s.waveSelect_eq]; rfl

/-! ### Excitation (`43_voice` R177, R178) -/

/-- A sample waits exactly where it excites and no noise word is there. -/
theorem State.excite_eq_none {t : Nat} {s : State} {sig : Word} :
    s.excite t sig = none ↔ s.exciting = true ∧ s.noise = [] := by
  unfold State.excite
  cases he : s.exciting
  · simp
  · cases hn : s.noisePop with
    | none => simp [State.noisePop_eq_none.mp hn]
    | some p =>
      obtain ⟨n, s'⟩ := p
      simp [(State.noisePop_eq_some hn).1]

/-- What an excitation that completes does: nothing in the state Idle, or one word popped, filtered and added. -/
theorem State.excite_eq_some {t : Nat} {s s' : State} {sig sig' : Word} (h : s.excite t sig = some (sig', s')) :
    (s.exciting = false ∧ sig' = sig ∧ s' = s) ∨
      (s.exciting = true ∧ ∃ n rest, s.noise = n :: rest ∧ sig' = F32.fadd (t + 4) sig (s.exfNext t n) ∧
        s' = { s with noise := rest, exfZ := s.exfNext t n, burst := s.burst - 1#32 }) := by
  unfold State.excite at h
  cases he : s.exciting
  · simp only [he, Bool.false_eq_true, if_false, Option.some.injEq, Prod.mk.injEq] at h
    exact .inl ⟨rfl, h.1.symm, h.2.symm⟩
  · right
    simp only [he, if_true] at h
    cases hn : s.noisePop with
    | none => rw [hn] at h; cases h
    | some p =>
      obtain ⟨n, u⟩ := p
      obtain ⟨h1, h2⟩ := State.noisePop_eq_some hn
      rw [hn] at h
      simp only [Option.some.injEq, Prod.mk.injEq] at h
      have hx : u.exfNext t n = s.exfNext t n := by rw [h2]; rfl
      refine ⟨rfl, n, u.noise, h1, ?_, ?_⟩
      · rw [← h.1, hx]
      · rw [← h.2, hx, h2]

/-! ### The end of a sample (`43_voice` R179, R180) -/

/-- What the end of a sample changes: the line, OUT, `LASTSIG`, and the phase in the internal source. -/
theorem State.emit_eq (t : Nat) (s : State) (sig : Word) :
    s.emit t sig =
      { s with
        buf := bufWrite s.buf s.cursor (softClip t s.cfg.kClip sig)
        dlW := BitVec.ofNat 32 ((s.cursor + 1) % s.capacity)
        out := s.out ++ [softClip t s.cfg.kClip sig, softClip t s.cfg.kClip sig]
        lastSig := sig
        lfoPhi := if s.internalSource then wrapAdd (t + 4) s.lfoPhi s.lfoF0 else s.lfoPhi } := by
  unfold State.emit
  have hi : ({ ((s.pushSample (softClip t s.cfg.kClip sig)).outPush (softClip t s.cfg.kClip sig)).outPush
      (softClip t s.cfg.kClip sig) with lastSig := sig } : State).internalSource = s.internalSource := rfl
  simp only [hi]
  cases s.internalSource <;>
    simp [State.pushSample, State.memWrite, State.setCursor, State.outPush, State.lfoAdvance, State.capacity,
      State.cursor]

/-! ### One sample (`43_voice` R175 to R180) -/

/-- A sample waits exactly where it excites and no noise word is there. -/
theorem sampleStep_eq_none {b : Block} {s : State} :
    sampleStep b s = none ↔ s.exciting = true ∧ s.noise = [] := by
  unfold sampleStep
  cases h : s.excite (s.draws + 9) (s.feedback s.draws b) with
  | none => simpa using State.excite_eq_none.mp h
  | some p =>
    simp only [reduceCtorEq, false_iff]
    intro hc
    rw [State.excite_eq_none.mpr hc] at h
    cases h

/-- What a sample that completes does. -/
theorem sampleStep_eq_some {b b' : Block} {s s' : State} (h : sampleStep b s = some (b', s')) :
    ∃ sig u, s.excite (s.draws + 9) (s.feedback s.draws b) = some (sig, u) ∧
      b' = { b with v := F32.fadd (s.draws + 17) b.v b.inc, j := b.j + 1 } ∧
      s' = (u.emit (s.draws + 14) sig).spend 20 := by
  unfold sampleStep at h
  cases he : s.excite (s.draws + 9) (s.feedback s.draws b) with
  | none => rw [he] at h; cases h
  | some p =>
    obtain ⟨sig, u⟩ := p
    rw [he] at h
    simp only [Option.some.injEq, Prod.mk.injEq] at h
    exact ⟨sig, u, rfl, h.1.symm, h.2.symm⟩

/-- The state after a sample, as a record: either no noise is read, or one word is. -/
theorem sampleStep_state {b b' : Block} {s s' : State} (h : sampleStep b s = some (b', s')) :
    ∃ sig y exfZ burst noise phi,
      s' = { s with
        buf := bufWrite s.buf s.cursor y
        dlW := BitVec.ofNat 32 ((s.cursor + 1) % s.capacity)
        out := s.out ++ [y, y]
        lastSig := sig
        lfoPhi := phi
        exfZ := exfZ
        burst := burst
        noise := noise
        draws := s.draws + 20 } ∧
      y = softClip (s.draws + 14) s.cfg.kClip sig ∧
      phi = (if s.internalSource then wrapAdd (s.draws + 18) s.lfoPhi s.lfoF0 else s.lfoPhi) ∧
      ((s.exciting = false ∧ exfZ = s.exfZ ∧ burst = s.burst ∧ noise = s.noise ∧
          sig = s.feedback s.draws b) ∨
        (s.exciting = true ∧ burst = s.burst - 1#32 ∧ ∃ n, s.noise = n :: noise ∧
          exfZ = s.exfNext (s.draws + 9) n ∧
          sig = F32.fadd (s.draws + 13) (s.feedback s.draws b) exfZ)) := by
  obtain ⟨sig, u, he, -, rfl⟩ := sampleStep_eq_some h
  rcases State.excite_eq_some he with ⟨hx, hsig, rfl⟩ | ⟨hx, n, rest, hn, hsig, rfl⟩
  · refine ⟨sig, _, u.exfZ, u.burst, u.noise, _, ?_, rfl, rfl, .inl ⟨hx, rfl, rfl, rfl, hsig⟩⟩
    rw [State.emit_eq]; rfl
  · refine ⟨sig, _, s.exfNext (s.draws + 9) n, s.burst - 1#32, rest, _, ?_, rfl, rfl,
      .inr ⟨hx, rfl, n, hn, rfl, hsig⟩⟩
    rw [State.emit_eq]; rfl

/-! ### A block of samples (`43_voice` R171) -/

/-- A property of the state that a sample keeps, and that neither the response nor the wait disturbs, is kept by a block
of samples. -/
theorem runBlock_keeps {P : State → Prop} (hs : ∀ b b' s s', P s → sampleStep b s = some (b', s') → P s')
    (hr : ∀ s, P s → P (s.respond 0#32)) (hw : ∀ b s, P s → P { s with inFlight := some b })
    (left : Nat) (b : Block) (s : State) (h : P s) : P (runBlock left b s) := by
  induction left generalizing b s with
  | zero => exact hr s h
  | succ left ih =>
    unfold runBlock
    cases he : sampleStep b s with
    | none => exact hw b s h
    | some p =>
      obtain ⟨b', s'⟩ := p
      exact ih b' s' (hs b b' s s' h he)

/-- What a block of samples leaves as it was. -/
theorem runBlock_frame (left : Nat) (b : Block) (s : State) :
    let t := runBlock left b s
    t.inited = s.inited ∧ t.resetPend = s.resetPend ∧ t.exfA = s.exfA ∧ t.lfoF0 = s.lfoF0 ∧
      t.attackMs = s.attackMs ∧ t.dampBase = s.dampBase ∧ t.modCur = s.modCur ∧ t.modPrev = s.modPrev ∧
      t.freq = s.freq ∧ t.modDepth = s.modDepth ∧ t.modCfg = s.modCfg ∧ t.phOfs = s.phOfs ∧ t.port = s.port ∧
      t.cfg = s.cfg := by
  have key := runBlock_keeps
    (P := fun t => t.inited = s.inited ∧ t.resetPend = s.resetPend ∧ t.exfA = s.exfA ∧ t.lfoF0 = s.lfoF0 ∧
      t.attackMs = s.attackMs ∧ t.dampBase = s.dampBase ∧ t.modCur = s.modCur ∧ t.modPrev = s.modPrev ∧
      t.freq = s.freq ∧ t.modDepth = s.modDepth ∧ t.modCfg = s.modCfg ∧ t.phOfs = s.phOfs ∧ t.port = s.port ∧
      t.cfg = s.cfg)
    (fun b b' u u' hu he => by
      obtain ⟨sig, y, z, bu, no, phi, rfl, -⟩ := sampleStep_state he
      exact hu)
    (fun u hu => hu) (fun b u hu => hu) left b s
  exact key ⟨rfl, rfl, rfl, rfl, rfl, rfl, rfl, rfl, rfl, rfl, rfl, rfl, rfl, rfl⟩

/-- The state before the first sample of a block: the line cleared if a reset was pending, the modulation pair shifted. -/
theorem State.openBlock_state (s : State) (frames : Nat) (hostTarget : Word) :
    (s.openBlock frames hostTarget).2 =
      { s.consumeReset with
        modPrev := s.modCur
        modCur := s.consumeReset.modTarget (s.draws + 1) hostTarget
        draws := s.draws + 8 } := by
  unfold State.openBlock State.consumeReset
  cases s.resetPend <;> rfl

theorem State.consumeReset_of_pending {s : State} (h : s.resetPend = true) :
    s.consumeReset = { s with buf := [], dlW := 0#32, resetPend := false } := by
  simp [State.consumeReset, h, State.clearLine]

theorem State.consumeReset_of_not_pending {s : State} (h : s.resetPend = false) : s.consumeReset = s := by
  simp [State.consumeReset, h]

end Sys2Proof.Machine
end

