-- ==== Sys2Proof/Machine/Assembler.lean ====
section
/-!
DEFINITION. The assembler syntax the spec recommends to tools (`30_encoding` R88) with the pseudo-instructions (R89):
one line of text to one packet. It is no part of the block; nothing of the machine uses it.
-/

namespace Sys2Proof.Assembler

/-- How a command reads an operand (`30_encoding` R82). -/
inductive Kind where
  | f32
  | u32
  | unused
deriving DecidableEq, Repr

/-- A written operand. -/
inductive Literal where
  /-- A decimal: `± digits / 10^places`. -/
  | decimal (negative : Bool) (digits places : Nat)
  /-- `0x` and hexadecimal digits: how many, and the number they write. -/
  | hex (width value : Nat)
deriving DecidableEq, Repr

/-- An f32 operand: a decimal real rounded to the nearest binary32, ties to even, or eight hexadecimal digits giving
the pattern (`30_encoding` R88). -/
def Literal.asF32 : Literal → Option Word
  | .decimal negative digits places => some (F32.pack negative (F32.roundMag (digits * 2 ^ 149) (10 ^ places)))
  | .hex width value => if width = 8 then some (BitVec.ofNat 32 value) else none

/-- A u32 operand: a decimal or hexadecimal integer that fits 32 bits (`30_encoding` R88). -/
def Literal.asU32 : Literal → Option Word
  | .decimal negative digits places =>
    if negative = false ∧ places = 0 ∧ digits < 2 ^ 32 then some (BitVec.ofNat 32 digits) else none
  | .hex _ value => if value < 2 ^ 32 then some (BitVec.ofNat 32 value) else none

/-- A written operand as the command reads it: "Whether a written operand is f32 or u32 is decided by the command ...,
never by the spelling" (`30_encoding` R88). -/
def Literal.read (k : Kind) (l : Literal) : Option Word :=
  match k with
  | .f32 => l.asF32
  | .u32 => l.asU32
  | .unused => none

/-- What a mnemonic stands for: an opcode with the kinds of its operands, or an index of `PARAM` with the kind of its
value (`30_encoding` R82, R83, R89). -/
inductive Entry where
  | command (opcode : Nat) (a b : Kind)
  | parameter (index : Nat) (value : Kind)
deriving DecidableEq, Repr

/-- The mnemonics of `30_encoding` R83 and the pseudo-instructions of R89. The second operand of `PARAM` is u32 when the
first is 4, see `assemble`. -/
def mnemonicTable : List (String × Entry) := [
  ("NOP", .command 0x00 .unused .unused),
  ("INIT", .command 0x01 .u32 .u32),
  ("PARAM", .command 0x02 .u32 .f32),
  ("NOTE_ON", .command 0x03 .f32 .unused),
  ("NOTE_OFF", .command 0x04 .unused .unused),
  ("PITCH", .command 0x05 .f32 .unused),
  ("PROCESS", .command 0x06 .u32 .f32),
  ("RDREG", .command 0x07 .u32 .unused),
  ("DL.WRITE", .command 0x10 .f32 .unused),
  ("DL.READX", .command 0x11 .u32 .unused),
  ("DL.READF", .command 0x12 .f32 .unused),
  ("DL.CLEAR", .command 0x13 .unused .unused),
  ("OP.SETC", .command 0x20 .f32 .unused),
  ("OP.PROC", .command 0x21 .f32 .unused),
  ("LFO.SETF", .command 0x30 .f32 .f32),
  ("LFO.RESET", .command 0x31 .unused .unused),
  ("LFO.ADV", .command 0x32 .unused .unused),
  ("LFO.SIN", .command 0x34 .unused .unused),
  ("LFO.TRI", .command 0x35 .unused .unused),
  ("LFO.SAW", .command 0x36 .unused .unused),
  ("LFO.SQR", .command 0x37 .unused .unused),
  ("LFO.SINO", .command 0x3C .f32 .unused),
  ("LFO.TRIO", .command 0x3D .f32 .unused),
  ("LFO.SAWO", .command 0x3E .f32 .unused),
  ("LFO.SQRO", .command 0x3F .f32 .unused),
  ("SHAPE", .parameter 0 .f32),
  ("SHIFTSHAPE", .parameter 1 .f32),
  ("ATTACK", .parameter 2 .f32),
  ("MODDEPTH", .parameter 3 .f32),
  ("MODCFG", .parameter 4 .u32),
  ("PHOFS", .parameter 5 .f32)]

/-- An operand, 0 where it is omitted (`30_encoding` R88). -/
def readOperand (k : Kind) : Option Literal → Option Word
  | none => some 0#32
  | some l => l.read k

/-- The packet of a mnemonic with its written operands (`30_encoding` R80, R88, R89). -/
def assemble (mnemonic : List Char) (ops : List Literal) : Option Packet :=
  if 2 < ops.length then none
  else
    match mnemonicTable.find? (fun e => e.1.toList = mnemonic) with
    | none => none
    | some (_, .command opcode ka kb) => do
      let a ← readOperand ka ops[0]?
      let b ← readOperand (if opcode = 0x02 ∧ a = 4#32 then .u32 else kb) ops[1]?
      some ⟨BitVec.ofNat 32 opcode, a, b⟩
    | some (_, .parameter index k) =>
      if 1 < ops.length then none
      else (readOperand k ops[0]?).map fun v => ⟨0x02#32, BitVec.ofNat 32 index, v⟩

/-! ### Text -/

/-- The value of a hexadecimal digit. -/
def hexDigit (c : Char) : Option Nat :=
  if '0' ≤ c ∧ c ≤ '9' then some (c.toNat - 48)
  else if 'A' ≤ c ∧ c ≤ 'F' then some (c.toNat - 55)
  else if 'a' ≤ c ∧ c ≤ 'f' then some (c.toNat - 87)
  else none

/-- A digit string in a base: the number written, or none where a character is no digit of the base. -/
def number (base : Nat) : Nat → List Char → Option Nat
  | n, [] => some n
  | n, c :: cs =>
    match hexDigit c with
    | some d => if d < base then number base (n * base + d) cs else none
    | none => none

/-- A decimal without its sign. -/
def decimalLiteral (negative : Bool) (cs : List Char) : Option Literal :=
  let whole := cs.takeWhile (· != '.')
  let rest := (cs.dropWhile (· != '.')).drop 1
  if whole ++ rest = [] then none
  else (number 10 0 (whole ++ rest)).map fun n => .decimal negative n rest.length

/-- A written operand. -/
def literal : List Char → Option Literal
  | '0' :: 'x' :: cs => if cs = [] then none else (number 16 0 cs).map fun n => .hex cs.length n
  | '-' :: cs => decimalLiteral true cs
  | cs => decimalLiteral false cs

/-- The words of a line: runs of characters that are no space, tab or comma. `word` is the run being read, reversed. -/
def splitLine (word : List Char) : List Char → List (List Char)
  | [] => if word = [] then [] else [word.reverse]
  | c :: cs =>
    if c = ' ' ∨ c = '\t' ∨ c = ',' then
      (if word = [] then splitLine [] cs else word.reverse :: splitLine [] cs)
    else splitLine (c :: word) cs

/-- One line to one packet; `;` starts a comment (`30_encoding` R88). None for an empty line and for one that is not in
the syntax. -/
def assembleLine (line : List Char) : Option Packet :=
  match splitLine [] (line.takeWhile (· != ';')) with
  | [] => none
  | m :: ops => (ops.mapM literal).bind (assemble m)

end Sys2Proof.Assembler
end

