-- ==== Sys2Proof/Tests/Slice0.lean ====
section
/-!
SUPPORT. Tests and witnesses. Expected values come from `95_test_vectors` (sections named at each group), from the
tables of `30_encoding` or by hand from the rules named, never from the model. A `witness_<Name>` theorem shows concrete
values that meet every hypothesis of `Obligations.<Name>`, with a value the spec gives for the conclusion where it gives
one.
-/

namespace Sys2Proof.Tests

open Sys2Proof Sys2Proof.Machine Sys2Proof.F32 Sys2Proof.Safety

set_option Elab.async false

/-! ### Small states -/

/-- The default configuration with `C = 8`, which most vectors use. -/
def c8 : Config := { Config.standard with log2c := 3 }

/-- The state after `INIT`, `C = 8`, no response yet. -/
def live : State := { State.reset with cfg := c8 }.initialise

/-- State A of vectors 2.3: five writes, 1.0 to 5.0. -/
def stateA : State :=
  { live with
    buf := [(0, 0x3F800000#32), (1, 0x40000000#32), (2, 0x40400000#32), (3, 0x40800000#32), (4, 0x40A00000#32)]
    dlW := 5#32 }

/-- State B of vectors 2.3: ten writes, 1.0 to 10.0. -/
def stateB : State :=
  { live with
    buf := [(0, 0x41100000#32), (1, 0x41200000#32), (2, 0x40400000#32), (3, 0x40800000#32), (4, 0x40A00000#32),
      (5, 0x40C00000#32), (6, 0x40E00000#32), (7, 0x41000000#32)]
    dlW := 2#32 }

/-- The voice as V1 of vectors 2.9 sets it up: length 4.0, the line 1.0, 0.0, 0.0, 0.0. -/
def sustain : State := { live with freq := 0x463B8000#32, buf := [(0, 0x3F800000#32)], dlW := 4#32 }

/-- The voice of program P1 before its `PROCESS`, with `words` of its noise words supplied. -/
def plucked (words : List Word) : State :=
  { live with exfA := 0x3F000000#32, attackMs := 0x3D800000#32, freq := 0x463B8000#32, burst := 3#32, resetPend := true,
              noise := words }

/-- The state after an outcome, `live` where there is none. -/
def after : Host.Outcome State Fault Refusal → State
  | .next s => s
  | .fault _ => live
  | .refused _ => live

/-- The one response a command gives on a state with none. -/
def answer (i : Instr) (s : State) : List Word := (after (exec i s)).resp

/-- The state with these packets waiting at the port. -/
def sent (ps : List Packet) (s : State) : State := { s with port := ps }

/-- The state with the phase set. -/
def atPhase (p : Word) : State := { live with lfoPhi := p }

/-! ### WellFormed: an ill-formed term for each check (`30_encoding` R81, R85; `10_state` R21) -/

theorem smoke_rsv : Packet.rsvClear ⟨0x00000106#32, 4#32, 0#32⟩ = false := by decide
theorem smoke_unit : Packet.unitAssigned ⟨0x00000040#32, 0#32, 0#32⟩ = false := by decide
theorem smoke_function_unit0 : Packet.functionAssigned ⟨0x00000008#32, 1#32, 2#32⟩ = false := by decide
theorem smoke_function_unit1 : Packet.functionAssigned ⟨0x00000014#32, 0#32, 0#32⟩ = false := by decide
theorem smoke_function_unit2 : Packet.functionAssigned ⟨0x00000022#32, 0#32, 0#32⟩ = false := by decide
theorem smoke_function_unit3 : Packet.functionAssigned ⟨0x0000003B#32, 0#32, 0#32⟩ = false := by decide
theorem smoke_packet : Packet.wellFormed ⟨0x80000001#32, 0#32, 0#32⟩ = false := by decide
theorem smoke_register : Instr.wellFormed (.rdreg 0x12#32) = false := by decide
theorem smoke_portable : portablePacket ⟨0x00000007#32, 0x12#32, 0#32⟩ = false := by decide

/-! ### Decoding: the packets of vectors 2.1, one for each command -/

theorem decode_system :
    decode ⟨0x00000000#32, 0#32, 0#32⟩ = .ok .nop ∧
    decode ⟨0x00000001#32, 0#32, 0#32⟩ = .ok (.init 0#32 0#32) ∧
    decode ⟨0x00000007#32, 0x0000000B#32, 0#32⟩ = .ok (.rdreg 0x0B#32) := by decide

theorem decode_voice :
    decode ⟨0x00000002#32, 0x00000000#32, 0x3E800000#32⟩ = .ok (.param 0#32 0x3E800000#32) ∧
    decode ⟨0x00000002#32, 0x00000004#32, 0x00000003#32⟩ = .ok (.param 4#32 3#32) ∧
    decode ⟨0x00000003#32, 0x42DC0000#32, 0#32⟩ = .ok (.noteOn 0x42DC0000#32) ∧
    decode ⟨0x00000004#32, 0#32, 0#32⟩ = .ok .noteOff ∧
    decode ⟨0x00000005#32, 0x435C0000#32, 0#32⟩ = .ok (.pitch 0x435C0000#32) ∧
    decode ⟨0x00000006#32, 0x00000004#32, 0x3E800000#32⟩ = .ok (.process 4#32 0x3E800000#32) := by decide

theorem decode_delay_line :
    decode ⟨0x00000010#32, 0x3F800000#32, 0#32⟩ = .ok (.dlWrite 0x3F800000#32) ∧
    decode ⟨0x00000011#32, 0x00000005#32, 0#32⟩ = .ok (.dlReadx 5#32) ∧
    decode ⟨0x00000012#32, 0x3FA00000#32, 0#32⟩ = .ok (.dlReadf 0x3FA00000#32) ∧
    decode ⟨0x00000013#32, 0#32, 0#32⟩ = .ok .dlClear := by decide

theorem decode_one_pole :
    decode ⟨0x00000020#32, 0x3F000000#32, 0#32⟩ = .ok (.opSetc 0x3F000000#32) ∧
    decode ⟨0x00000021#32, 0x3F800000#32, 0#32⟩ = .ok (.opProc 0x3F800000#32) := by decide

theorem decode_lfo :
    decode ⟨0x00000030#32, 0x3E000000#32, 0x3F800000#32⟩ = .ok (.lfoSetf 0x3E000000#32 0x3F800000#32) ∧
    decode ⟨0x00000031#32, 0#32, 0#32⟩ = .ok .lfoReset ∧
    decode ⟨0x00000032#32, 0#32, 0#32⟩ = .ok .lfoAdv ∧
    decode ⟨0x00000034#32, 0#32, 0#32⟩ = .ok .lfoSin ∧
    decode ⟨0x00000035#32, 0#32, 0#32⟩ = .ok .lfoTri ∧
    decode ⟨0x00000036#32, 0#32, 0#32⟩ = .ok .lfoSaw ∧
    decode ⟨0x00000037#32, 0#32, 0#32⟩ = .ok .lfoSqr ∧
    decode ⟨0x0000003C#32, 0x3E800000#32, 0#32⟩ = .ok (.lfoSino 0x3E800000#32) ∧
    decode ⟨0x0000003D#32, 0x3E800000#32, 0#32⟩ = .ok (.lfoTrio 0x3E800000#32) ∧
    decode ⟨0x0000003E#32, 0x3E800000#32, 0#32⟩ = .ok (.lfoSawo 0x3E800000#32) ∧
    decode ⟨0x0000003F#32, 0x3E800000#32, 0#32⟩ = .ok (.lfoSqro 0x3E800000#32) := by decide

/-- The reserved encodings of vectors 2.1, by name. -/
theorem decode_reserved :
    decode ⟨0x00000008#32, 1#32, 2#32⟩ = .error .unassignedFunction ∧
    decode ⟨0x00000106#32, 4#32, 0#32⟩ = .error .reservedBits ∧
    decode ⟨0x00000033#32, 0#32, 0#32⟩ = .error .unassignedFunction ∧
    decode ⟨0x00000040#32, 0#32, 0#32⟩ = .error .reservedUnit ∧
    decode ⟨0x80000001#32, 0#32, 0#32⟩ = .error .reservedBits ∧
    decode ⟨0xFFFFFFFF#32, 0#32, 0#32⟩ = .error .reservedBits := by decide

/-- The serialisation example of `30_encoding` R90: `DL.READF 1.25`, then a cut packet. -/
theorem decode_bytes :
    decodeBytes [0x12#8, 0#8, 0#8, 0#8, 0#8, 0#8, 0xA0#8, 0x3F#8, 0#8, 0#8, 0#8, 0#8, 0x04#8] =
      .ok (.dlReadf 0x3FA00000#32, [0x04#8]) ∧
    decodeBytes [0x12#8, 0#8, 0#8, 0#8] = .error .truncated ∧
    bytesOfWord 0x40980000#32 = [0x00#8, 0x00#8, 0x98#8, 0x40#8] := by decide +kernel

theorem table_words :
    decodeTableWord 32 0x12 = some (.dlReadf 0#32) ∧
    decodeTableWord 96 0x3FA0000000000012 = some (.dlReadf 0x3FA00000#32) ∧
    decodeTableWord 96 0x3E8000000000000400000006 = some (.process 4#32 0x3E800000#32) ∧
    decodeTableWord 32 0x33 = none := by decide +kernel

/-- Operand typing (`30_encoding` R88, vectors 2.1): the command decides, not the spelling; and a pseudo-instruction. -/
theorem assembler_operand_typing :
    Assembler.assembleLine ['D','L','.','R','E','A','D','X',' ','2'] = some ⟨0x11#32, 0x00000002#32, 0#32⟩ ∧
    Assembler.assembleLine ['D','L','.','R','E','A','D','F',' ','2'] = some ⟨0x12#32, 0x40000000#32, 0#32⟩ ∧
    Assembler.assembleLine ['S','H','A','P','E',' ','0','.','2','5'] = some (encode (Pseudo.expand (.shape 0x3E800000#32))) := by
  decide +kernel

/-! ### One step from the interface -/

/-- The step takes the packet that `withFetchWord` stands at the port: before `INIT` a `NOTE_ON` is ignored, an `INIT` is
not (`30_encoding` R87). -/
theorem step_withFetchWord :
    (after (step (State.reset.withFetchWord 32 0x03))).resp = [0#32] ∧
    (after (step (State.reset.withFetchWord 32 0x03))).inited = false ∧
    (after (step (State.reset.withFetchWord 32 0x01))).inited = true ∧
    (after (step (live.withFetchWord 32 0x34))).resp = [0x00000000#32] := by decide +kernel

/-- Streams at the interface (`20_memory` R66, R68; `30_encoding` R86). -/
theorem host_operations :
    (live.send ⟨0#32, 0#32, 0#32⟩).port.length = 1 ∧ (live.supply one).noise = [one] ∧
    (live.outPush one).takeOut = some (one, live) ∧ (live.respond two).takeResp = some (two, live) := by decide +kernel

/-! ### Encoding, port, gate -/

/-- Every command word up to 0x13F: decoded exactly where `30_encoding` R85 does not reserve it. -/
theorem test_decoder_boundaries : (List.range 0x140).all (fun n =>
    (match decode ⟨BitVec.ofNat 32 n, 0#32, 0#32⟩ with | .ok _ => true | .error _ => false) ==
      ((n < 0x08) || (0x10 ≤ n && n < 0x14) || (0x20 ≤ n && n < 0x22) || (0x30 ≤ n && n < 0x33) ||
        (0x34 ≤ n && n < 0x38) || (0x3C ≤ n && n < 0x40))) = true := by decide +kernel

/-- An operand word that a command does not use may hold anything (`30_encoding` R80, R82). -/
theorem test_ignored_operand_words :
    decode ⟨0x00#32, 1#32, 0xFFFFFFFF#32⟩ = .ok .nop ∧
    decode ⟨0x03#32, 0x42DC0000#32, 0xFFFFFFFF#32⟩ = .ok (.noteOn 0x42DC0000#32) ∧
    decode ⟨0x13#32, 0x7FC00000#32, 5#32⟩ = .ok .dlClear ∧
    decode ⟨0x3E#32, 0x3E800000#32, 7#32⟩ = .ok (.lfoSawo 0x3E800000#32) := by decide

theorem witness_StepExecutesTheDecodedCommand :
    (sent [⟨0x12#32, 0x3FA00000#32, 0#32⟩] stateA).inFlight = none ∧
    (sent [⟨0x12#32, 0x3FA00000#32, 0#32⟩] stateA).port = ⟨0x12#32, 0x3FA00000#32, 0#32⟩ :: [] ∧
    decode ⟨0x12#32, 0x3FA00000#32, 0#32⟩ = .ok (.dlReadf 0x3FA00000#32) ∧
    (after (step (sent [⟨0x12#32, 0x3FA00000#32, 0#32⟩] stateA))).resp = [0x40980000#32] := by decide +kernel

/-- Whether a packet with this command word is a no-operation with response 0 on the state after `INIT`. -/
def ignored (w : Word) : Bool := after (step (sent [⟨w, 4#32, 0#32⟩] live)) == live.respond 0#32

/-- The ends of each reserved range; the hypotheses at the first one. -/
theorem witness_ReservedEncodingIsNoOperation :
    (sent [⟨0x106#32, 4#32, 0#32⟩] live).inFlight = none ∧
    (sent [⟨0x106#32, 4#32, 0#32⟩] live).port = ⟨0x106#32, 4#32, 0#32⟩ :: [] ∧ (0x106#32).toNat / 256 ≠ 0 ∧
    [0x00000106#32, 0x80000001#32, 0x40#32, 0xFF#32].all ignored = true ∧
    [0x08#32, 0x0F#32, 0x14#32, 0x1F#32, 0x22#32, 0x2F#32].all ignored = true ∧
    [0x33#32, 0x38#32, 0x3B#32].all ignored = true := by decide +kernel

theorem witness_IdleBlockHoldsItsState : live.inFlight = none ∧ live.port = [] := by decide

/-- The gate of vectors 2.1: `NOTE_ON 110.0` before `INIT`. -/
theorem witness_CommandsBeforeInitAreIgnored :
    State.reset.inited = false ∧ (.noteOn 0x42DC0000#32 : Instr) ≠ .nop ∧
    answer (.noteOn 0x42DC0000#32) State.reset = [0#32] ∧
    (after (exec (.noteOn 0x42DC0000#32) State.reset)).freq = State.reset.freq := by decide +kernel

/-- The `PROCESS` of P1 with its packet at the port: all noise there, and one word missing. -/
def pluck (words : List Word) : State := sent [⟨0x06#32, 8#32, 0#32⟩] (plucked words)

/-- A command that completes, one that waits, and a waiting one that completes and one that goes on waiting. -/
theorem witness_OneResponsePerCompletedCommand :
    (pluck [one]).inFlight = none ∧ (pluck [one]).port = ⟨0x06#32, 8#32, 0#32⟩ :: [] ∧
    (after (step (pluck [one, negOne, half]))).resp = [0#32] ∧
    (after (step (pluck [one, negOne]))).resp = [] ∧ (after (step (pluck [one, negOne]))).inFlight.isSome = true ∧
    (after (step ((after (step (pluck [one, negOne]))).supply half))).resp = [0#32] ∧
    (after (step (after (step (pluck [one]))))).resp = [] := by decide +kernel

/-! ### System commands (vectors 2.2) -/

theorem test_init_registers :
    (List.range 0x13).map (fun n => answer (.rdreg (BitVec.ofNat 32 n)) State.reset.initialise) =
      [[0x00000001#32], [0#32], [0x3F600000#32], [0#32], [0#32], [0#32], [0x41200000#32], [0x3F000000#32], [0#32],
        [0#32], [0#32], [0#32], [0x43DC0000#32], [0#32], [0#32], [0#32], [0x00000400#32], [0x473B8000#32], [0#32]] := by
  decide +kernel

/-- Masked before `INIT`, at the ends of the ranges (vectors 2.1), and `STATUS` in program P1. -/
theorem test_rdreg_masked :
    [0x00#32, 0x08#32, 0x0F#32, 0x10#32, 0x11#32, 0x12#32, 0xFFFFFFFF#32].map
      (fun n => answer (.rdreg n) { State.reset with cfg := c8, burst := 9#32, phOfs := half }) =
      [[0#32], [0#32], [0#32], [8#32], [0x473B8000#32], [0#32], [0#32]] ∧
    answer (.rdreg 0#32) (plucked []) = [7#32] ∧ answer (.rdreg 0xFFFFFFFF#32) (plucked []) =
      [0#32] := by decide +kernel

theorem test_init_again : (after (exec (.init 7#32 8#32) (plucked []))) = (live.respond 0#32) := by decide +kernel

theorem witness_PowerOnState : (.pitch one : Instr) ≠ .nop ∧
answer (.pitch one) State.reset = [0#32] := by decide +kernel

/-! ### Parameters and notes (vectors 2.7) -/

theorem witness_ParamShapeSetsTheDamping : live.inited = true ∧
    [0x3E800000#32, 0x00000000#32, 0x3F800000#32, 0x7FC00000#32, 0xBF800000#32].map
      (fun v => (after (exec (.param 0#32 v) live)).dampBase) =
      [0x3F400000#32, 0x3F7FFFEF#32, 0x35880000#32, 0x3F7FFFEF#32, 0x3F7FFFEF#32] := by decide +kernel

theorem witness_ParamShiftShapeSetsThePole : live.inited = true ∧
    [0x3DCCCCCD#32, 0x3E800000#32, 0x3F800000#32, 0xBF800000#32].map
      (fun v => (after (exec (.param 1#32 v) live)).exfA) =
      [0x3E8AC086#32, 0x3F140000#32, 0x3F7FFFEF#32, 0x358637BD#32] := by decide +kernel

theorem witness_ParamAttackSetsTheAttackTime : live.inited = true ∧
    [0x3D800000#32, 0x44FA0000#32, 0xBF800000#32, 0x7FC00000#32].map
      (fun v => (after (exec (.param 2#32 v) live)).attackMs) =
      [0x3D800000#32, 0x447A0000#32, 0#32, 0#32] := by decide +kernel

theorem witness_ParamModulationRegisters : live.inited = true ∧
    (after (exec (.param 3#32 0x3FC00000#32) live)).modDepth = 0x3F800000#32 ∧
    (after (exec (.param 4#32 0xFFFFFFFF#32) live)).modCfg = 7#3 ∧ (after (exec (.param 4#32 8#32) live)).modCfg = 0#3 ∧
    (after (exec (.param 5#32 0x3F800000#32) live)).phOfs = 0x3F7FFFFF#32 := by decide +kernel

/-- The first and the last index that names nothing (`43_voice` R162). -/
theorem witness_ParamUnknownIndexIsIgnored : live.inited = true ∧ 6 ≤ (6#32).toNat ∧ 6 ≤ (0xFFFFFFFF#32).toNat ∧
    after (exec (.param 6#32 half) live) = live.respond 0#32 ∧
    after (exec (.param 0xFFFFFFFF#32 half) live) = live.respond 0#32 := by decide +kernel

/-- The burst table of vectors 2.7: 0.47999999, the half 1.5, and 4.8000002. -/
theorem witness_NoteOnStartsABurst : live.inited = true ∧
    [0x3C23D70A#32, 0x3D000000#32, 0x3DCCCCCD#32, 0x41200000#32, 0x447A0000#32].map
      (fun a => (after (exec (.noteOn 0x42DC0000#32) { live with attackMs := a })).burst.toNat) =
        [0, 2, 5, 480, 48000] ∧
    (after (exec (.noteOn 0x42DC0000#32) live)).freq = 0x42DC0000#32 ∧
    (after (exec (.noteOn 0x42DC0000#32) live)).resetPend = true := by decide +kernel

theorem witness_invariant : Invariant live :=
  ⟨by decide +kernel, by decide +kernel, by decide +kernel, by decide +kernel, by decide +kernel, by decide +kernel,
    by decide +kernel⟩

theorem witness_NoteOnBurstIsTheRoundedAttackTime :
    Invariant live ∧ live.inited = true ∧
      exec (.noteOn 0x42DC0000#32) live = .next (after (exec (.noteOn 0x42DC0000#32) live)) :=
  ⟨witness_invariant, rfl, rfl⟩

/-- `NOTE_OFF` during a burst of 100 (`43_voice` R169). -/
theorem witness_NoteOffChangesNothing : live.inited = true ∧
    (after (exec .noteOff { live with burst := 100#32 })).burst = 100#32 := by decide +kernel

theorem witness_PitchWritesTheFrequency : live.inited = true ∧
    (after (exec (.pitch 0x435C0000#32) live)).freq = 0x435C0000#32 := by decide +kernel

/-! ### Blocks (vectors 2.9 and part 3) -/

theorem witness_ProcessWithoutFramesIsNoOperation : (plucked []).inited = true ∧
    (after (exec (.process 0#32 half) (plucked []))).resetPend = true := by decide +kernel

/-- The first sample of V1: read 1.0, damped 0.5, clipped `3EF9C190`. Then the same with the line still to be cleared
and 1.0 in `LASTSIG`: read 0.0, damped 0.5; and with the host source and `WAVE` 3: the phase stays, the host's word is
the target. -/
theorem witness_ProcessOneIdleSample :
    sustain.inited = true ∧ sustain.burst = 0#32 ∧
    (after (exec (.process 1#32 0#32) sustain)).out = [0x3EF9C190#32, 0x3EF9C190#32] ∧
    (after (exec (.process 1#32 0#32) sustain)).lastSig = half ∧
    (after (exec (.process 1#32 0#32) { sustain with resetPend := true, lastSig := one })).out =
      [0x3EF9C190#32, 0x3EF9C190#32] ∧
    (after (exec (.process 1#32 half) { sustain with modCfg := 6#3, lfoF0 := half })).lfoPhi = zero ∧
    (after (exec (.process 1#32 half) { sustain with modCfg := 6#3, modDepth := one })).modCur = half := by decide +kernel

/-- The first sample of P1: the noise word 1.0 filtered to 0.5 over a cleared line (`43_voice` R178). -/
theorem witness_ProcessOneExcitedSampleAfterNoteOn :
    (plucked [one]).inited = true ∧ 0 < (plucked [one]).burst.toNat ∧ (plucked [one]).noise = one :: [] ∧
    (after (exec (.process 1#32 0#32) (plucked [one]))).out = [0x3EF9C190#32, 0x3EF9C190#32] ∧
    (after (exec (.process 1#32 0#32) (plucked [one]))).burst = 2#32 := by decide +kernel

/-- The second sample of P1, its burst in progress and no reset pending: the noise word -1.0 filtered to -0.25, the
signal 0.25 - 0.25. -/
theorem test_process_burst_in_progress :
    let s := { plucked [negOne] with
      resetPend := false, burst := 2#32, exfZ := half, lastSig := half, buf := [(0, 0x3EF9C190#32)], dlW := 1#32 }
    let t := after (exec (.process 1#32 0#32) s)
    t.exfZ = 0xBE800000#32 ∧ t.lastSig = zero ∧ t.burst = 1#32 ∧ t.out = [zero, zero] := by decide +kernel

/-- The ramp (`43_voice` R174, R175, R180), by hand: towards 0.5 in two samples, so the damping is 0.5 and then 0.75; over
a cleared line `LASTSIG` goes from 1.0 to 0.5 and to 0.25 of that. -/
theorem test_process_ramp :
    (after (exec (.process 2#32 half) { live with freq := 0x463B8000#32, lastSig := one })).lastSig = 0x3E000000#32 := by
  decide +kernel

/-- The voice of program P4 before a `PROCESS`, with `MOD_CFG` and the phase given. -/
def modulated (cfg : BitVec 3) (phase : Word) : State :=
  { live with lfoF0 := 0x3E000000#32, modDepth := quarter, modCfg := cfg, phOfs := 0x3E000000#32, lfoPhi := phase }

/-- Program P4: the two blocks. -/
theorem test_process_internal_triangle :
    let t := after (exec (.process 4#32 0#32) (modulated 3#3 zero))
    let u := after (exec (.process 4#32 0#32) { modulated 3#3 half with modCur := 0x3E000000#32 })
    t.lfoPhi = half ∧ t.modCur = 0x3E000000#32 ∧ u.lfoPhi = zero ∧ u.modCur = 0xBE000000#32 ∧
      u.modPrev = 0x3E000000#32 := by decide +kernel

/-- The other internal waveforms, by hand from `43_voice` R173 and `42_lfo` R136, R137: `0.25 · Saw(0.125) = -0.1875`,
`0.25 · Sqr(0.125) = 0.25`, `0.25 · SIN2PI(0.125 + 0.125) = 0.25`. -/
theorem test_process_internal_waves :
    (after (exec (.process 1#32 0#32) (modulated 5#3 zero))).modCur = 0xBE400000#32 ∧
    (after (exec (.process 1#32 0#32) (modulated 7#3 zero))).modCur = quarter ∧
    (after (exec (.process 1#32 0#32) (modulated 1#3 0x3E000000#32))).modCur = quarter := by decide +kernel

/-- V2, a fractional length, as one block of four samples. -/
theorem test_process_fractional :
    (after (exec (.process 4#32 0#32) { live with freq := 0x46960000#32, buf := [(0, one)], dlW := 3#32 })).out =
      [0x3E7CD6E9#32, 0x3E7CD6E9#32, 0x3DFE68F1#32, 0x3DFE68F1#32, 0x3DFCD965#32, 0x3DFCD965#32, 0x3E1D65A4#32,
        0x3E1D65A4#32] := by decide +kernel

/-- A block shorter than the line and longer than the burst, so that both memory clauses have offsets (`k = C` among
them) and the trace has exciting and idle samples; and a block of the internal source. -/
theorem witness_ProcessCompletesTheBlock :
    (plucked [one, negOne, half]).inited = true ∧ (plucked [one, negOne, half]).inFlight = none ∧
    (plucked [one, negOne, half]).cfg.WellFormed ∧ Memory.wf (plucked [one, negOne, half]).buf = true ∧
    0 < (4#32).toNat ∧ min (plucked [one, negOne, half]).burst.toNat (4#32).toNat ≤ (plucked [one, negOne, half]).noise.length ∧
    4 < (plucked [one, negOne, half]).capacity ∧
    (modulated 3#3 zero).inited = true ∧ (modulated 3#3 zero).inFlight = none ∧ (modulated 3#3 zero).cfg.WellFormed ∧
    Memory.wf (modulated 3#3 zero).buf = true ∧ (modulated 3#3 zero).burst = 0#32 := by decide +kernel

theorem witness_ProcessWaitsForAMissingNoiseWord :
    (plucked [one]).inited = true ∧ (plucked [one]).inFlight = none ∧
    (plucked [one]).noise.length < min (plucked [one]).burst.toNat (8#32).toNat ∧
    (plucked [one]).cfg.WellFormed ∧ Memory.wf (plucked [one]).buf = true := by decide +kernel

/-- A block that waits in its second sample. -/
def waiting : State := after (exec (.process 8#32 0#32) (plucked [one]))

/-- The first row of P1 is done, and nothing of the second. -/
theorem test_process_waiting_state :
    waiting.out = [0x3EF9C190#32, 0x3EF9C190#32] ∧ waiting.buf = [(0, 0x3EF9C190#32)] ∧ waiting.cursor = 1 ∧
    waiting.exfZ = half ∧ waiting.lastSig = half ∧ waiting.burst = 2#32 := by decide +kernel

theorem witness_WaitingBlockIsStuckWithoutNoise :
    ∃ b, waiting.inFlight = some b ∧ b.j < b.frames ∧ 0 < waiting.burst.toNat ∧ waiting.noise = [] :=
  ⟨⟨0x40800000#32, 0#32, 0#32, 1, 8⟩, by decide +kernel⟩

theorem witness_LateNoiseGivesTheSameBlock :
    (plucked [one]).inFlight = none ∧ exec (.process 8#32 0#32) (plucked [one]) =
      .next waiting ∧ waiting.inFlight ≠ none :=
  ⟨by decide +kernel, rfl, by decide +kernel⟩

/-- The length table of vectors 2.8 for `C = 8`: above, at, inside and below the bounds, zeros, an infinity. -/
theorem witness_LengthAndDampingAreAlwaysLegal : live.cfg.WellFormed ∧
    [0x42DC0000#32, 0x45BB8000#32, 0x46960000#32, 0x46EA6000#32, 0x00000000#32, 0x80000000#32, 0x7F800000#32].map
      (fun f => { live with freq := f }.stringLength 0) =
      [0x41000000#32, 0x41000000#32, 0x40200000#32, 0x40000000#32, 0x41000000#32, 0x40000000#32, 0x40000000#32] := by decide +kernel

theorem toRat_one : toRat one = 1 := by
  unfold toRat; rw [show signedUnits one = 2 ^ 149 by decide +kernel]; norm_num

theorem toRat_one_ne_zero : toRat one ≠ 0 := by rw [toRat_one]; norm_num

theorem toRat_zero : toRat zero = 0 := by
  unfold toRat; rw [show signedUnits zero = 0 by decide +kernel]; norm_num

/-- The regime of the two statements about bounded voices, right after `INIT`. -/
theorem witness_bounded (words : List Word) (h : words.all (fun w => within negOne w one) = true) :
    Claims.Bounded { live with noise := words } := by
  have hz : |toRat zero| < 20000005 / 1000000 := by rw [toRat_zero]; norm_num
  have hf : isFinite zero = true := by decide +kernel
  refine ⟨rfl, fun a => ⟨hf, hz⟩, hf, ?_, hf, ?_, h⟩
  · show |toRat zero| ≤ 2
    rw [toRat_zero]; norm_num
  · show |toRat zero| ≤ 2 ^ 22
    rw [toRat_zero]; norm_num

theorem witness_TameNoiseKeepsTheOutputBounded :
    Invariant { live with noise := [one] } ∧ { live with noise := [one] }.inited = true ∧
    Claims.Bounded { live with noise := [one] } ∧ live.cfg.kClip = 0x3D4CCCCD#32 ∧
    exec (.process 1#32 half) { live with noise := [one] } =
      .next (after (exec (.process 1#32 half) { live with noise := [one] })) :=
  ⟨⟨by decide +kernel, by decide +kernel, by decide +kernel, by decide +kernel, by decide +kernel, by decide +kernel,
    by decide +kernel⟩, rfl, witness_bounded [one] (by decide +kernel), rfl, rfl⟩

theorem witness_FlatBlocksCanBeSplit :
    Invariant live ∧ live.inited = true ∧ Claims.Bounded live ∧ live.inFlight = none ∧ live.resetPend = false ∧
    live.internalSource = false ∧ zero = live.modCur ∧ isFinite zero = true ∧ 0 < (2#32).toNat ∧ 0 < (3#32).toNat ∧
    (2#32).toNat + (3#32).toNat < 2 ^ 32 ∧ min live.burst.toNat ((2#32).toNat + (3#32).toNat) ≤ live.noise.length ∧
    exec (.process 2#32 zero) live = .next (after (exec (.process 2#32 zero) live)) :=
  ⟨witness_invariant, rfl, witness_bounded [] (by decide +kernel), rfl, rfl, by decide +kernel, rfl, by decide +kernel,
    by decide, by decide, by decide, by decide +kernel, rfl⟩

/-- The soft clip of vectors 2.6. -/
theorem witness_SoftClipIsOdd : isFinite one = true ∧ isFinite 0x3D4CCCCD#32 = true ∧ flt zero 0x3D4CCCCD#32 = true ∧
    [0x80000000#32, 0x3F800000#32, 0xBF800000#32, 0x3EE00000#32, 0x000116C2#32].map (softClip 0 0x3D4CCCCD#32) =
      [0x80000000#32, 0x3F73CF3E#32, 0xBF73CF3E#32, 0x3EDB3474#32, 0x000116C2#32] := by decide +kernel

theorem witness_SoftClipIsBounded : isFinite 0x7F61B1E6#32 = true ∧
    softClip 0 0x3D4CCCCD#32 0x7F61B1E6#32 = 0x41A00000#32 := by decide +kernel

/-! ### Delay line (vectors 2.3) -/

/-- A write at the wrap: `DL_W = 7` goes to 0. -/
theorem witness_DlWriteStoresAndAdvances :
    { live with dlW := 7#32 }.inited = true ∧ { live with dlW := 7#32 }.cfg.WellFormed ∧
    Memory.wf { live with dlW := 7#32 }.buf = true ∧
    (after (exec (.dlWrite 0x40200000#32) { live with dlW := 7#32 })).buf = [(7, 0x40200000#32)] ∧
    (after (exec (.dlWrite 0x40200000#32) { live with dlW := 7#32 })).dlW = 0#32 := by decide +kernel

theorem witness_DlReadxAnswersTheWrappedSlot : stateA.inited = true ∧
    [1#32, 5#32, 0#32, 7#32, 8#32, 9#32, 0xFFFFFFFF#32].map (fun k => answer (.dlReadx k) stateA) =
      [[0x40A00000#32], [0x3F800000#32], [0#32], [0#32], [0#32], [0x40A00000#32], [0#32]] := by decide +kernel

theorem witness_DlReadfInterpolates : stateB.inited = true ∧
    [0x3F800000#32, 0x40200000#32, 0x40F00000#32, 0x41000000#32, 0x3F000000#32, 0x7F800000#32, 0xBF800000#32,
        0x7FC00000#32].map (fun x => answer (.dlReadf x) stateB) =
      [[0x41200000#32], [0x41080000#32], [0x40600000#32], [0x40400000#32], [0x40D00000#32], [0x40400000#32],
        [0x40400000#32], [0x40400000#32]] := by decide +kernel

theorem witness_DlClearZeroesTheLine : stateB.inited = true ∧
    after (exec .dlClear stateB) = live.respond 0#32 := by decide +kernel

theorem witness_ClearedLineReadsZero :
    stateB.inited = true ∧ stateB.cfg.WellFormed ∧ exec .dlClear stateB = .next (after (exec .dlClear stateB)) :=
  ⟨rfl, by decide +kernel, rfl⟩

/-- The integer delay at its upper end, `k = C`. -/
theorem witness_IntegerDelayReadsTheSample :
    stateB.cfg.WellFormed ∧ 8 ≤ stateB.capacity ∧ isFinite (stateB.memRead (stateB.slot 8)) = true ∧
    isFinite (stateB.memRead (stateB.slot 9)) = true ∧
    isFinite (fsub 1 (stateB.memRead (stateB.slot 9)) (stateB.memRead (stateB.slot 8))) = true := by decide +kernel

/-- A clear and two writes at the port: offsets 1 and 2 are written, 3 to 8 are not. -/
def rewriting : State := sent [⟨0x13#32, 0#32, 0#32⟩, ⟨0x10#32, one, 0#32⟩, ⟨0x10#32, two, 0#32⟩] stateB

theorem witness_LineHoldsTheMostRecentSamples :
    rewriting.inited = true ∧ rewriting.inFlight = none ∧ rewriting.cfg.WellFormed ∧
    rewriting.port = encode .dlClear :: [one, two].map (fun x => encode (.dlWrite x)) := by decide +kernel

/-! ### One-pole filter (vectors 2.4, S3) -/

theorem witness_OpSetcClampsTheCoefficient : live.inited = true ∧
    [0x40000000#32, 0x7F800000#32, 0x00000000#32, 0xC0400000#32, 0x7FC00000#32, 0x3E800000#32].map
      (fun c => (after (exec (.opSetc c) live)).exfA) =
      [0x3F7FFFEF#32, 0x3F7FFFEF#32, 0x358637BD#32, 0x358637BD#32, 0x358637BD#32, 0x3E800000#32] := by decide +kernel

theorem witness_OpProcFiltersTheSample : live.inited = true ∧
    answer (.opProc one) { live with exfA := quarter, exfZ := 0x3E800000#32 } = [0x3EE00000#32] ∧
    (after (exec (.opProc one) { live with exfA := quarter, exfZ := 0x3E800000#32 })).exfZ = 0x3EE00000#32 := by
  decide +kernel

/-! ### LFO (vectors 2.5) -/

theorem witness_LfoSetfClampsTheProduct : live.inited = true ∧
    [(0x45BB8000#32, 0x37AEC33E#32), (0x473B8000#32, 0x3F800000#32), (0x3E99999A#32, 0x3F800000#32),
        (0xC0A00000#32, 0x3F800000#32)].map (fun a => (after (exec (.lfoSetf a.1 a.2) live)).lfoF0) =
      [0x3E000000#32, 0x3F000000#32, 0x3E99999A#32, 0x00000000#32] := by decide +kernel

theorem witness_LfoResetZeroesThePhase : (atPhase half).inited = true ∧
    (after (exec .lfoReset (atPhase half))).lfoPhi = 0#32 := by decide +kernel

/-- Below, at and above the wrap. -/
theorem witness_LfoAdvAdvancesThePhase : live.inited = true ∧
    [(0x3F000000#32, 0x3E000000#32), (0x3F600000#32, 0x3E000000#32), (0x3F666667#32, 0x3E99999A#32)].map
      (fun a => (after (exec .lfoAdv { live with lfoPhi := a.1, lfoF0 := a.2 })).lfoPhi) =
      [0x3F200000#32, 0x00000000#32, 0x3E4CCCD0#32] := by decide +kernel

theorem witness_PhasesStayPhases : isPhase Config.phiMax = true ∧ within zero half half = true ∧
    shiftPhase 0 Config.phiMax two = 0x3F7FFFFE#32 ∧ shiftPhase 0 threeQuarters quarter = 0#32 := by decide +kernel

theorem witness_LfoSinAnswersTheSine : live.inited = true ∧ isPhase threeQuarters = true ∧
    answer .lfoSin (atPhase threeQuarters) = [0xBF800000#32] := by decide +kernel

/-- The waveform table, at the breakpoints and inside the pieces. -/
theorem witness_LfoShapesAtThePhase : live.inited = true ∧
    [0x3E000000#32, 0x3E800000#32, 0x3EC00000#32, 0x3F400000#32, 0x3F600000#32, 0x3F7FFFFF#32].map
      (fun p => answer .lfoTri (atPhase p)) =
      [[0x3F000000#32], [0x3F800000#32], [0x3F000000#32], [0xBF800000#32], [0xBF000000#32], [0xB4800000#32]] ∧
    [0x00000000#32, 0x3E000000#32, 0x3F7FFFFF#32].map (fun p => answer .lfoSaw (atPhase p)) =
      [[0xBF800000#32], [0xBF400000#32], [0x3F7FFFFE#32]] ∧
    [0x3EC00000#32, 0x3F000000#32].map (fun p => answer .lfoSqr (atPhase p)) = [[0x3F800000#32], [0xBF800000#32]] := by
  decide +kernel

theorem witness_LfoShapesAreBipolar : isPhase 0x3DCCCCCD#32 = true ∧ triWave 0 0x3DCCCCCD#32 = 0x3ECCCCCD#32 ∧
    sawWave 0 0x3DCCCCCD#32 = 0xBF4CCCCD#32 := by decide +kernel

theorem witness_LfoOffsetVariantsShiftThePhase : (atPhase half).inited = true ∧
    answer (.lfoSino quarter) (atPhase half) = [0xBF800000#32] ∧
    answer (.lfoTrio quarter) (atPhase half) = [0xBF800000#32] ∧
    answer (.lfoSawo quarter) (atPhase half) = [0x3F000000#32] ∧
    answer (.lfoSqro quarter) (atPhase half) = [0xBF800000#32] ∧
    answer (.lfoSawo quarter) (atPhase threeQuarters) = [0xBF800000#32] := by decide +kernel

/-! ### The whole machine -/

theorem witness_EveryStepKeepsTheInvariant : Invariant live ∧ step live = .next live := ⟨witness_invariant, rfl⟩

theorem witness_StreamsAreFirstInFirstOut : step (pluck [one]) = .next (after (step (pluck [one]))) := rfl

theorem witness_OnlyTheListedCommandsWrite :
    exec (.pitch one) live = .next (after (exec (.pitch one) live)) ∧
    (.pitch one : Instr).opcode ∉ [0x01#32, 0x06#32, 0x10#32, 0x13#32] ∧
    exec (.process 4#32 zero) live = .next (after (exec (.process 4#32 zero) live)) ∧
    (.process 4#32 zero : Instr).opcode = 0x06#32 ∧ live.internalSource = false :=
  ⟨rfl, by decide, rfl, rfl, by decide +kernel⟩

/-- Two blocks that differ in what `70_reset_and_hazards` R230 leaves unspecified, with an `INIT` at the port. -/
theorem witness_PowerOnContentIsUnobservable :
    let s₁ := sent [⟨1#32, 0#32, 0#32⟩] State.reset
    let s₂ := sent [⟨1#32, 0#32, 0#32⟩] { State.reset with burst := 7#32, buf := [(3, one)], freq := two }
    s₁ ≠ s₂ ∧ s₁.inited = false ∧ s₂.inited = false ∧ s₁.inFlight = none ∧ s₂.inFlight = none ∧
    s₁.port = s₂.port ∧ s₁.resp = s₂.resp ∧ s₁.out = s₂.out ∧ s₁.noise = s₂.noise ∧ s₁.cfg = s₂.cfg ∧
    s₁.draws = s₂.draws ∧ after (step s₁) = after (step s₂) ∧ (after (step s₁)).inited = true := by decide +kernel

/-! ### Numerics (`00_scope` R6 to R9; vectors 2.2, S1) -/

theorem witness_PrimitivesAreCorrectlyRounded :
    isFinite 0x3FA66666#32 = true ∧ isFinite one = true ∧ toRat one ≠ 0 :=
  ⟨by decide +kernel, by decide +kernel, toRat_one_ne_zero⟩

/-- Vectors S1, 2.2 and 2.5: rounded, exact, a tie to even, an inexact quotient. -/
theorem test_primitives :
    fsub 0 0x3FA66666#32 one = 0x3E999998#32 ∧ fsub 0 one Config.eps = Config.oneMEps ∧
    fadd 0 threeQuarters Config.phiMax = 0x3FE00000#32 ∧ fadd 0 Config.phiMax Config.phiMax = 0x3FFFFFFF#32 ∧
    fdiv 0 0x473B8000#32 0x42DC0000#32 = 0x43DA2E8C#32 := by decide +kernel

/-- The special operands of each clause (`00_scope` R7 (b), (c); vectors 2.4): a NaN, infinities of both signs, zeros of
both signs, a finite value that is not zero. -/
theorem witness_InvalidOperationsGiveNaN :
    isNaN 0x7FC00000#32 = true ∧ isInf 0x7F800000#32 = true ∧ isInf 0xFF800000#32 = true ∧
    signBit 0x7F800000#32 ≠ signBit 0xFF800000#32 ∧ toRat zero = 0 ∧ isFinite one = true ∧ toRat one ≠ 0 :=
  ⟨by decide +kernel, by decide +kernel, by decide +kernel, by decide +kernel, toRat_zero, by decide +kernel,
    toRat_one_ne_zero⟩

/-- A finite value over a zero of either sign, and over an infinity (`43_voice` R172: the quotients behind `FREQ = +0`,
`-0` and infinite). -/
theorem test_special_quotients :
    fdiv 0 0x473B8000#32 zero = 0x7F800000#32 ∧ fdiv 0 0x473B8000#32 negZero = 0xFF800000#32 ∧
    fdiv 0 0x473B8000#32 0x7F800000#32 = zero ∧ fdiv 0 0x473B8000#32 0xFF800000#32 = negZero := by decide +kernel

theorem witness_IntegerConversions :
    2 ^ 24 + 3 < 2 ^ 32 ∧ 2 ^ 24 ≤ 2 ^ 24 ∧ isFinite one = true ∧ 0 ≤ toRat one :=
  ⟨by decide, by decide, by decide +kernel, by rw [toRat_one]; norm_num⟩

/-- `round_u32` at a half and above 2^32, `u2f` above 2^24, `floor_i` below an integer. -/
theorem test_integer_conversions :
    roundU32 0x3FC00000#32 = 2#32 ∧ roundU32 0x4F800000#32 = 0xFFFFFFFF#32 ∧ u2f 1024 = 0x44800000#32 ∧
    u2f (2 ^ 24 + 1) = 0x4B800000#32 ∧ u2f (2 ^ 24 + 3) = 0x4B800002#32 ∧ floorI 0x3FFFFFFF#32 = 1 := by
  decide +kernel

/-- Each clause of the clamp; a negative zero at a lower bound of `+0` stays (`00_scope` R9). -/
theorem witness_ClampAnswersWithinItsBounds : fle zero one = true ∧
    [0x7FC00000#32, 0xFF800000#32, 0x7F800000#32, 0x80000000#32, 0x3F000000#32].map (fun x => clamp zero x one) =
      [zero, zero, one, negZero, half] := by decide +kernel

end Sys2Proof.Tests
end

section
/-!
PROOFS. The numerics of `00_scope` R5 to R9: rounding to a pattern answers the nearest binary32 with ties to even, and
what each primitive does with finite, infinite and NaN operands.
-/

namespace Sys2Proof.F32

open Sys2Proof.Claims

/-! ### Comparisons (R6) -/

/-- Without a NaN, at or above is not below. -/
theorem fge_iff_not_flt {a b : Word} (ha : isNaN a = false) (hb : isNaN b = false) :
    fge a b = true ↔ ¬ flt a b = true := by
  rw [fge, fle_iff hb ha, flt_iff ha hb, not_lt]

/-! ### A magnitude with a sign -/

/-- The number of this magnitude, with the sign that a sign bit gives it. -/
def withSign (s : Bool) (x : ℚ) : ℚ := if s then -x else x

theorem toRat_eq_withSign (w : Word) : toRat w = withSign (signBit w) (units w) / 2 ^ 149 := by
  unfold toRat signedUnits withSign
  split <;> simp

theorem withSign_mul (s t : Bool) (x y : ℚ) : withSign s x * withSign t y = withSign (s != t) (x * y) := by
  cases s <;> cases t <;> simp [withSign]

theorem withSign_div (s t : Bool) (x y : ℚ) : withSign s x / withSign t y = withSign (s != t) (x / y) := by
  cases s <;> cases t <;> simp [withSign, neg_div, div_neg]

theorem withSign_mul_right (s : Bool) (x c : ℚ) : withSign s (x * c) = withSign s x * c := by
  cases s <;> simp [withSign]

theorem abs_withSign (s : Bool) {x : ℚ} (hx : 0 ≤ x) : |withSign s x| = x := by
  cases s <;> simp [withSign, abs_of_nonneg hx]

/-- Numbers of the same sign are as far apart as their magnitudes. -/
theorem abs_withSign_sub (s : Bool) (x y : ℚ) : |withSign s x - withSign s y| = |x - y| := by
  cases s
  · rfl
  · rw [abs_sub_comm x y]; simp only [withSign, if_true]; congr 1; ring

/-- A number of the other sign is at least as far away as zero is. -/
theorem abs_le_abs_withSign_sub {s t : Bool} (hst : s ≠ t) {x y : ℚ} (hx : 0 ≤ x) (hy : 0 ≤ y) :
    |0 - y| ≤ |withSign s x - withSign t y| := by
  rw [zero_sub, abs_neg, abs_of_nonneg hy]
  cases s <;> cases t <;> simp only [withSign, ne_eq, not_true_eq_false, if_true, Bool.false_eq_true, if_false] at *
  · exact le_abs.mpr (.inl (by linarith))
  · exact le_abs.mpr (.inr (by linarith))

theorem toRat_flipSign (a : Word) : toRat (flipSign a) = -toRat a := by
  unfold toRat signedUnits units
  rw [signBit_flipSign, magBits_flipSign]
  cases signBit a <;> simp [neg_div]

/-- A value that is not negative is its units, whatever its sign bit. -/
theorem toRat_of_nonneg {x : Word} (h : 0 ≤ toRat x) : toRat x = (units x : ℚ) / 2 ^ 149 := by
  unfold toRat signedUnits at *
  split
  · next hs =>
    rw [if_pos hs] at h
    have : (units x : ℚ) ≤ 0 := by
      rw [le_div_iff₀ (by positivity)] at h; push_cast at h; linarith
    have : units x = 0 := Nat.le_zero.mp (by exact_mod_cast this)
    simp [this]
  · simp

/-! ### The nearest pattern -/

/-- The higher of two numbers is the nearer one exactly from their midpoint on. -/
theorem higher_nearer_iff {a b x : ℚ} (hab : a < b) : |b - x| ≤ |a - x| ↔ a + b ≤ 2 * x := by
  rw [← sq_le_sq]
  constructor <;> intro h <;> nlinarith

/-- The lower of two numbers is the nearer one exactly up to their midpoint. -/
theorem lower_nearer_iff {a b x : ℚ} (hab : a < b) : |a - x| ≤ |b - x| ↔ 2 * x ≤ a + b := by
  rw [← sq_le_sq]
  constructor <;> intro h <;> nlinarith

/-- Of all patterns, those beyond the infinity's read as a wider exponent range, `p` is nearest to `num / den` units,
and even where another one is as near; said of the midpoints, without division. -/
structure IsNearestPattern (num den p : ℕ) : Prop where
  above : ∀ r, p < r →
    2 * num ≤ (magUnits p + magUnits r) * den ∧ (2 * num = (magUnits p + magUnits r) * den → p % 2 = 0)
  below : ∀ r, r < p →
    (magUnits r + magUnits p) * den ≤ 2 * num ∧ ((magUnits r + magUnits p) * den = 2 * num → p % 2 = 0)

/-- What `roundMag` computes before an overflow is made an infinity. -/
def roundedPattern (num den : ℕ) : ℕ :=
  excess (num / den) * 2 ^ 23 + divNearestEven num (den * 2 ^ excess (num / den))

theorem roundMag_eq_min (num den : ℕ) : roundMag num den = min (roundedPattern num den) infMag := rfl

theorem roundMag_of_lt {num den : ℕ} (h : roundMag num den < infMag) : roundedPattern num den = roundMag num den := by
  rw [roundMag_eq_min] at *; omega

/-- A quotient truncated to 24 significant bits: it has a significand of a pattern. -/
theorem truncated_bounds (num den : ℕ) :
    num / (den * 2 ^ excess (num / den)) < 2 ^ 24 ∧
      (excess (num / den) = 0 ∨ 2 ^ 23 ≤ num / (den * 2 ^ excess (num / den))) := by
  rw [← Nat.div_div_eq_div_mul]
  refine ⟨Nat.div_lt_of_lt_mul (by rw [Nat.mul_comm]; exact lt_excess _), ?_⟩
  rcases Nat.eq_zero_or_pos (excess (num / den)) with h | h
  · exact .inl h
  · exact .inr ((Nat.le_div_iff_mul_le (by positivity)).mpr (excess_pos h).2)

/-- Rounding answers the nearest pattern. The truncated quotient and its successor are neighbouring patterns `c` and
`c + 1` around `num / den`, and the remainder says on which side of their midpoint it lies. -/
theorem isNearestPattern_roundedPattern (num : ℕ) {den : ℕ} (hd : 0 < den) :
    IsNearestPattern num den (roundedPattern num den) := by
  obtain ⟨hQ, he⟩ := truncated_bounds num den
  unfold roundedPattern divNearestEven
  generalize excess (num / den) = e at *
  have hdiv := Nat.div_add_mod' num (den * 2 ^ e)
  have hmod := Nat.mod_lt num (show 0 < den * 2 ^ e by positivity)
  generalize num / (den * 2 ^ e) = Q at *
  generalize num % (den * 2 ^ e) = rem at *
  have hc : magUnits (e * 2 ^ 23 + Q) * den = Q * (den * 2 ^ e) := by
    rw [magUnits_eq hQ he]; ring
  have hc' : magUnits (e * 2 ^ 23 + (Q + 1)) * den = Q * (den * 2 ^ e) + den * 2 ^ e := by
    rw [magUnits_carry (by omega) (by omega)]; ring
  have hle : ∀ {p r}, p ≤ r → magUnits p * den ≤ magUnits r * den := fun h =>
    Nat.mul_le_mul_right _ (magUnits_le_iff.mpr h)
  have hlt : ∀ {p r}, p < r → magUnits p * den < magUnits r * den := fun h =>
    Nat.mul_lt_mul_of_pos_right (magUnits_strictMono h) hd
  have down (h : 2 * rem ≤ den * 2 ^ e) (h' : 2 * rem = den * 2 ^ e → Q % 2 = 0) :
      IsNearestPattern num den (e * 2 ^ 23 + Q) := by
    refine ⟨fun r hr => ?_, fun r hr => ?_⟩ <;> rw [Nat.add_mul]
    · have := hle (show e * 2 ^ 23 + (Q + 1) ≤ r by omega)
      omega
    · have := hlt hr
      omega
  have up (h : den * 2 ^ e ≤ 2 * rem) (h' : den * 2 ^ e = 2 * rem → Q % 2 = 1) :
      IsNearestPattern num den (e * 2 ^ 23 + (Q + 1)) := by
    refine ⟨fun r hr => ?_, fun r hr => ?_⟩ <;> rw [Nat.add_mul]
    · have := hlt hr
      omega
    · have := hle (show r ≤ e * 2 ^ 23 + Q by omega)
      omega
  dsimp only
  split
  · exact down (by omega) (by omega)
  · split
    · exact up (by omega) (by omega)
    · rcases Nat.mod_two_eq_zero_or_one Q with hQ2 | hQ2 <;> rw [hQ2]
      · exact down (by omega) (fun _ => hQ2)
      · exact up (by omega) (fun _ => hQ2)

namespace IsNearestPattern

variable {num den p : ℕ}

theorem abs_sub_le (h : IsNearestPattern num den p) (hd : 0 < den) (r : ℕ) :
    |(magUnits p : ℚ) - num / den| ≤ |(magUnits r : ℚ) - num / den| := by
  have hd' : (0 : ℚ) < den := by exact_mod_cast hd
  rcases Nat.lt_trichotomy r p with hr | rfl | hr
  · rw [higher_nearer_iff (by exact_mod_cast magUnits_strictMono hr), ← mul_div_assoc, le_div_iff₀ hd']
    exact_mod_cast (h.below r hr).1
  · exact le_rfl
  · rw [lower_nearer_iff (by exact_mod_cast magUnits_strictMono hr), ← mul_div_assoc, div_le_iff₀ hd']
    exact_mod_cast (h.above r hr).1

theorem even_of_tie (h : IsNearestPattern num den p) (hd : 0 < den) {r : ℕ} (hr : r ≠ p)
    (htie : |(magUnits r : ℚ) - num / den| ≤ |(magUnits p : ℚ) - num / den|) : p % 2 = 0 := by
  have hd' : (0 : ℚ) < den := by exact_mod_cast hd
  rcases Nat.lt_or_gt_of_ne hr with hr | hr
  · rw [lower_nearer_iff (by exact_mod_cast magUnits_strictMono hr), ← mul_div_assoc, div_le_iff₀ hd'] at htie
    obtain ⟨hle, heven⟩ := h.below r hr
    exact heven (le_antisymm hle (by exact_mod_cast htie))
  · rw [higher_nearer_iff (by exact_mod_cast magUnits_strictMono hr), ← mul_div_assoc, le_div_iff₀ hd'] at htie
    obtain ⟨hle, heven⟩ := h.above r hr
    exact heven (le_antisymm hle (by exact_mod_cast htie))

/-- The overflow threshold is the midpoint between the largest finite pattern, which is odd, and the infinity's. -/
theorem lt_infMag_iff (h : IsNearestPattern num den p) (hd : 0 < den) :
    p < infMag ↔ num < (2 ^ 25 - 1) * 2 ^ 252 * den := by
  have hinf : magUnits infMag = 2 ^ 23 * 2 ^ 254 := by decide
  have hmax : magUnits (infMag - 1) = (2 ^ 24 - 1) * 2 ^ 253 := by decide
  constructor
  · intro hp
    obtain ⟨hle, heven⟩ := h.above infMag hp
    rw [Nat.add_mul, hinf] at hle heven
    rcases (Nat.le_sub_one_of_lt hp).lt_or_eq with hlt | heq
    · have := Nat.mul_lt_mul_of_pos_right (magUnits_strictMono hlt) hd
      rw [hmax] at this
      omega
    · have hodd : p % 2 = 1 := by rw [heq]; decide
      rw [heq, hmax] at hle heven
      omega
  · intro hnum
    by_contra hp
    have hle := (h.below (infMag - 1) (by unfold infMag at *; omega)).1
    have := Nat.mul_le_mul_right den (magUnits_le_iff.mpr (Nat.le_of_not_lt hp))
    rw [Nat.add_mul, hmax] at hle
    rw [hinf] at this
    omega

end IsNearestPattern

/-- Rounding overflows exactly at and beyond the overflow threshold (R7 (b)). -/
theorem roundMag_lt_infMag_iff (num : ℕ) {den : ℕ} (hd : 0 < den) :
    roundMag num den < infMag ↔ num < (2 ^ 25 - 1) * 2 ^ 252 * den := by
  rw [← (isNearestPattern_roundedPattern num hd).lt_infMag_iff hd, roundMag_eq_min]
  simp

/-! ### Correct rounding of a packed result (R6, R7) -/

theorem toNat_pack_mod_two (s : Bool) (m : ℕ) : (pack s m).toNat % 2 = m % 2 := by
  cases s <;> simp only [pack, BitVec.toNat_ofNat, if_true, if_false, Bool.false_eq_true] <;> omega

theorem toRat_pack {s : Bool} {m : ℕ} (hm : m < 2 ^ 31) : toRat (pack s m) = withSign s (magUnits m) / 2 ^ 149 := by
  rw [toRat_eq_withSign, signBit_pack hm, units, magBits_pack hm]

theorem abs_div_sub_div (x y : ℚ) : |x / 2 ^ 149 - y / 2 ^ 149| = |x - y| / 2 ^ 149 := by
  rw [← sub_div, abs_div, abs_of_pos (show (0 : ℚ) < 2 ^ 149 by positivity)]

/-- The nearest pattern with a sign is the nearest word. A word of the other sign is no nearer than zero, which is the
pattern 0 of the same sign. -/
theorem isNearestEven_pack {num den p : ℕ} (s : Bool) (h : IsNearestPattern num den p) (hd : 0 < den)
    (hp : p < infMag) : IsNearestEven (withSign s (num / den) / 2 ^ 149) (pack s p) := by
  have hp' : p < 2 ^ 31 := hp.trans (by decide)
  have hx : (0 : ℚ) ≤ num / den := by positivity
  have hzero : (magUnits 0 : ℚ) = 0 := by simp
  have hcases (v : Word) :
      (signBit v = s ∧
        |withSign (signBit v) (units v) - withSign s (num / den)| = |(magUnits (magBits v) : ℚ) - num / den|) ∨
      |(magUnits 0 : ℚ) - num / den| ≤ |withSign (signBit v) (units v) - withSign s (num / den)| := by
    by_cases hs : signBit v = s
    · exact .inl ⟨hs, by rw [hs, abs_withSign_sub, units]⟩
    · exact .inr (by rw [hzero]; exact abs_le_abs_withSign_sub hs (by positivity) hx)
  unfold IsNearestEven
  simp only [toNat_pack_mod_two, toRat_pack hp', toRat_eq_withSign _, abs_div_sub_div, abs_withSign_sub,
    div_le_div_iff_of_pos_right (show (0 : ℚ) < 2 ^ 149 by positivity),
    div_left_inj' (show (2 : ℚ) ^ 149 ≠ 0 by positivity)]
  refine ⟨fun v _ => ?_, fun v _ htie hne => ?_⟩
  · rcases hcases v with ⟨-, hv⟩ | hv
    · rw [hv]; exact h.abs_sub_le hd _
    · exact (h.abs_sub_le hd 0).trans hv
  · rcases hcases v with ⟨hs, hv⟩ | hv
    · refine h.even_of_tie hd (r := magBits v) (fun he => hne ?_) (by rw [← hv, htie])
      rw [hs, units, he]
    · rcases eq_or_ne p 0 with rfl | hp0
      · rfl
      · exact h.even_of_tie hd hp0.symm (htie ▸ hv)

/-- A packed rounding is the correctly rounded value of its sign and its quotient of units. -/
theorem isCorrectlyRounded_pack_roundMag (s : Bool) (num : ℕ) {den : ℕ} (hd : 0 < den) :
    IsCorrectlyRounded (withSign s (num / den) / 2 ^ 149) (pack s (roundMag num den)) := by
  have hiff := roundMag_lt_infMag_iff num hd
  have hd' : (0 : ℚ) < den := by exact_mod_cast hd
  have hthreshold : (num : ℚ) / den / 2 ^ 149 < (2 ^ 25 - 1) * 2 ^ 103 ↔ num < (2 ^ 25 - 1) * 2 ^ 252 * den := by
    rw [div_lt_iff₀ (by positivity), div_lt_iff₀ hd',
      show ((2 : ℚ) ^ 25 - 1) * 2 ^ 103 * 2 ^ 149 = ((2 ^ 25 - 1) * 2 ^ 252 : ℕ) by norm_num]
    exact_mod_cast Iff.rfl
  rw [← hiff] at hthreshold
  by_cases hlt : roundMag num den < infMag
  · have hnear := isNearestPattern_roundedPattern num hd
    rw [roundMag_of_lt hlt] at hnear
    refine .inl ⟨by simpa [isFinite, magBits_pack_roundMag] using hlt, ?_, isNearestEven_pack s hnear hd hlt⟩
    rw [abs_div, abs_withSign s (by positivity), abs_of_pos (show (0 : ℚ) < 2 ^ 149 by positivity)]
    exact hthreshold.mpr hlt
  · have hge := le_of_not_gt (mt hthreshold.mp hlt)
    rw [show roundMag num den = infMag from le_antisymm (roundMag_le _ _) (le_of_not_gt hlt)]
    cases s
    · exact .inr (.inl ⟨isInf_pack_infMag _, signBit_pack_infMag _, hge⟩)
    · refine .inr (.inr ⟨isInf_pack_infMag _, signBit_pack_infMag _, ?_⟩)
      simp only [withSign, if_true, neg_div]
      exact neg_le_neg hge

/-! ### The primitives on finite operands -/

section Finite

variable {a b : Word}

/-- A sum of finite operands is the exact sum of units, rounded; which zero an exact zero is, the signs decide. -/
theorem fadd_of_finite (t : ℕ) (ha : isFinite a = true) (hb : isFinite b = true) :
    ∃ s, fadd t a b = pack s (roundMag (signedUnits a + signedUnits b).natAbs 1) ∧
      withSign s (signedUnits a + signedUnits b).natAbs = (signedUnits a + signedUnits b : ℤ) := by
  obtain ⟨ha1, ha2⟩ := isFinite_iff.mp ha
  obtain ⟨hb1, hb2⟩ := isFinite_iff.mp hb
  simp only [fadd, ha1, ha2, hb1, hb2, Bool.or_self, Bool.false_eq_true, if_false]
  generalize signedUnits a + signedUnits b = z
  split
  · next hz =>
    subst hz
    rw [Int.natAbs_zero, roundMag_zero]
    refine ⟨signBit a && signBit b, by cases signBit a <;> cases signBit b <;> rfl, ?_⟩
    unfold withSign; split <;> simp
  · refine ⟨decide (z < 0), rfl, ?_⟩
    by_cases hz : z < 0
    · simp [withSign, hz, abs_of_neg, Nat.cast_natAbs]
    · simp [withSign, hz, abs_of_nonneg (le_of_not_gt hz), Nat.cast_natAbs]

theorem fmul_of_finite (t : ℕ) (ha : isFinite a = true) (hb : isFinite b = true) :
    fmul t a b = pack (signBit a != signBit b) (roundMag (units a * units b) (2 ^ 149)) := by
  obtain ⟨ha1, ha2⟩ := isFinite_iff.mp ha
  obtain ⟨hb1, hb2⟩ := isFinite_iff.mp hb
  simp [fmul, ha1, ha2, hb1, hb2]

theorem fdiv_of_finite (t : ℕ) (ha : isFinite a = true) (hb : isFinite b = true) (h0 : units b ≠ 0) :
    fdiv t a b = pack (signBit a != signBit b) (roundMag (units a * 2 ^ 149) (units b)) := by
  obtain ⟨ha1, ha2⟩ := isFinite_iff.mp ha
  obtain ⟨hb1, hb2⟩ := isFinite_iff.mp hb
  simp [fdiv, ha1, ha2, hb1, hb2, h0]

theorem isCorrectlyRounded_fadd (t : ℕ) (ha : isFinite a = true) (hb : isFinite b = true) :
    IsCorrectlyRounded (toRat a + toRat b) (fadd t a b) := by
  obtain ⟨s, hs, hz⟩ := fadd_of_finite t ha hb
  have := isCorrectlyRounded_pack_roundMag s (signedUnits a + signedUnits b).natAbs Nat.one_pos
  rwa [Nat.cast_one, div_one, hz, ← hs, Int.cast_add, add_div] at this

theorem isCorrectlyRounded_fsub (t : ℕ) (ha : isFinite a = true) (hb : isFinite b = true) :
    IsCorrectlyRounded (toRat a - toRat b) (fsub t a b) := by
  rw [sub_eq_add_neg, ← toRat_flipSign]
  exact isCorrectlyRounded_fadd t ha (by rwa [isFinite_flipSign])

theorem isCorrectlyRounded_fmul (t : ℕ) (ha : isFinite a = true) (hb : isFinite b = true) :
    IsCorrectlyRounded (toRat a * toRat b) (fmul t a b) := by
  have hq : toRat a * toRat b =
      withSign (signBit a != signBit b) ((units a * units b : ℕ) / (2 ^ 149 : ℕ)) / 2 ^ 149 := by
    rw [toRat_eq_withSign a, toRat_eq_withSign b, div_mul_div_comm, withSign_mul, Nat.cast_mul,
      div_eq_mul_inv _ ((2 ^ 149 : ℕ) : ℚ), withSign_mul_right _ (_ * _)]
    push_cast
    ring
  rw [hq, fmul_of_finite t ha hb]
  exact isCorrectlyRounded_pack_roundMag _ _ (by positivity)

theorem isCorrectlyRounded_fdiv (t : ℕ) (ha : isFinite a = true) (hb : isFinite b = true) (h0 : toRat b ≠ 0) :
    IsCorrectlyRounded (toRat a / toRat b) (fdiv t a b) := by
  have hu : units b ≠ 0 := mt toRat_eq_zero.mpr h0
  have hq : toRat a / toRat b =
      withSign (signBit a != signBit b) ((units a * 2 ^ 149 : ℕ) / units b) / 2 ^ 149 := by
    rw [toRat_eq_withSign a, toRat_eq_withSign b, div_div_div_cancel_right₀ (by positivity), withSign_div, Nat.cast_mul,
      mul_div_right_comm, withSign_mul_right]
    push_cast
    ring
  rw [hq, fdiv_of_finite t ha hb hu]
  exact isCorrectlyRounded_pack_roundMag _ _ (Nat.pos_of_ne_zero hu)

end Finite

/-! ### The integer conversions (R8) -/

/-- An integer that is a significand below 2^24, or twice one, is converted exactly. -/
theorem toRat_u2f_of_significand {m j : ℕ} (hm : m < 2 ^ 24) (hj : j ≤ 1) : toRat (u2f (m * 2 ^ j)) = m * 2 ^ j := by
  have hfit : roundMag (m * 2 ^ (j + 149)) 1 < infMag := by
    rw [roundMag_lt_infMag_iff _ Nat.one_pos, Nat.mul_one]
    calc m * 2 ^ (j + 149) ≤ 2 ^ 24 * 2 ^ (1 + 149) :=
          Nat.mul_le_mul hm.le (Nat.pow_le_pow_right (by norm_num) (by omega))
      _ < (2 ^ 25 - 1) * 2 ^ 252 := by norm_num
  rw [u2f, Nat.mul_assoc, ← pow_add, toRat_pack (roundMag_lt _ _), roundMag_exact hm hfit]
  simp only [withSign, Bool.false_eq_true, if_false]
  push_cast
  rw [pow_add, ← mul_assoc, mul_div_cancel_right₀ _ (by positivity)]

theorem toRat_u2f_of_le {n : ℕ} (hn : n ≤ 2 ^ 24) : toRat (u2f n) = n := by
  rcases hn.lt_or_eq with hn | rfl
  · simpa using toRat_u2f_of_significand hn (Nat.zero_le 1)
  · rw [show 2 ^ 24 = 2 ^ 23 * 2 ^ 1 by norm_num, toRat_u2f_of_significand (by norm_num) le_rfl]
    norm_num

theorem isCorrectlyRounded_u2f (n : ℕ) : IsCorrectlyRounded n (u2f n) := by
  have hq : (n : ℚ) = withSign false ((n * 2 ^ 149 : ℕ) / (1 : ℕ)) / 2 ^ 149 := by
    norm_num [withSign]
  rw [hq]
  exact isCorrectlyRounded_pack_roundMag false _ Nat.one_pos

theorem floorI_eq_floor {x : Word} (h : 0 ≤ toRat x) : (floorI x : ℤ) = ⌊toRat x⌋ := by
  have hq : toRat x = (units x : ℚ) / (2 ^ 149 : ℕ) := by rw [toRat_of_nonneg h]; norm_num
  rw [hq, Rat.floor_natCast_div_natCast, floorI, Int.natCast_ediv]

/-- `round_u32` of a value that is not negative: the integer part of the exact sum with a half, saturated. -/
theorem toNat_roundU32 {x : Word} (hx : isFinite x = true) (h : 0 ≤ toRat x) :
    (roundU32 x).toNat = min ((2 * units x + 2 ^ 149) / 2 ^ 150) (2 ^ 32 - 1) := by
  obtain ⟨hnan, hinf⟩ := isFinite_iff.mp hx
  have hge : fge x zero = true := by
    rw [fge, fle_iff (by decide) hnan, toRat_eq_zero.mpr (by decide)]; exact h
  simp only [roundU32, hge, hinf, if_true, Bool.false_eq_true, if_false, BitVec.toNat_ofNat]
  exact Nat.mod_eq_of_lt (by omega)

theorem roundU32_eq_floor {x : Word} (hx : isFinite x = true) (h : 0 ≤ toRat x) :
    ((roundU32 x).toNat : ℤ) = min ⌊toRat x + 1 / 2⌋ (2 ^ 32 - 1) := by
  have hq : toRat x + 1 / 2 = ((2 * units x + 2 ^ 149 : ℕ) : ℚ) / (2 ^ 150 : ℕ) := by
    rw [toRat_of_nonneg h]; push_cast; ring
  rw [toNat_roundU32 hx h, hq, Rat.floor_natCast_div_natCast, ← Int.natCast_ediv, Nat.cast_min]
  rfl

/-! ### The primitives on NaNs and infinities (R7) -/

section Special

variable {a b : Word}

theorem fadd_of_nan (t : ℕ) (h : isNaN a = true ∨ isNaN b = true) : fadd t a b = nan t := by
  rcases h with h | h <;> simp [fadd, h]

theorem fmul_of_nan (t : ℕ) (h : isNaN a = true ∨ isNaN b = true) : fmul t a b = nan t := by
  rcases h with h | h <;> simp [fmul, h]

theorem fdiv_of_nan (t : ℕ) (h : isNaN a = true ∨ isNaN b = true) : fdiv t a b = nan t := by
  rcases h with h | h <;> simp [fdiv, h]

theorem isNaN_of_isInf (h : isInf a = true) : isNaN a = false := by
  rcases classify a with ⟨-, h', -⟩ | ⟨h', -, -⟩ | ⟨-, h', -⟩ <;> simp_all

/-- Infinities have no value, but the units of their pattern are not 0. -/
theorem units_ne_zero_of_isInf (h : isInf a = true) : units a ≠ 0 := by
  intro h0
  simp [isInf, magBits_of_units h0, infMag] at h

theorem isFinite_of_units (h : units a = 0) : isFinite a = true := by
  simp [isFinite, magBits_of_units h, infMag]

/-- An infinity absorbs every operand that is no NaN and not the opposite infinity. -/
theorem fadd_of_inf_left (t : ℕ) (ha : isInf a = true) (hb : isNaN b = false)
    (h : isInf b = true → signBit a = signBit b) : fadd t a b = a := by
  have hsign : (isInf b && (signBit a != signBit b)) = false := by
    cases hb' : isInf b <;> simp [h, hb']
  simp [fadd, isNaN_of_isInf ha, hb, ha, hsign]

theorem fadd_of_inf_right (t : ℕ) (ha : isFinite a = true) (hb : isInf b = true) : fadd t a b = b := by
  obtain ⟨ha1, ha2⟩ := isFinite_iff.mp ha
  simp [fadd, ha1, ha2, isNaN_of_isInf hb, hb]

/-- Opposite infinities cancel to a NaN. -/
theorem fadd_of_opposite_inf (t : ℕ) (ha : isInf a = true) (hb : isInf b = true) (h : signBit a ≠ signBit b) :
    fadd t a b = nan t := by
  simp [fadd, isNaN_of_isInf ha, isNaN_of_isInf hb, ha, hb, h]

theorem fmul_comm (t : ℕ) (a b : Word) : fmul t a b = fmul t b a := by
  simp only [fmul, Bool.or_comm (isNaN b), bne_comm (a := signBit b), Nat.mul_comm (units b)]
  split
  · rfl
  · cases ha : isInf a <;> cases hb : isInf b <;>
      simp [units_ne_zero_of_isInf, ha, hb]

theorem fmul_inf_of_units_eq_zero (t : ℕ) (ha : isInf a = true) (hb : units b = 0) : fmul t a b = nan t := by
  simp [fmul, ha, hb]

theorem fmul_inf_of_units_ne_zero (t : ℕ) (ha : isInf a = true) (hn : isNaN b = false) (hb : units b ≠ 0) :
    fmul t a b = pack (signBit a != signBit b) infMag := by
  simp [fmul, isNaN_of_isInf ha, hn, ha, hb]

theorem fdiv_inf_inf (t : ℕ) (ha : isInf a = true) (hb : isInf b = true) : fdiv t a b = nan t := by
  simp [fdiv, ha, hb]

theorem fdiv_inf_finite (t : ℕ) (ha : isInf a = true) (hb : isFinite b = true) :
    fdiv t a b = pack (signBit a != signBit b) infMag := by
  obtain ⟨hb1, hb2⟩ := isFinite_iff.mp hb
  simp [fdiv, isNaN_of_isInf ha, hb1, ha, hb2]

theorem fdiv_finite_inf (t : ℕ) (ha : isFinite a = true) (hb : isInf b = true) :
    fdiv t a b = pack (signBit a != signBit b) 0 := by
  obtain ⟨ha1, ha2⟩ := isFinite_iff.mp ha
  simp [fdiv, isNaN_of_isInf hb, ha1, ha2, hb]

theorem fdiv_zero_zero (t : ℕ) (ha : units a = 0) (hb : units b = 0) : fdiv t a b = nan t := by
  obtain ⟨ha1, ha2⟩ := isFinite_iff.mp (isFinite_of_units ha)
  obtain ⟨hb1, hb2⟩ := isFinite_iff.mp (isFinite_of_units hb)
  simp [fdiv, ha1, ha2, hb1, hb2, ha, hb]

theorem fdiv_finite_zero (t : ℕ) (ha : isFinite a = true) (h0 : units a ≠ 0) (hb : units b = 0) :
    fdiv t a b = pack (signBit a != signBit b) infMag := by
  obtain ⟨ha1, ha2⟩ := isFinite_iff.mp ha
  obtain ⟨hb1, hb2⟩ := isFinite_iff.mp (isFinite_of_units hb)
  simp [fdiv, ha1, ha2, hb1, hb2, h0, hb]

end Special

/-! ### The obligations of the numerics -/

/-- Settles O57: each primitive packs a sign with a rounded quotient of units, and that rounding is correct. -/
theorem primitivesAreCorrectlyRounded : Obligations.PrimitivesAreCorrectlyRounded := by
  unfold Obligations.PrimitivesAreCorrectlyRounded
  intro t a b ha hb
  refine ⟨isCorrectlyRounded_fadd t ha hb, isCorrectlyRounded_fsub t ha hb, isCorrectlyRounded_fmul t ha hb,
    isCorrectlyRounded_fdiv t ha hb, ?_, fun h0 => ?_⟩
  · rw [fmul_of_finite t ha hb, signBit_pack_roundMag]
  · rw [fdiv_of_finite t ha hb (mt toRat_eq_zero.mpr h0), signBit_pack_roundMag]

/-- Settles O59, conversion by conversion: `u2f` is a packed rounding, and the other two divide the units. -/
theorem integerConversions : Obligations.IntegerConversions := by
  unfold Obligations.IntegerConversions
  exact ⟨fun n _ => isCorrectlyRounded_u2f n, fun _ => toRat_u2f_of_le, fun _ _ => floorI_eq_floor,
    fun _ => roundU32_eq_floor⟩

/-- Settles O58, clause by clause from the primitives' answers to NaNs, infinities and zeros; a difference is the sum
with the second sign inverted. -/
theorem invalidOperationsGiveNaN : Obligations.InvalidOperationsGiveNaN := by
  unfold Obligations.InvalidOperationsGiveNaN
  intro t a b
  refine ⟨fun hnan => ?_, fun ha hb => ⟨?_, fun hs => ?_, fun hs => ?_⟩, fun ha hb => ?_, fun ha hb => ?_,
    fun ha hb => ?_, fun ha hb => ?_, fun ha h0 hb => ?_⟩
  · have hnan' : isNaN a = true ∨ isNaN (flipSign b) = true := by rwa [isNaN_flipSign]
    simp [fsub, fadd_of_nan t hnan, fadd_of_nan t hnan', fmul_of_nan t hnan, fdiv_of_nan t hnan]
  · simp [fdiv_inf_inf t ha hb]
  · have hsub : signBit a = signBit (flipSign b) := by
      rw [signBit_flipSign]; exact Bool.eq_not.mpr hs
    refine ⟨by simp [fadd_of_opposite_inf t ha hb hs], fadd_of_inf_left t ha ?_ fun _ => hsub⟩
    rw [isNaN_flipSign, isNaN_of_isInf hb]
  · have hsub : signBit a ≠ signBit (flipSign b) := by
      rw [signBit_flipSign]; exact Bool.eq_not.not.mpr (not_not.mpr hs)
    refine ⟨?_, fadd_of_inf_left t ha (isNaN_of_isInf hb) fun _ => hs⟩
    simp [fsub, fadd_of_opposite_inf t ha (by rwa [isInf_flipSign]) hsub]
  · have hmul := fmul_inf_of_units_eq_zero t ha (toRat_eq_zero.mp hb)
    simp [fmul_comm t b a, hmul]
  · simp [fdiv_zero_zero t (toRat_eq_zero.mp ha) (toRat_eq_zero.mp hb)]
  · obtain ⟨hb1, hb2⟩ := isFinite_iff.mp hb
    have hflip : isInf (flipSign a) = true := by rwa [isInf_flipSign]
    have hzero : (0 : ℕ) < 2 ^ 31 := by norm_num
    rw [fdiv_inf_finite t ha hb, fdiv_finite_inf t hb ha]
    refine ⟨fadd_of_inf_left t ha hb1 (by simp [hb2]), fadd_of_inf_right t hb ha,
      fadd_of_inf_left t ha (by rwa [isNaN_flipSign]) (by simp [isInf_flipSign, hb2]),
      fadd_of_inf_right t hb hflip, isInf_pack_infMag _, signBit_pack_infMag _, ?_, ?_, signBit_pack hzero⟩
    · simp [isFinite, magBits_pack hzero, infMag]
    · simp [toRat_eq_zero, units, magBits_pack hzero]
  · obtain ⟨hn, hb0⟩ : isNaN b = false ∧ units b ≠ 0 := by
      rcases hb with hb | ⟨hb, h0⟩
      · exact ⟨isNaN_of_isInf hb, units_ne_zero_of_isInf hb⟩
      · exact ⟨(isFinite_iff.mp hb).1, mt toRat_eq_zero.mpr h0⟩
    rw [fmul_comm t b a, fmul_inf_of_units_ne_zero t ha hn hb0]
    exact ⟨isInf_pack_infMag _, isInf_pack_infMag _, signBit_pack_infMag _, by rw [signBit_pack_infMag, bne_comm]⟩
  · rw [fdiv_finite_zero t ha (mt toRat_eq_zero.mpr h0) (toRat_eq_zero.mp hb)]
    exact ⟨isInf_pack_infMag _, signBit_pack_infMag _⟩

/-- Settles O60: each clause picks its branch of the clamp; a value above `hi` is not below `lo`, since `lo ≤ hi`. -/
theorem clampAnswersWithinItsBounds : Obligations.ClampAnswersWithinItsBounds := by
  unfold Obligations.ClampAnswersWithinItsBounds
  intro lo x hi hle
  obtain ⟨hlo, hhi⟩ := fle_not_nan hle
  refine ⟨clamp_nan, fun hlt => ?_, fun hgt => ?_, fun hx hge hngt => ?_⟩
  · have hx := (flt_not_nan hlt).1
    have : fge x lo = false := by simp [Bool.eq_false_iff, fge_iff_not_flt hx hlo, hlt]
    simp [clamp, this]
  · have hx := (flt_not_nan hgt).2
    have hlox : fge x lo = true := by
      rw [fle_iff hlo hhi] at hle
      rw [flt_iff hhi hx] at hgt
      exact (fle_iff hlo hx).mpr (hle.trans hgt.le)
    simp [clamp, fgt, hlox, hgt]
  · have : fge x lo = true := by simp [fge_iff_not_flt hx hlo, hge]
    simp [clamp, fgt, this, hngt]

end Sys2Proof.F32
end

section
/-!
PROOFS. The binary32 sum and difference are monotone in their operands (`00_scope` R6), so that the range of a result
follows from the results at the ends of the operands' ranges.
-/

namespace Sys2Proof.F32

variable {a b c d : Word}

theorem fle_iff_orderKey : fle a b = true ↔ isNaN a = false ∧ isNaN b = false ∧ orderKey a ≤ orderKey b := by
  simp [fle, and_assoc]

theorem fle_trans (hab : fle a b = true) (hbc : fle b c = true) : fle a c = true := by
  rw [fle_iff_orderKey] at *
  obtain ⟨ha, -, hab⟩ := hab
  obtain ⟨-, hc, hbc⟩ := hbc
  exact ⟨ha, hc, hab.trans hbc⟩

theorem isFinite_iff_orderKey : isFinite a = true ↔ -infMag < orderKey a ∧ orderKey a < infMag := by
  simp only [isFinite, orderKey, decide_eq_true_eq]
  split <;> omega

/-- A word between two finite words is finite. -/
theorem isFinite_of_between {lo x hi : Word} (hlo : isFinite lo = true) (hhi : isFinite hi = true)
    (h1 : fle lo x = true) (h2 : fle x hi = true) : isFinite x = true := by
  rw [isFinite_iff_orderKey] at *
  obtain ⟨-, -, hlox⟩ := fle_iff_orderKey.mp h1
  obtain ⟨-, -, hxhi⟩ := fle_iff_orderKey.mp h2
  omega

theorem orderKey_flipSign (a : Word) : orderKey (flipSign a) = -orderKey a := by
  rw [orderKey, orderKey, magBits_flipSign, signBit_flipSign]
  cases signBit a <;> simp

theorem fle_flipSign (h : fle a b = true) : fle (flipSign b) (flipSign a) = true := by
  obtain ⟨ha, hb, hab⟩ := fle_iff_orderKey.mp h
  rw [fle_iff_orderKey, isNaN_flipSign, isNaN_flipSign, orderKey_flipSign, orderKey_flipSign]
  exact ⟨hb, ha, by omega⟩

/-- The order key of the word that an exact sum of `z` units of 2^-149 is rounded to. -/
def roundKey (z : ℤ) : ℤ := if z < 0 then -(roundMag z.natAbs 1 : ℤ) else roundMag z.natAbs 1

theorem roundKey_mono : Monotone roundKey := by
  intro z w hzw
  unfold roundKey
  split <;> split
  · have : roundMag w.natAbs 1 ≤ roundMag z.natAbs 1 := roundMag_mono (by omega)
    omega
  · omega
  · omega
  · have : roundMag z.natAbs 1 ≤ roundMag w.natAbs 1 := roundMag_mono (by omega)
    omega

/-- A sum of finite operands is no NaN, and it is the exact sum rounded. -/
theorem fadd_orderKey (t : ℕ) (ha : isFinite a = true) (hb : isFinite b = true) :
    isNaN (fadd t a b) = false ∧ orderKey (fadd t a b) = roundKey (signedUnits a + signedUnits b) := by
  obtain ⟨s, hs, hz⟩ := fadd_of_finite t ha hb
  generalize signedUnits a + signedUnits b = z at *
  rw [hs]
  refine ⟨isNaN_pack_roundMag _ _ _, ?_⟩
  simp only [orderKey, signBit_pack_roundMag, magBits_pack_roundMag, roundKey]
  cases s
  · have hz : ((z.natAbs : ℤ) : ℚ) = z := hz
    have : (z.natAbs : ℤ) = z := by exact_mod_cast hz
    simp [show ¬ z < 0 by omega]
  · have hz : -((z.natAbs : ℤ) : ℚ) = z := hz
    have : -(z.natAbs : ℤ) = z := by exact_mod_cast hz
    rcases eq_or_ne z 0 with rfl | h0
    · simp
    · simp [show z < 0 by omega]

/-- The sum is monotone on finite operands, whatever draws the two sums stand at. -/
theorem fle_fadd (t t' : ℕ) (ha : isFinite a = true) (hb : isFinite b = true) (hc : isFinite c = true)
    (hd : isFinite d = true) (hac : fle a c = true) (hbd : fle b d = true) :
    fle (fadd t a b) (fadd t' c d) = true := by
  obtain ⟨hn, hk⟩ := fadd_orderKey t ha hb
  obtain ⟨hn', hk'⟩ := fadd_orderKey t' hc hd
  obtain ⟨-, -, hac⟩ := fle_iff_orderKey.mp hac
  obtain ⟨-, -, hbd⟩ := fle_iff_orderKey.mp hbd
  rw [fle_iff_orderKey, hk, hk']
  exact ⟨hn, hn', roundKey_mono (add_le_add (signedUnits_le_iff.mpr hac) (signedUnits_le_iff.mpr hbd))⟩

/-- The difference rises with its first operand and falls with its second. -/
theorem fle_fsub (t t' : ℕ) (ha : isFinite a = true) (hb : isFinite b = true) (hc : isFinite c = true)
    (hd : isFinite d = true) (hac : fle a c = true) (hdb : fle d b = true) :
    fle (fsub t a b) (fsub t' c d) = true :=
  fle_fadd t t' ha (by rwa [isFinite_flipSign]) hc (by rwa [isFinite_flipSign]) hac (fle_flipSign hdb)

theorem isPhase_zero : isPhase zero = true := by decide

/-- `PHI_MAX` is the largest phase (`00_scope` R4). -/
theorem isPhase_iff_le_phiMax {p : Word} :
    isPhase p = true ↔ fle zero p = true ∧ fle p Config.phiMax = true := by
  have hone : orderKey one = orderKey Config.phiMax + 1 := by decide
  have hn1 : isNaN one = false := by decide
  have hn2 : isNaN Config.phiMax = false := by decide
  simp only [isPhase, flt, fle, hn1, hn2, hone, Int.lt_add_one_iff, Bool.and_eq_true]

end Sys2Proof.F32
end

section
/-!
PROOFS. The ranges of the values that the commands write to the registers of `10_state` R41: each clamp answers between
its bounds, and a damping or a phase lies between the results at the ends of its operands' ranges.
-/

namespace Sys2Proof.Machine

open F32 Safety

theorem within_clamp {lo hi : Word} (x : Word) (h : fle lo hi = true) : within lo (clamp lo x hi) hi = true := by
  obtain ⟨h1, h2⟩ := clamp_between x h
  simp [within, h1, h2]

/-- A coefficient is strictly inside (0,1) (`41_one_pole` R121). -/
theorem within_clampCoefficient (x : Word) : within Config.eps (clampCoefficient x) Config.oneMEps = true :=
  within_clamp x (by decide)

/-- The damping of a shape is again a coefficient, with the exact lower end `1 - ONE_M_EPS` (`10_state` R29). -/
theorem within_shapeDamping (t : ℕ) (x : Word) : within dampLow (shapeDamping t x) Config.oneMEps = true := by
  obtain ⟨hlo, hhi⟩ := clamp_between (lo := Config.eps) (hi := Config.oneMEps) x (by decide)
  have hone : fle one one = true := by decide
  have hc : isFinite (clampCoefficient x) = true := isFinite_of_between (by decide) (by decide) hlo hhi
  have hlow : fle (fsub 0 one Config.oneMEps) (shapeDamping t x) = true :=
    fle_fsub 0 t (by decide) (by decide) (by decide) hc hone hhi
  have hhigh : fle (shapeDamping t x) (fsub 0 one Config.eps) = true :=
    fle_fsub t 0 (by decide) hc (by decide) (by decide) hone hlo
  rw [show fsub 0 one Config.oneMEps = dampLow by decide] at hlow
  rw [show fsub 0 one Config.eps = Config.oneMEps by decide] at hhigh
  simp [within, hlow, hhigh]

/-- A phase plus a step below 1 is brought back to a phase by the one subtraction (`42_lfo` R133, R134). -/
theorem isPhase_wrapAdd (t : ℕ) {phase step : Word} (hp : isPhase phase = true) (h0 : fle zero step = true)
    (h1 : fle step Config.phiMax = true) : isPhase (wrapAdd t phase step) = true := by
  obtain ⟨hp0, hp1⟩ := isPhase_iff_le_phiMax.mp hp
  have hphase : isFinite phase = true := isFinite_of_between (by decide) (by decide) hp0 hp1
  have hstep : isFinite step = true := isFinite_of_between (by decide) (by decide) h0 h1
  have hlow : fle (fadd 0 zero zero) (fadd t phase step) = true :=
    fle_fadd 0 t (by decide) (by decide) hphase hstep hp0 h0
  have hhigh : fle (fadd t phase step) (fadd 0 Config.phiMax Config.phiMax) = true :=
    fle_fadd t 0 hphase hstep (by decide) (by decide) hp1 h1
  have hsum : isFinite (fadd t phase step) = true :=
    isFinite_of_between (by decide) (by decide) hlow hhigh
  unfold wrapAdd
  generalize fadd t phase step = sum at *
  dsimp only
  split
  · next hge =>
    have hlow' : fle (fsub 0 one one) (fsub (t + 1) sum one) = true :=
      fle_fsub 0 (t + 1) (by decide) (by decide) hsum (by decide) hge (by decide)
    have hhigh' : fle (fsub (t + 1) sum one) (fsub 0 (fadd 0 Config.phiMax Config.phiMax) one) = true :=
      fle_fsub (t + 1) 0 hsum (by decide) (by decide) (by decide) hhigh (by decide)
    rw [show fsub 0 one one = zero by decide] at hlow'
    exact isPhase_iff_le_phiMax.mpr ⟨hlow', fle_trans hhigh' (by decide)⟩
  · next hlt =>
    rw [show fadd 0 zero zero = zero by decide] at hlow
    obtain ⟨hzero, hn⟩ := fle_not_nan hlow
    rw [fge_iff_not_flt hn (by decide), not_not] at hlt
    simp [isPhase, hlow, hlt]

end Sys2Proof.Machine
end

section
/-!
PROOFS. What a command can write and what a step can do, said once.
-/

namespace Sys2Proof.Machine

open F32

/-- What a command can leave behind, one constructor per command that writes state: the columns of `10_state` R43.
Every command that only reads, and every command the gate of `30_encoding` R87 ignores, is `onlyAnswers`. -/
inductive Writes (s : State) : Instr → State → Prop
  | onlyAnswers (i : Instr) (r : Word) (n : ℕ) : Writes s i ((s.spend n).respond r)
  | init (platformId apiVersion : Word) : Writes s (.init platformId apiVersion) (s.initialise.respond 0#32)
  | shape (value : Word) : Writes s (.param 0#32 value)
      (({ s with dampBase := shapeDamping s.draws value }.spend 1).respond 0#32)
  | shiftShape (value : Word) : Writes s (.param 1#32 value)
      (({ s with exfA := shiftShapePole s.draws value }.spend 4).respond 0#32)
  | attack (value : Word) : Writes s (.param 2#32 value)
      (State.respond { s with attackMs := clamp zero value s.cfg.attackMaxMs } 0#32)
  | modDepth (value : Word) : Writes s (.param 3#32 value)
      (State.respond { s with modDepth := clamp zero value one } 0#32)
  | modCfg (value : Word) : Writes s (.param 4#32 value) (State.respond { s with modCfg := modCfgOf value } 0#32)
  | phOfs (value : Word) : Writes s (.param 5#32 value)
      (State.respond { s with phOfs := clamp zero value Config.phiMax } 0#32)
  | noteOn (hz : Word) : Writes s (.noteOn hz)
      (({ s with freq := hz, burst := s.burstLength s.draws, resetPend := true }.spend 1).respond 0#32)
  | pitch (hz : Word) : Writes s (.pitch hz) (State.respond { s with freq := hz } 0#32)
  | process (frames target : Word) (hi : s.inited = true) (hf : u32 frames ≠ 0) : Writes s (.process frames target)
      (runBlock (u32 frames) (s.openBlock (u32 frames) target).1 (s.openBlock (u32 frames) target).2)
  | dlWrite (sample : Word) : Writes s (.dlWrite sample) ((s.pushSample sample).respond 0#32)
  | dlClear : Writes s .dlClear (s.clearLine.respond 0#32)
  | opSetc (coefficient : Word) : Writes s (.opSetc coefficient)
      (State.respond { s with exfA := clampCoefficient coefficient } 0#32)
  | opProc (sample : Word) : Writes s (.opProc sample)
      (State.respond ({ s with exfZ := s.exfNext s.draws sample }.spend 4) (s.exfNext s.draws sample))
  | lfoSetf (hz recip : Word) : Writes s (.lfoSetf hz recip)
      (({ s with lfoF0 := clamp zero (fmul s.draws hz recip) half }.spend 1).respond 0#32)
  | lfoReset : Writes s .lfoReset (State.respond { s with lfoPhi := zero } 0#32)
  | lfoAdv : Writes s .lfoAdv (((s.lfoAdvance s.draws).spend 2).respond 0#32)

variable {i : Instr} {s t : State}

/-- A gated command is ignored or has its effect, in an initialised state. -/
theorem Writes.of_gated {f : State → State} (he : exec i s = gated s f) (h : exec i s = .next t)
    (hf : s.inited = true → Writes s i (f s)) : Writes s i t := by
  rw [he] at h
  rcases gated_cases s f with ⟨hi, hg⟩ | ⟨-, hg⟩ <;> obtain rfl := Host.Outcome.next.inj (hg.symm.trans h)
  · exact hf hi
  · exact .onlyAnswers i 0#32 0

/-- A parameter change writes the register of its index; an index from 6 on writes none (`43_voice` R162). -/
theorem writes_setParam (s : State) (index value : Word) :
    Writes s (.param index value) ((s.setParam (u32 index) value).respond 0#32) := by
  unfold State.setParam
  split
  case h_1 h => obtain rfl : index = 0#32 := BitVec.eq_of_toNat_eq h; exact .shape value
  case h_2 h => obtain rfl : index = 1#32 := BitVec.eq_of_toNat_eq h; exact .shiftShape value
  case h_3 h => obtain rfl : index = 2#32 := BitVec.eq_of_toNat_eq h; exact .attack value
  case h_4 h => obtain rfl : index = 3#32 := BitVec.eq_of_toNat_eq h; exact .modDepth value
  case h_5 h => obtain rfl : index = 4#32 := BitVec.eq_of_toNat_eq h; exact .modCfg value
  case h_6 h => obtain rfl : index = 5#32 := BitVec.eq_of_toNat_eq h; exact .phOfs value
  case h_7 => exact .onlyAnswers _ 0#32 0

/-- Whatever a command leaves behind is in its column. -/
theorem writes_of_exec (h : exec i s = .next t) : Writes s i t := by
  cases i with
  | nop => cases h; exact .onlyAnswers _ 0#32 0
  | init platformId apiVersion => cases h; exact .init platformId apiVersion
  | rdreg number => cases h; exact .onlyAnswers _ _ 0
  | param index value => exact .of_gated (exec_param index value s) h fun _ => writes_setParam s index value
  | noteOn hz => exact .of_gated (exec_noteOn hz s) h fun _ => .noteOn hz
  | noteOff => exact .of_gated (exec_noteOff s) h fun _ => .onlyAnswers _ 0#32 0
  | pitch hz => exact .of_gated (exec_pitch hz s) h fun _ => .pitch hz
  | process frames target =>
    refine .of_gated (exec_process frames target s) h fun hi => ?_
    dsimp only
    split
    · exact .onlyAnswers _ 0#32 0
    · next hf => exact .process frames target hi hf
  | dlWrite sample => exact .of_gated (exec_dlWrite sample s) h fun _ => .dlWrite sample
  | dlReadx offset => exact .of_gated (exec_dlReadx offset s) h fun _ => .onlyAnswers _ _ 0
  | dlReadf delay => exact .of_gated (exec_dlReadf delay s) h fun _ => .onlyAnswers _ _ 4
  | dlClear => exact .of_gated (exec_dlClear s) h fun _ => .dlClear
  | opSetc coefficient => exact .of_gated (exec_opSetc coefficient s) h fun _ => .opSetc coefficient
  | opProc sample => exact .of_gated (exec_opProc sample s) h fun _ => .opProc sample
  | lfoSetf hz recip => exact .of_gated (exec_lfoSetf hz recip s) h fun _ => .lfoSetf hz recip
  | lfoReset => exact .of_gated (exec_lfoReset s) h fun _ => .lfoReset
  | lfoAdv => exact .of_gated (exec_lfoAdv s) h fun _ => .lfoAdv
  | lfoSin => exact .of_gated (exec_lfoSin s) h fun _ => .onlyAnswers _ _ 0
  | lfoTri => exact .of_gated (exec_lfoTri s) h fun _ => .onlyAnswers _ _ 2
  | lfoSaw => exact .of_gated (exec_lfoSaw s) h fun _ => .onlyAnswers _ _ 2
  | lfoSqr => exact .of_gated (exec_lfoSqr s) h fun _ => .onlyAnswers _ _ 0
  | lfoSino offset => exact .of_gated (exec_lfoSino offset s) h fun _ => .onlyAnswers _ _ 2
  | lfoTrio offset => exact .of_gated (exec_lfoTrio offset s) h fun _ => .onlyAnswers _ _ 4
  | lfoSawo offset => exact .of_gated (exec_lfoSawo offset s) h fun _ => .onlyAnswers _ _ 4
  | lfoSqro offset => exact .of_gated (exec_lfoSqro offset s) h fun _ => .onlyAnswers _ _ 2

/-- What a step can do: go on with a waiting `PROCESS`, hold its state where no packet is there, or take the oldest
packet and execute its command or answer a reserved encoding with 0. -/
theorem step_cases (h : step s = .next t) :
    (∃ b, s.inFlight = some b ∧ t = runBlock (b.frames - b.j) b { s with inFlight := none }) ∨
    (s.inFlight = none ∧ s.accept = none ∧ t = s) ∨
    (s.inFlight = none ∧ ∃ p u, s.accept = some (p, u) ∧
      ((∃ i, decode p = .ok i ∧ exec i u = .next t) ∨ ∃ e, decode p = .error e ∧ t = u.respond 0#32)) := by
  unfold step at h
  split at h
  · next b hb => exact .inl ⟨b, hb, (Host.Outcome.next.inj h).symm⟩
  · next hidle =>
    refine .inr ?_
    split at h
    · next ha => exact .inl ⟨hidle, ha, (Host.Outcome.next.inj h).symm⟩
    · next p u ha =>
      refine .inr ⟨hidle, p, u, ha, ?_⟩
      split at h
      · next i hd => exact .inl ⟨i, hd, h⟩
      · next e hd => exact .inr ⟨e, hd, (Host.Outcome.next.inj h).symm⟩

end Sys2Proof.Machine
end

section
/-!
PROOFS. The writer matrix of `10_state` R43: what a command outside a column leaves as it was.
-/

namespace Sys2Proof.Machine

/-- What opening a block changes. -/
theorem State.openBlock_eq (s : State) (frames : ℕ) (hostTarget : Word) :
    ∃ buf dlW modCur, (s.openBlock frames hostTarget).2 =
      { s with
        buf := buf
        dlW := dlW
        resetPend := false
        modPrev := s.modCur
        modCur := modCur
        draws := s.draws + 8 } := by
  rw [State.openBlock_state]
  cases h : s.resetPend
  · rw [State.consumeReset_of_not_pending h]
    exact ⟨s.buf, s.dlW, _, by rw [← h]⟩
  · rw [State.consumeReset_of_pending h]
    exact ⟨[], 0#32, _, rfl⟩

/-- In the host source no sample moves the phase (`43_voice` R180). -/
theorem runBlock_lfoPhi (left : ℕ) (b : Block) {s : State} (h : s.internalSource = false) :
    (runBlock left b s).lfoPhi = s.lfoPhi := by
  have key := runBlock_keeps (P := fun u => u.internalSource = false ∧ u.lfoPhi = s.lfoPhi)
    (fun b b' u u' ⟨hsrc, hphi⟩ he => by
      obtain ⟨sig, y, exfZ, burst, noise, phi, rfl, -, rfl, -⟩ := sampleStep_state he
      exact ⟨hsrc, by simpa [hsrc] using hphi⟩)
    (fun _ hu => hu) (fun _ _ hu => hu) left b s ⟨h, rfl⟩
  exact key.2

/-- What opening a block and running its samples leaves as it was. -/
theorem runBlock_openBlock_frame (s : State) (frames left : ℕ) (hostTarget : Word) (b : Block) :
    let t := runBlock left b (s.openBlock frames hostTarget).2
    t.inited = s.inited ∧ t.exfA = s.exfA ∧ t.lfoF0 = s.lfoF0 ∧ t.attackMs = s.attackMs ∧ t.dampBase = s.dampBase ∧
      t.freq = s.freq ∧ t.modDepth = s.modDepth ∧ t.modCfg = s.modCfg ∧ t.phOfs = s.phOfs ∧
      (s.internalSource = false → t.lfoPhi = s.lfoPhi) := by
  obtain ⟨buf, dlW, modCur, hopen⟩ := s.openBlock_eq frames hostTarget
  rw [hopen]
  obtain ⟨hinited, -, hexfA, hf0, hattack, hdamp, -, -, hfreq, hdepth, hcfg, hofs, -⟩ := runBlock_frame left b _
  exact ⟨hinited, hexfA, hf0, hattack, hdamp, hfreq, hdepth, hcfg, hofs, fun h => runBlock_lfoPhi left b h⟩

/-- Settles O55, by the columns: every constructor of `Writes` shows what its command writes, and a block keeps what
`runBlock_openBlock_frame` lists. -/
theorem onlyTheListedCommandsWrite : Obligations.OnlyTheListedCommandsWrite := by
  unfold Obligations.OnlyTheListedCommandsWrite
  intro i s t h
  cases writes_of_exec h with
  | process frames target hi hf =>
    obtain ⟨hinited, hexfA, hf0, hattack, hdamp, hfreq, hdepth, hcfg, hofs, hphi⟩ :=
      runBlock_openBlock_frame s (u32 frames) (u32 frames) target (s.openBlock (u32 frames) target).1
    simpa [Instr.opcode, hinited, hexfA, hf0, hattack, hdamp, hfreq, hdepth, hcfg, hofs] using hphi
  | _ => simp [Instr.opcode]

end Sys2Proof.Machine
end

section
/-!
PROOFS. Every step keeps the invariant of `10_state` R41: the registers' ranges, the line, and the waiting block.
-/

namespace Sys2Proof.Safety

open Machine F32

/-- The ranges of `registersInRange`, one field per register. -/
structure RegisterRanges (s : State) : Prop where
  exfA : within Config.eps s.exfA Config.oneMEps = true
  lfoPhi : isPhase s.lfoPhi = true
  lfoF0 : within zero s.lfoF0 half = true
  attackMs : within zero s.attackMs s.cfg.attackMaxMs = true
  dampBase : within dampLow s.dampBase Config.oneMEps = true
  modDepth : within zero s.modDepth one = true
  phOfs : within zero s.phOfs Config.phiMax = true

variable {s t : State}

theorem registersInRange_iff : registersInRange s = true ↔ RegisterRanges s := by
  simp only [registersInRange, Bool.and_eq_true]
  exact ⟨fun ⟨⟨⟨⟨⟨⟨exfA, lfoPhi⟩, lfoF0⟩, attackMs⟩, dampBase⟩, modDepth⟩, phOfs⟩ =>
      ⟨exfA, lfoPhi, lfoF0, attackMs, dampBase, modDepth, phOfs⟩,
    fun ⟨exfA, lfoPhi, lfoF0, attackMs, dampBase, modDepth, phOfs⟩ =>
      ⟨⟨⟨⟨⟨⟨exfA, lfoPhi⟩, lfoF0⟩, attackMs⟩, dampBase⟩, modDepth⟩, phOfs⟩⟩

/-- A waiting `PROCESS` is an initialised block's, with a sample left. -/
theorem waitsSoundly_iff :
    waitsSoundly s = true ↔ ∀ b, s.inFlight = some b → s.inited = true ∧ b.j < b.frames := by
  unfold waitsSoundly
  cases s.inFlight <;> simp

/-- `LFO.ADV` and the end of a sample keep the phase in its range (`42_lfo` R133). -/
theorem RegisterRanges.isPhase_advance (h : RegisterRanges s) (d : ℕ) :
    isPhase (wrapAdd d s.lfoPhi s.lfoF0) = true := by
  obtain ⟨h0, h1⟩ : fle zero s.lfoF0 = true ∧ fle s.lfoF0 half = true := by simpa [within] using h.lfoF0
  exact isPhase_wrapAdd d h.lfoPhi h0 (fle_trans h1 (by decide))

namespace Invariant

theorem ranges (h : Invariant s) (hi : s.inited = true) : RegisterRanges s :=
  registersInRange_iff.mp (h.registers hi)

/-! ### The line -/

theorem clearLine (h : Invariant s) : Invariant s.clearLine :=
  { h with canonical := rfl, inBounds := rfl, cursor := s.capacity_pos }

theorem pushSample (h : Invariant s) (x : Word) : Invariant (s.pushSample x) :=
  { h with
    canonical := State.pushSample_wf x h.canonical
    inBounds := bufWrite_all_lt x s.cursor_lt h.inBounds
    cursor := by
      rw [State.pushSample_dlW, State.pushSample_capacity, BitVec.toNat_ofNat]
      exact (Nat.mod_le _ _).trans_lt (Nat.mod_lt _ s.capacity_pos) }

/-! ### The default state -/

theorem initialise (h : Invariant s) : Invariant s.initialise :=
  { h.clearLine with
    registers := fun _ => registersInRange_iff.mpr
      { exfA := (by decide : within Config.eps 0x3F600000#32 Config.oneMEps = true)
        lfoPhi := isPhase_zero
        lfoF0 := (by decide : within zero zero half = true)
        attackMs := by
          rw [State.initialise_attackMs, State.initialise_cfg, within, h.attackLimit]; decide
        dampBase := (by decide : within dampLow 0x3F000000#32 Config.oneMEps = true)
        modDepth := (by decide : within zero zero one = true)
        phOfs := (by decide : within zero zero Config.phiMax = true) }
    waiting := waitsSoundly_iff.mpr fun b hb => ⟨rfl, (waitsSoundly_iff.mp h.waiting b hb).2⟩ }

/-! ### A block of samples -/

theorem consumeReset (h : Invariant s) : Invariant s.consumeReset := by
  unfold State.consumeReset
  split
  · exact { h.clearLine with }
  · exact h

theorem openBlock (h : Invariant s) (frames : ℕ) (target : Word) : Invariant (s.openBlock frames target).2 := by
  rw [State.openBlock_state]
  exact { h.consumeReset with }

theorem sampleStep {b b' : Block} (h : Invariant s) (hi : s.inited = true) (hs : sampleStep b s = some (b', t)) :
    Invariant t := by
  obtain ⟨sig, y, exfZ, burst, noise, phi, rfl, -, rfl, -⟩ := sampleStep_state hs
  have hr := h.ranges hi
  have hphi : isPhase (if s.internalSource then wrapAdd (s.draws + 18) s.lfoPhi s.lfoF0 else s.lfoPhi) = true := by
    split
    · exact hr.isPhase_advance _
    · exact hr.lfoPhi
  exact { h.pushSample y with registers := fun _ => registersInRange_iff.mpr { hr with lfoPhi := hphi } }

/-- A block of `left` samples, the last ones of the block `b`: where it waits, it has a sample left. -/
theorem runBlock {left : ℕ} {b : Block} (h : Invariant s) (hi : s.inited = true) (hb : b.j + left = b.frames) :
    Invariant (runBlock left b s) := by
  induction left generalizing b s with
  | zero => exact { h with }
  | succ left ih =>
    unfold Machine.runBlock
    cases he : Machine.sampleStep b s with
    | none =>
      refine { h with waiting := waitsSoundly_iff.mpr fun b' hb' => ?_ }
      obtain rfl := Option.some.inj hb'
      exact ⟨hi, by omega⟩
    | some p =>
      obtain ⟨b', s'⟩ := p
      have hs' : s'.inited = true := by
        obtain ⟨sig, y, exfZ, burst, noise, phi, rfl, -⟩ := sampleStep_state he
        exact hi
      obtain ⟨-, -, -, rfl, -⟩ := sampleStep_eq_some he
      exact ih (h.sampleStep hi he) hs' (by dsimp only; omega)

/-! ### One command, one step -/

/-- Every command keeps the invariant, by its column of the writer matrix. -/
theorem exec {i : Instr} (h : Invariant s) (he : exec i s = .next t) : Invariant t := by
  cases writes_of_exec he with
  | onlyAnswers i r n => exact { h with }
  | init => exact { h.initialise with }
  | shape value =>
    refine { h with registers := fun hi => registersInRange_iff.mpr ?_ }
    exact { h.ranges hi with dampBase := within_shapeDamping _ value }
  | shiftShape value =>
    refine { h with registers := fun hi => registersInRange_iff.mpr ?_ }
    exact { h.ranges hi with exfA := within_clampCoefficient _ }
  | attack value =>
    obtain ⟨-, -, -, -, -, -, -, hmax, -⟩ := h.config
    refine { h with registers := fun hi => registersInRange_iff.mpr ?_ }
    exact { h.ranges hi with attackMs := within_clamp value hmax }
  | modDepth value =>
    refine { h with registers := fun hi => registersInRange_iff.mpr ?_ }
    exact { h.ranges hi with modDepth := within_clamp value (by decide) }
  | modCfg value => exact { h with }
  | phOfs value =>
    refine { h with registers := fun hi => registersInRange_iff.mpr ?_ }
    exact { h.ranges hi with phOfs := within_clamp value (by decide) }
  | noteOn hz => exact { h with }
  | pitch hz => exact { h with }
  | process frames target hi hf =>
    obtain ⟨buf, dlW, modCur, hopen⟩ := s.openBlock_eq (u32 frames) target
    have hinited : (s.openBlock (u32 frames) target).2.inited = true := by rw [hopen]; exact hi
    exact (h.openBlock _ _).runBlock hinited (Nat.zero_add _)
  | dlWrite sample => exact { h.pushSample sample with }
  | dlClear => exact { h.clearLine with }
  | opSetc coefficient =>
    refine { h with registers := fun hi => registersInRange_iff.mpr ?_ }
    exact { h.ranges hi with exfA := within_clampCoefficient coefficient }
  | opProc sample => exact { h with }
  | lfoSetf hz recip =>
    refine { h with registers := fun hi => registersInRange_iff.mpr ?_ }
    exact { h.ranges hi with lfoF0 := within_clamp _ (by decide) }
  | lfoReset =>
    refine { h with registers := fun hi => registersInRange_iff.mpr ?_ }
    exact { h.ranges hi with lfoPhi := isPhase_zero }
  | lfoAdv =>
    refine { h with registers := fun hi => registersInRange_iff.mpr ?_ }
    exact { h.ranges hi with lfoPhi := (h.ranges hi).isPhase_advance _ }

end Invariant

/-- Settles O51, by what a step can do: a waiting block goes on with the samples it has left, and an accepted packet
leaves every part of the invariant but the port to its command. -/
theorem everyStepKeepsTheInvariant : Obligations.EveryStepKeepsTheInvariant := by
  unfold Obligations.EveryStepKeepsTheInvariant
  intro s t h hstep
  rcases step_cases hstep with ⟨b, hb, rfl⟩ | ⟨-, -, rfl⟩ | ⟨-, p, u, hu, hcommand⟩
  · obtain ⟨hi, hj⟩ := waitsSoundly_iff.mp h.waiting b hb
    have hidle : Invariant { s with inFlight := none } := { h with waiting := rfl }
    exact hidle.runBlock hi (by omega)
  · exact h
  · have haccepted : Invariant u := by
      rw [(State.accept_eq_some hu).2]
      exact { h with }
    rcases hcommand with ⟨i, -, he⟩ | ⟨e, -, rfl⟩
    · exact haccepted.exec he
    · exact { haccepted with }

end Sys2Proof.Safety
end

section
/-!
PROOFS. The four streams (`20_memory` R66, R68, R69; `30_encoding` R86): OUT and the responses grow at the end, NOISE
and the port are taken from at the front.
-/

namespace Sys2Proof.Machine

/-- From `s` to `t` the packets `ps` were accepted and the responses `rs` given, words were pushed to OUT and popped
from NOISE, the configuration stayed and `INITED` did not close. -/
structure StreamsAdvance (s t : State) (ps : List Packet) (rs : List Word) : Prop where
  out : ∃ ws, t.out = s.out ++ ws
  resp : t.resp = s.resp ++ rs
  noise : ∃ ws, s.noise = ws ++ t.noise
  port : s.port = ps ++ t.port
  cfg : t.cfg = s.cfg
  inited : s.inited = true → t.inited = true

namespace StreamsAdvance

variable {s t u : State} {rs : List Word}

/-- A change that leaves OUT, NOISE and the port alone. -/
theorem of_quiet (hout : t.out = s.out) (hresp : t.resp = s.resp ++ rs) (hnoise : t.noise = s.noise)
    (hport : t.port = s.port) (hcfg : t.cfg = s.cfg) (hinited : s.inited = true → t.inited = true) :
    StreamsAdvance s t [] rs :=
  ⟨⟨[], by simp [hout]⟩, hresp, ⟨[], by simp [hnoise]⟩, hport.symm, hcfg, hinited⟩

protected theorem refl (s : State) : StreamsAdvance s s [] [] := of_quiet rfl (by simp) rfl rfl rfl id

/-- One more sample pushes its words and pops at most one (`43_voice` R177, R179). -/
theorem sampleStep {b b' : Block} (h : StreamsAdvance s t [] []) (hs : sampleStep b t = some (b', u)) :
    StreamsAdvance s u [] [] := by
  obtain ⟨ws, hout⟩ := h.out
  obtain ⟨popped, hnoise⟩ := h.noise
  obtain ⟨sig, y, exfZ, burst, noise, phi, rfl, -, -, hnext⟩ := sampleStep_state hs
  refine { h with out := ⟨ws ++ [y, y], by simp [hout]⟩, noise := ?_ }
  rcases hnext with ⟨-, -, -, rfl, -⟩ | ⟨-, -, n, hn, -⟩
  · exact ⟨popped, hnoise⟩
  · exact ⟨popped ++ [n], by simp [hnoise, hn]⟩

/-- A block of samples gives its one response at the end, or none where it waits (`30_encoding` R84). -/
theorem runBlock (left : ℕ) (b : Block) (h : StreamsAdvance s t [] []) :
    ∃ rs, rs.length ≤ 1 ∧ StreamsAdvance s (runBlock left b t) [] rs := by
  induction left generalizing b t with
  | zero => exact ⟨[0#32], le_rfl, { h with resp := by simp [Machine.runBlock, h.resp] }⟩
  | succ left ih =>
    unfold Machine.runBlock
    cases he : Machine.sampleStep b t with
    | none => exact ⟨[], Nat.zero_le 1, { h with }⟩
    | some p => exact ih p.1 (h.sampleStep he)

/-- A command answers at most one word, takes nothing from the port, and only `PROCESS` touches OUT and NOISE. -/
theorem exec {i : Instr} (he : exec i s = .next t) : ∃ rs, rs.length ≤ 1 ∧ StreamsAdvance s t [] rs := by
  cases writes_of_exec he with
  | process frames target hi hf =>
    obtain ⟨buf, dlW, modCur, hopen⟩ := s.openBlock_eq (u32 frames) target
    rw [hopen]
    exact runBlock _ _ { StreamsAdvance.refl s with }
  | init => exact ⟨[0#32], le_rfl, of_quiet rfl rfl rfl rfl rfl fun _ => rfl⟩
  | _ => exact ⟨[_], le_rfl, of_quiet rfl rfl rfl rfl rfl id⟩

/-- Accepting a packet takes it from the port before its command runs. -/
theorem of_accept {p : Packet} (ha : s.accept = some (p, u)) (h : StreamsAdvance u t [] rs) :
    StreamsAdvance s t [p] rs := by
  obtain ⟨hport, hu⟩ := State.accept_eq_some ha
  obtain ⟨hout, hresp, hnoise, hrest, hcfg, hinited⟩ := h
  rw [hrest] at hport
  rw [hu] at hout hresp hnoise hcfg hinited
  exact ⟨hout, hresp, hnoise, hport, hcfg, hinited⟩

/-- A step accepts at most one packet and answers at most one word. -/
theorem step (hstep : step s = .next t) :
    ∃ ps rs, ps.length ≤ 1 ∧ rs.length ≤ 1 ∧ StreamsAdvance s t ps rs := by
  rcases step_cases hstep with ⟨b, -, rfl⟩ | ⟨-, -, rfl⟩ | ⟨-, p, u, ha, ⟨i, -, he⟩ | ⟨e, -, rfl⟩⟩
  · obtain ⟨rs, hrs, h⟩ := (StreamsAdvance.refl { s with inFlight := none }).runBlock (b.frames - b.j) b
    exact ⟨[], rs, Nat.zero_le 1, hrs, { h with }⟩
  · exact ⟨[], [], Nat.zero_le 1, Nat.zero_le 1, .refl t⟩
  · obtain ⟨rs, hrs, h⟩ := exec he
    exact ⟨[p], rs, le_rfl, hrs, h.of_accept ha⟩
  · exact ⟨[p], [0#32], le_rfl, le_rfl, .of_accept ha (.of_quiet rfl rfl rfl rfl rfl id)⟩

end StreamsAdvance

/-- Settles O54, by what a step can do to the streams. -/
theorem streamsAreFirstInFirstOut : Obligations.StreamsAreFirstInFirstOut := by
  unfold Obligations.StreamsAreFirstInFirstOut
  intro s t hstep
  obtain ⟨ps, rs, hps, hrs, h⟩ := StreamsAdvance.step hstep
  exact ⟨h.out, ⟨rs, h.resp, hrs⟩, h.noise, ⟨ps, h.port, hps⟩, h.cfg, h.inited⟩

end Sys2Proof.Machine
end

section
/-!
PROOFS. Late noise (`70_reset_and_hazards` R237): no operation before a sample waits looks at the noise behind the words
it pops, so the samples before the wait are the same with more words there.
-/

namespace Sys2Proof.Machine

/-- The state with its noise stream replaced, which is the host's doing (`20_memory` R68). -/
def State.withNoise (s : State) (ws : List Word) : State := { s with noise := ws }

theorem State.consumeReset_withNoise (s : State) (ws : List Word) :
    (s.withNoise ws).consumeReset = s.consumeReset.withNoise ws := by
  cases h : s.resetPend
  · rw [State.consumeReset_of_not_pending h, State.consumeReset_of_not_pending (s := s.withNoise ws) h]
  · rw [State.consumeReset_of_pending h, State.consumeReset_of_pending (s := s.withNoise ws) h]; rfl

/-- Opening a block leaves the noise alone. -/
theorem State.openBlock_withNoise (s : State) (ws : List Word) (frames : ℕ) (target : Word) :
    (s.withNoise ws).openBlock frames target =
      ((s.openBlock frames target).1, (s.openBlock frames target).2.withNoise ws) := by
  unfold State.openBlock
  rw [State.consumeReset_withNoise]
  rfl

theorem State.emit_withNoise (t : ℕ) (s : State) (ws : List Word) (sig : Word) :
    (s.withNoise ws).emit t sig = (s.emit t sig).withNoise ws := by
  rw [State.emit_eq, State.emit_eq]; rfl

variable {s s' : State} {b b' : Block}

theorem State.excite_of_idle {t : ℕ} {sig : Word} (h : s.exciting = false) : s.excite t sig = some (sig, s) := by
  simp [State.excite, h]

theorem State.excite_of_exciting {t : ℕ} {sig w : Word} {rest : List Word} (h : s.exciting = true)
    (hn : s.noise = w :: rest) :
    s.excite t sig = some (F32.fadd (t + 4) sig (s.exfNext t w),
      { s with noise := rest, exfZ := s.exfNext t w, burst := s.burst - 1#32 }) := by
  have hpop : s.noisePop = some (w, { s with noise := rest }) := by simp [State.noisePop, hn]
  unfold State.excite
  rw [if_pos h, hpop]
  rfl

/-- An excitation that completes does so with more noise there, and leaves it. -/
theorem State.excite_append_noise {t : ℕ} {sig sig' : Word} (ws : List Word)
    (h : s.excite t sig = some (sig', s')) :
    (s.withNoise (s.noise ++ ws)).excite t sig = some (sig', s'.withNoise (s'.noise ++ ws)) := by
  rcases State.excite_eq_some h with ⟨hidle, rfl, rfl⟩ | ⟨hx, w, rest, hn, rfl, rfl⟩
  · exact State.excite_of_idle hidle
  · exact State.excite_of_exciting hx (rest := rest ++ ws) (by rw [hn]; rfl)

/-- A sample that completes does so with more noise there, and leaves it. -/
theorem sampleStep_append_noise (ws : List Word) (h : sampleStep b s = some (b', s')) :
    sampleStep b (s.withNoise (s.noise ++ ws)) = some (b', s'.withNoise (s'.noise ++ ws)) := by
  obtain ⟨sig, u, he, rfl, rfl⟩ := sampleStep_eq_some h
  have he' : (s.withNoise (s.noise ++ ws)).excite
      ((s.withNoise (s.noise ++ ws)).draws + 9) ((s.withNoise (s.noise ++ ws)).feedback s.draws b) =
        some (sig, u.withNoise (u.noise ++ ws)) := State.excite_append_noise ws he
  have hemit : ((u.emit (s.draws + 14) sig).spend 20).noise = u.noise := by rw [State.emit_eq]; rfl
  unfold sampleStep
  rw [show (s.withNoise (s.noise ++ ws)).draws = s.draws from rfl] at he' ⊢
  rw [he', hemit]
  dsimp only
  rw [State.emit_withNoise]
  rfl

/-- Where a block of samples waits in `b'`, more noise behind the words it has popped lets it go on from `b'`. -/
theorem runBlock_append_noise {left : ℕ} (ws : List Word) (hb : b.j + left = b.frames) (hidle : s.inFlight = none)
    (hwait : (runBlock left b s).inFlight = some b') :
    runBlock left b (s.withNoise (s.noise ++ ws)) =
      runBlock (b'.frames - b'.j) b' { runBlock left b s with inFlight := none, noise := ws } := by
  induction left generalizing b s with
  | zero => exact absurd (hwait.symm.trans hidle) (by simp)
  | succ left ih =>
    cases hs : sampleStep b s with
    | none =>
      obtain ⟨-, hnoise⟩ := sampleStep_eq_none.mp hs
      have hstop : runBlock (left + 1) b s = { s with inFlight := some b } := by simp [runBlock, hs]
      rw [hstop] at hwait ⊢
      obtain rfl : b = b' := Option.some.inj hwait
      rw [show b.frames - b.j = left + 1 by omega, hnoise, List.nil_append, ← hidle]
      rfl
    | some p =>
      obtain ⟨b₁, s₁⟩ := p
      have hgo : runBlock (left + 1) b s = runBlock left b₁ s₁ := by simp [runBlock, hs]
      rw [hgo] at hwait ⊢
      obtain ⟨sig, u, -, hb₁, -⟩ := sampleStep_eq_some hs
      obtain ⟨sig, y, exfZ, burst, noise, phi, hs₁, -⟩ := sampleStep_state hs
      rw [← ih (by rw [hb₁]; dsimp only; omega) (by rw [hs₁]; exact hidle) hwait]
      simp [runBlock, sampleStep_append_noise ws hs]

theorem step_of_waiting (h : s.inFlight = some b) : step s = resumeBlock b s := by
  simp [step, h]

/-- A `PROCESS` of at least one frame in an initialised state opens its block and runs its samples. -/
theorem exec_process_of_inited {frames : Word} (target : Word) (hi : s.inited = true) (hf : u32 frames ≠ 0) :
    exec (.process frames target) s =
      .next (runBlock (u32 frames) (s.openBlock (u32 frames) target).1 (s.openBlock (u32 frames) target).2) := by
  rw [exec_process, gated_of_inited hi, if_neg hf]

/-- Only a `PROCESS` of at least one frame in an initialised state leaves a waiting block behind. -/
theorem inited_of_process_waits {frames target : Word} (hidle : s.inFlight = none)
    (h : exec (.process frames target) s = .next s') (hwait : s'.inFlight ≠ none) :
    s.inited = true ∧ u32 frames ≠ 0 := by
  cases writes_of_exec h with
  | onlyAnswers => exact absurd hidle hwait
  | process _ _ hi hf => exact ⟨hi, hf⟩

/-- Settles O28: a `PROCESS` that waits is an initialised one with samples to do, and these go on from the wait as they
would have with the words there. -/
theorem lateNoiseGivesTheSameBlock : Obligations.LateNoiseGivesTheSameBlock := by
  unfold Obligations.LateNoiseGivesTheSameBlock
  intro s t frames target ws hidle hexec hwait
  obtain ⟨hi, hf⟩ := inited_of_process_waits hidle hexec hwait
  obtain ⟨b', hb'⟩ := Option.ne_none_iff_exists'.mp hwait
  rw [exec_process_of_inited target hi hf] at hexec
  have ht := Host.Outcome.next.inj hexec
  obtain ⟨buf, dlW, modCur, hopen⟩ := s.openBlock_eq (u32 frames) target
  have hlate := runBlock_append_noise ws (s := (s.openBlock (u32 frames) target).2) (Nat.zero_add (u32 frames))
    (by rw [hopen]; exact hidle) (by rw [ht]; exact hb')
  have hnoise : (s.openBlock (u32 frames) target).2.noise = s.noise := by rw [hopen]
  rw [ht, hnoise] at hlate
  calc step { t with noise := ws } = resumeBlock b' { t with noise := ws } := step_of_waiting hb'
    _ = .next _ := congrArg Host.Outcome.next hlate.symm
    _ = exec (.process frames target) (s.withNoise (s.noise ++ ws)) := by
      rw [exec_process_of_inited target (s := s.withNoise (s.noise ++ ws)) hi hf, State.openBlock_withNoise]

end Sys2Proof.Machine
end

section
/-!
PROOFS. The line behind the cursor (`40_delay_line` R101, R102): a write moves every sample one slot back and stands in
the first slot itself, so that the line holds the most recent samples (`20_memory` R72).
-/

namespace Sys2Proof.Machine

open Claims

/-! ### The slots after a write -/

/-- The slot rule of `40_delay_line` R102 is the model's slot. -/
theorem slotRule_eq (s : State) (k : ℕ) : slotRule s k = s.slot k := by
  rw [slotRule, ← State.slot_eq_sub, Int.toNat_natCast]

theorem State.slot_modEq (s : State) (k : ℕ) : (s.slot k : ℤ) ≡ s.cursor - k [ZMOD s.capacity] := by
  rw [State.slot_eq_sub, Int.natCast_mod]
  exact (Int.mod_modEq _ _).trans ((Int.ModEq.refl _).sub (Int.mod_modEq _ _))

/-- What stood at offset `k` stands at offset `k + 1` after a write. -/
theorem State.pushSample_slot_succ {s : State} (x : Word) (k : ℕ) (hc : s.cfg.log2c ≤ 24) :
    (s.pushSample x).slot (k + 1) = s.slot k := by
  have hcursor : ((s.pushSample x).cursor : ℤ) ≡ s.cursor + 1 [ZMOD s.capacity] := by
    rw [State.pushSample_cursor x hc]
    push_cast
    exact Int.mod_modEq _ _
  have hmod : ((s.pushSample x).slot (k + 1) : ℤ) ≡ s.slot k [ZMOD s.capacity] :=
    calc ((s.pushSample x).slot (k + 1) : ℤ)
      _ ≡ (s.pushSample x).cursor - (k + 1 : ℕ) [ZMOD s.capacity] := (s.pushSample x).slot_modEq (k + 1)
      _ ≡ (s.cursor + 1) - (k + 1 : ℕ) [ZMOD s.capacity] := hcursor.sub_right _
      _ = s.cursor - k := by push_cast; ring
      _ ≡ s.slot k [ZMOD s.capacity] := (s.slot_modEq k).symm
  exact Nat.ModEq.eq_of_lt_of_lt (Int.natCast_modEq_iff.mp hmod) (State.slot_lt _ _) (State.slot_lt _ _)

/-- The offsets below the capacity, 0 apart, are not the slot at the cursor. -/
theorem State.slot_ne_cursor {s : State} {k : ℕ} (h0 : 0 < k) (hk : k < s.capacity) : s.slot k ≠ s.cursor := by
  have hlt := s.cursor_lt
  rw [State.slot, Nat.mod_eq_of_lt hk]
  rcases lt_or_ge (s.cursor + (s.capacity - k)) s.capacity with h | h
  · rw [Nat.mod_eq_of_lt h]; omega
  · rw [Nat.mod_eq_sub_mod h, Nat.mod_eq_of_lt (by omega)]; omega

/-- After a write the first slot behind the cursor holds the word, and the line behind it is the line before. -/
theorem State.pushSample_readExact {s : State} (x : Word) (k : ℕ) (hc : s.cfg.log2c ≤ 24)
    (hw : Memory.wf s.buf = true) (hk : k < s.capacity) :
    (s.pushSample x).readExact (k + 1) = if k = 0 then x else s.readExact k := by
  unfold State.readExact
  rw [State.pushSample_memRead x hw, State.pushSample_slot_succ x k hc]
  rcases Nat.eq_zero_or_pos k with rfl | h0
  · simp
  · rw [if_neg (State.slot_ne_cursor h0 hk), if_neg (by omega)]

/-! ### The line after a list of samples -/

variable {s t : State} {n : ℕ} {ys : List Word}

/-- Before the first sample the line is as it was, or cleared where a reset was pending. -/
theorem lineDone_start (hcursor : t.cursor = if s.resetPend then 0 else s.cursor)
    (hread : ∀ k, t.readExact k = if s.resetPend then 0#32 else s.readExact k) : LineDone s t 0 [] where
  cursor := by
    rw [hcursor]
    split
    · simp
    · simp [Nat.mod_eq_of_lt s.cursor_lt]
  written := fun k h1 h0 => absurd h0 (by omega)
  older := fun k _ _ => by
    rw [slotRule_eq, slotRule_eq]
    exact hread k

theorem lineDone_cleared (s : State) (r : Word) : LineDone (s.clearLine.respond r) (s.clearLine.respond r) 0 [] :=
  lineDone_start (by simp) fun k => by split <;> rfl

/-- One more write: its word is the most recent one (`20_memory` R72). -/
theorem lineDone_push (h : LineDone s t n ys) (hlen : ys.length = n) (hcfg : t.cfg = s.cfg) (hc : s.cfg.log2c ≤ 24)
    (hw : Memory.wf t.buf = true) (y : Word) : LineDone s (t.pushSample y) (n + 1) (ys ++ [y]) := by
  have hcap : t.capacity = s.capacity := congrArg Config.capacity hcfg
  have hct : t.cfg.log2c ≤ 24 := hcfg ▸ hc
  have hread : ∀ k, k + 1 ≤ s.capacity →
      (t.pushSample y).memRead (slotRule (t.pushSample y) (k + 1)) =
        if k = 0 then y else t.memRead (slotRule t k) := fun k hk => by
    rw [slotRule_eq, slotRule_eq]
    exact State.pushSample_readExact y k hct hw (hcap ▸ hk)
  refine ⟨?_, fun k h1 hn hk => ?_, fun k hn hk => ?_⟩
  · rw [State.pushSample_cursor y hct, h.cursor, hcap, Nat.mod_add_mod, Nat.add_assoc]
  · obtain ⟨k, rfl⟩ := Nat.exists_eq_add_of_le' h1
    rw [hread k hk]
    split
    · next h0 => subst h0; simp [← hlen]
    · rw [h.written k (by omega) (by omega) (by omega), Nat.add_sub_add_right,
        List.getD_append _ _ _ _ (by omega)]
  · obtain ⟨k, rfl⟩ := Nat.exists_eq_add_of_le' (show 1 ≤ k by omega)
    rw [hread k hk, if_neg (by omega), h.older k (by omega) (by omega), Nat.add_sub_add_right]

/-! ### Running the packets of a list of writes -/

/-- With no command in progress a step takes the oldest packet and executes its command. -/
theorem step_of_encoded {i : Instr} {rest : List Packet} (hidle : s.inFlight = none)
    (hport : s.port = encode i :: rest) (hi : decode (encode i) = .ok i) : step s = exec i { s with port := rest } := by
  have ha : s.accept = some (encode i, { s with port := rest }) := by simp [State.accept, hport]
  simp [step, hidle, ha, hi]

theorem step_dlWrite {x : Word} {rest : List Packet} (hidle : s.inFlight = none)
    (hport : s.port = encode (.dlWrite x) :: rest) (hi : s.inited = true) :
    step s = .next ((State.pushSample { s with port := rest } x).respond 0#32) :=
  (step_of_encoded hidle hport (Laws.RoundTrip.dlWrite x).2).trans
    ((exec_dlWrite x _).trans (gated_of_inited hi))

theorem step_dlClear {rest : List Packet} (hidle : s.inFlight = none) (hport : s.port = encode .dlClear :: rest)
    (hi : s.inited = true) : step s = .next ((State.clearLine { s with port := rest }).respond 0#32) :=
  (step_of_encoded hidle hport Laws.RoundTrip.dlClear.2).trans ((exec_dlClear _).trans (gated_of_inited hi))

theorem run_succ {M : Host.Core} {s t : M.State} (n : ℕ) (h : M.step s = .next t) : M.run (n + 1) s = M.run n t := by
  rw [Host.Core.run, h]

/-- Running the packets of the writes of `xs` leaves the line as those writes do, behind the ones done before. -/
theorem run_dlWrites {xs : List Word} (h : LineDone s t n ys) (hlen : ys.length = n) (hcfg : t.cfg = s.cfg)
    (hc : s.cfg.log2c ≤ 24) (hw : Memory.wf t.buf = true) (hinited : t.inited = true) (hidle : t.inFlight = none)
    (hport : t.port = xs.map fun x => encode (.dlWrite x)) :
    ∃ u : State, Host.Core.run Sys2Proof.core xs.length t = .next u ∧ u.port = [] ∧
      LineDone s u (n + xs.length) (ys ++ xs) := by
  induction xs generalizing t n ys with
  | nil => exact ⟨t, rfl, hport, by simpa using h⟩
  | cons x xs ih =>
    have hstep := step_dlWrite hidle hport hinited
    obtain ⟨u, hrun, hempty, hline⟩ :=
      ih (t := (State.pushSample { t with port := xs.map fun x => encode (.dlWrite x) } x).respond 0#32)
        (ys := ys ++ [x]) { lineDone_push h hlen hcfg hc hw x with } (by simp [hlen]) hcfg
        (State.pushSample_wf x hw) hinited hidle rfl
    refine ⟨u, (run_succ (M := Sys2Proof.core) _ hstep).trans hrun, hempty, ?_⟩
    simpa [Nat.add_assoc, Nat.add_comm 1] using hline

/-- Settles O40: the clear starts an empty line, and each write puts its sample in front. -/
theorem lineHoldsTheMostRecentSamples : Obligations.LineHoldsTheMostRecentSamples := by
  unfold Obligations.LineHoldsTheMostRecentSamples
  rintro s xs hinited hidle ⟨-, hc, -⟩ hport
  have hstep := step_dlClear hidle hport hinited
  obtain ⟨t, hrun, hempty, hline⟩ :=
    run_dlWrites (xs := xs) (lineDone_cleared { s with port := xs.map fun x => encode (.dlWrite x) } 0#32) rfl rfl
      hc rfl hinited hidle rfl
  refine ⟨t, (run_succ (M := Sys2Proof.core) _ hstep).trans hrun, hempty, fun k h1 hk => ?_⟩
  rw [← slotRule_eq]
  split
  · next hn => simpa using hline.written k h1 (by omega) hk
  · next hn =>
    rw [hline.older k (by omega) hk]
    split <;> rfl

end Sys2Proof.Machine
end

section
/-!
PROOFS. The rules of the sample loop that the statements write out (`Sys2Proof.Claims`) are the model's operations, with
the draws the model takes.
-/

namespace Sys2Proof.Machine

open Claims F32

/-! ### The draws, in the order in which each rule names its primitives (log entry 7) -/

/-- `n` draws in rising order. -/
def drawsUp (t : ℕ) (i : ℕ) : ℕ := t + i

def poleDraws (t : ℕ) : ℕ → ℕ
  | 0 => t + 3
  | 1 => t
  | 2 => t + 2
  | _ => t + 1

def readDraws (t : ℕ) : ℕ → ℕ
  | 0 => t + 3
  | 1 => t + 2
  | 2 => t
  | _ => t + 1

def clipDraws (t : ℕ) : ℕ → ℕ
  | 0 => t + 2
  | 1 => t + 1
  | _ => t

def targetDraws (t : ℕ) : ℕ → ℕ
  | 0 => t + 4
  | 1 => t + 2
  | 2 => t + 3
  | 3 => t
  | _ => t + 1

/-- The draws before the excitation of a sample, for `dampedRule`. -/
def dampedDraws (t : ℕ) : ℕ → ℕ → ℕ
  | 0 => poleDraws (t + 5)
  | 1 => drawsUp t
  | _ => readDraws (t + 1)

/-- The draws from the excitation of a sample on, for `emitRule` and the excitation in `SampleFollows`. -/
def emitDraws (t : ℕ) : ℕ → ℕ → ℕ
  | 0 => clipDraws (t + 14)
  | 1 => drawsUp (t + 18)
  | 2 => poleDraws (t + 9)
  | _ => drawsUp (t + 13)

/-- The draws of a block on `s` whose sample `j` starts in the state `u j`, for `SamplesFollow`. -/
def blockDraws (s : State) (u : ℕ → State) : ℕ → ℕ → ℕ
  | 0 => drawsUp s.draws
  | 1 => targetDraws (s.draws + 1)
  | 2 => fun i => s.draws + 7 - i
  | j + 3 => drawsUp ((u j).draws + 18)

/-! ### The rules -/

theorem onePole_eq_poleRule (t : ℕ) (a x z : Word) : onePole t a x z = poleRule (poleDraws t) a x z := rfl

theorem softClip_eq_clipRule (t : ℕ) (k x : Word) : softClip t k x = clipRule (clipDraws t) k x := rfl

theorem wrapAdd_eq_advanceRule (t : ℕ) (p f : Word) : wrapAdd t p f = advanceRule (drawsUp t) p f := rfl

theorem readFrac_eq_readRule (t : ℕ) (s : State) (delay : Word) :
    s.readFrac t delay = readRule (readDraws t) s delay := by
  unfold readRule
  simp only [slotRule_eq]
  rfl

theorem waveform_eq_waveRule (t : ℕ) (wave : BitVec 2) (p : Word) (d : ℕ → ℕ) (h0 : d 0 = t)
    (h1 : d 1 = t + 1) : waveform t wave.toNat p = waveRule d wave p := by
  unfold waveRule
  rw [h0, h1]
  match wave with
  | 0#2 => exact sinWave_eq_sin2pi p
  | 1#2 => rfl
  | 2#2 => rfl
  | 3#2 => rfl

theorem modTarget_eq_targetRule (t : ℕ) (s : State) (host : Word) :
    s.modTarget t host = targetRule (targetDraws t) s host := by
  unfold targetRule
  cases h : s.modCfg.getLsbD 0
  · exact State.modTarget_of_host t host h
  · rw [State.modTarget_of_internal t host h,
      waveform_eq_waveRule (t + 2) _ _ (fun i => targetDraws t (i + 1)) rfl rfl]
    rfl

theorem feedback_eq_dampedRule (t : ℕ) (s : State) (b : Block) :
    s.feedback t b = dampedRule (dampedDraws t) s b.length b.v := by
  rw [State.feedback, readFrac_eq_readRule, onePole_eq_poleRule]
  rfl

/-- The end of a sample, its draws counted from the start of the sample. -/
theorem emit_eq_emitRule (t : ℕ) (s : State) (sig : Word) :
    s.emit (t + 14) sig = emitRule (emitDraws t) s sig := by
  rw [State.emit_eq, s.internalSource_eq]
  rfl

theorem exciting_iff (s : State) : s.exciting = true ↔ 0 < s.burst.toNat := by simp [State.exciting]

/-- A sample that completes follows as `43_voice` R175 to R180 say. -/
theorem sampleFollows_of_sampleStep {b b' : Block} {s s' : State} (h : sampleStep b s = some (b', s')) :
    SampleFollows b.length b.v s s' := by
  obtain ⟨sig, u, he, -, rfl⟩ := sampleStep_eq_some h
  rw [feedback_eq_dampedRule] at he
  refine ⟨dampedDraws s.draws, emitDraws s.draws, u.draws + 20, ?_⟩
  rw [emit_eq_emitRule]
  rcases State.excite_eq_some he with ⟨hidle, rfl, rfl⟩ | ⟨hx, w, rest, hn, rfl, rfl⟩
  · refine .inl ⟨?_, rfl⟩
    have := (exciting_iff u).not.mp (by simp [hidle])
    omega
  · exact .inr ⟨(exciting_iff s).mp hx, w, rest, _, hn, rfl, rfl⟩

end Sys2Proof.Machine
end

section
/-!
PROOFS. The first samples of a block, one state after the other: where the noise reaches, each sample completes, and the
streams, the line, the phase and the frame after `n` of them follow by induction on `n`.
-/

namespace Sys2Proof.Machine

open Claims F32

/-- The block and the state before sample `n`, counted from `b` and `s`; a sample that waits leaves both as they are. -/
def afterSamples (b : Block) (s : State) : ℕ → Block × State
  | 0 => (b, s)
  | n + 1 => (sampleStep (afterSamples b s n).1 (afterSamples b s n).2).getD (afterSamples b s n)

/-- The words of the first `n` samples, each the soft clip of the sample's signal (`43_voice` R179). -/
def sampleWords (b : Block) (s : State) (n : ℕ) : List Word :=
  (List.range n).map fun j =>
    softClip ((afterSamples b s j).2.draws + 14) s.cfg.kClip (afterSamples b s (j + 1)).2.lastSig

/-! ### One sample -/

section Step

variable {b b' : Block} {s t t' : State}

/-- A sample pops one noise word and counts the burst down by one, or does neither (`43_voice` R177, R178). -/
theorem sampleStep_counts (h : sampleStep b s = some (b', t)) :
    t.burst.toNat = s.burst.toNat - 1 ∧ t.noise = s.noise.drop (min s.burst.toNat 1) := by
  obtain ⟨sig, y, exfZ, burst, noise, phi, rfl, -, -, ⟨hidle, -, rfl, rfl, -⟩ | ⟨hx, rfl, w, hn, -⟩⟩ :=
    sampleStep_state h
  · have h0 : s.burst.toNat = 0 := by simpa [State.exciting] using hidle
    simp [h0]
  · have hpos := (exciting_iff s).mp hx
    refine ⟨?_, ?_⟩
    · dsimp only
      bv_omega
    · rw [hn, Nat.min_eq_right hpos]; rfl

/-- What a sample does to the line and to OUT is to write and push its word (`43_voice` R179). -/
theorem sampleStep_word (h : sampleStep b s = some (b', t)) :
    ∃ y, y = softClip (s.draws + 14) s.cfg.kClip t.lastSig ∧ t.out = s.out ++ [y, y] ∧
      t.buf = (s.pushSample y).buf ∧ t.dlW = (s.pushSample y).dlW := by
  obtain ⟨sig, y, exfZ, burst, noise, phi, rfl, hy, -⟩ := sampleStep_state h
  exact ⟨y, hy, rfl, rfl, rfl⟩

/-- The state `t` is `s` but for what the samples of a block write (`10_state` R43; the block's first effects apart). -/
def SampleFrame (s t : State) : Prop :=
  t = { s with
    buf := t.buf, dlW := t.dlW, exfZ := t.exfZ, lfoPhi := t.lfoPhi, burst := t.burst, lastSig := t.lastSig,
    out := t.out, noise := t.noise, draws := t.draws }

theorem SampleFrame.cfg (hf : SampleFrame s t) : t.cfg = s.cfg := by rw [hf]

theorem SampleFrame.modCfg (hf : SampleFrame s t) : t.modCfg = s.modCfg := by rw [hf]

theorem SampleFrame.lfoF0 (hf : SampleFrame s t) : t.lfoF0 = s.lfoF0 := by rw [hf]

theorem SampleFrame.sampleStep (hf : SampleFrame s t) (h : sampleStep b t = some (b', t')) : SampleFrame s t' := by
  obtain ⟨sig, y, exfZ, burst, noise, phi, rfl, -⟩ := sampleStep_state h
  unfold SampleFrame at hf ⊢
  rw [hf]

end Step

/-! ### The first `n` samples -/

section Samples

variable {b : Block} {s r : State} {n : ℕ}

theorem afterSamples_succ {p : Block × State}
    (h : sampleStep (afterSamples b s n).1 (afterSamples b s n).2 = some p) : afterSamples b s (n + 1) = p := by
  rw [afterSamples, h]; rfl

/-- Sample `n` completes where the noise reaches behind it and the samples before it have counted as they should. -/
theorem sampleStep_of_counts {t : State} (b : Block) (hnoise : min s.burst.toNat (n + 1) ≤ s.noise.length)
    (hburst : t.burst.toNat = s.burst.toNat - n) (hn : t.noise = s.noise.drop (min s.burst.toNat n)) :
    ∃ p, sampleStep b t = some p := by
  cases h : sampleStep b t with
  | some p => exact ⟨p, rfl⟩
  | none =>
    obtain ⟨hx, hempty⟩ := sampleStep_eq_none.mp h
    have hpos := (exciting_iff t).mp hx
    have hlen := List.drop_eq_nil_iff.mp (hn.symm.trans hempty)
    omega

/-- Where the noise reaches, each sample counts the burst down and takes its noise word. -/
theorem afterSamples_counts (b : Block) (hnoise : min s.burst.toNat n ≤ s.noise.length) :
    (afterSamples b s n).2.burst.toNat = s.burst.toNat - n ∧
      (afterSamples b s n).2.noise = s.noise.drop (min s.burst.toNat n) := by
  induction n with
  | zero => simp [afterSamples]
  | succ n ih =>
    obtain ⟨hburst, hn⟩ := ih (by omega)
    obtain ⟨p, hp⟩ := sampleStep_of_counts (afterSamples b s n).1 hnoise hburst hn
    obtain ⟨hburst', hn'⟩ := sampleStep_counts hp
    rw [afterSamples_succ hp, hburst', hn', hburst, hn, List.drop_drop]
    refine ⟨by omega, ?_⟩
    congr 1
    omega

/-- Where the noise reaches, each sample completes. -/
theorem afterSamples_step (b : Block) (hnoise : min s.burst.toNat (n + 1) ≤ s.noise.length) :
    sampleStep (afterSamples b s n).1 (afterSamples b s n).2 =
      some ((afterSamples b s (n + 1)).1, (afterSamples b s (n + 1)).2) := by
  obtain ⟨hburst, hn⟩ := afterSamples_counts b (s := s) (n := n) (by omega)
  obtain ⟨p, hp⟩ := sampleStep_of_counts (afterSamples b s n).1 hnoise hburst hn
  rw [afterSamples_succ hp, hp]

/-- A block of samples is its first `n` ones and then the others. -/
theorem runBlock_afterSamples (b : Block) (left : ℕ) (hnoise : min s.burst.toNat n ≤ s.noise.length) :
    runBlock (n + left) b s = runBlock left (afterSamples b s n).1 (afterSamples b s n).2 := by
  induction n generalizing left with
  | zero => rw [Nat.zero_add]; rfl
  | succ n ih =>
    rw [Nat.add_assoc, Nat.add_comm 1, ih (left + 1) (by omega)]
    simp only [runBlock, afterSamples_step b hnoise]

/-- The block's temporaries but for the ramp value and the count of samples stay (`10_state` R40). -/
theorem afterSamples_block (b : Block) (hnoise : min s.burst.toNat n ≤ s.noise.length) :
    (afterSamples b s n).1 = ⟨b.length, b.inc, (afterSamples b s n).1.v, b.j + n, b.frames⟩ := by
  induction n with
  | zero => rfl
  | succ n ih =>
    obtain ⟨sig, u, -, hb, -⟩ := sampleStep_eq_some (afterSamples_step b hnoise)
    rw [hb, ih (by omega)]
    rfl

/-- The ramp value advances by the increment (`43_voice` R180). -/
theorem afterSamples_ramp (b : Block) (hnoise : min s.burst.toNat (n + 1) ≤ s.noise.length) :
    ∃ e, (afterSamples b s (n + 1)).1.v = fadd e (afterSamples b s n).1.v b.inc := by
  obtain ⟨sig, u, -, hb, -⟩ := sampleStep_eq_some (afterSamples_step b hnoise)
  have hinc : (afterSamples b s n).1.inc = b.inc := by rw [afterSamples_block b (by omega)]
  exact ⟨_, by rw [hb, hinc]⟩

theorem afterSamples_frame (b : Block) (hnoise : min s.burst.toNat n ≤ s.noise.length) :
    SampleFrame s (afterSamples b s n).2 := by
  induction n with
  | zero => rfl
  | succ n ih => exact (ih (by omega)).sampleStep (afterSamples_step b hnoise)

theorem sampleWords_length (b : Block) (s : State) (n : ℕ) : (sampleWords b s n).length = n := by simp [sampleWords]

theorem sampleWords_succ (b : Block) (s : State) (n : ℕ) :
    sampleWords b s (n + 1) = sampleWords b s n ++
      [softClip ((afterSamples b s n).2.draws + 14) s.cfg.kClip (afterSamples b s (n + 1)).2.lastSig] := by
  simp [sampleWords, List.range_succ]

theorem sampleWords_getD {j : ℕ} (b : Block) (s : State) (hj : j < n) :
    (sampleWords b s n).getD j 0#32 =
      softClip ((afterSamples b s j).2.draws + 14) s.cfg.kClip (afterSamples b s (j + 1)).2.lastSig := by
  simp [sampleWords, hj]

/-- Sample `n` writes and pushes its word. -/
theorem afterSamples_word (b : Block) (hnoise : min s.burst.toNat (n + 1) ≤ s.noise.length) :
    ∃ y, sampleWords b s (n + 1) = sampleWords b s n ++ [y] ∧
      (afterSamples b s (n + 1)).2.out = (afterSamples b s n).2.out ++ [y, y] ∧
      (afterSamples b s (n + 1)).2.buf = ((afterSamples b s n).2.pushSample y).buf ∧
      (afterSamples b s (n + 1)).2.dlW = ((afterSamples b s n).2.pushSample y).dlW := by
  have hcfg : (afterSamples b s n).2.cfg = s.cfg := (afterSamples_frame b (by omega)).cfg
  obtain ⟨y, hy, hout, hbuf, hdlW⟩ := sampleStep_word (afterSamples_step b hnoise)
  exact ⟨y, by rw [sampleWords_succ, hy, hcfg], hout, hbuf, hdlW⟩

/-- The streams after `n` samples (`43_voice` R177 to R179; `20_memory` R66, R68). -/
theorem afterSamples_streams (b : Block) (hnoise : min s.burst.toNat n ≤ s.noise.length) :
    StreamsDone s (afterSamples b s n).2 n (sampleWords b s n) := by
  obtain ⟨hburst, hn⟩ := afterSamples_counts b hnoise
  refine ⟨sampleWords_length b s n, ?_, hn, hburst⟩
  clear hburst hn
  induction n with
  | zero => simp [afterSamples, sampleWords]
  | succ n ih =>
    obtain ⟨y, hwords, hout, -⟩ := afterSamples_word b hnoise
    rw [hout, ih (by omega), hwords]
    simp

/-- The line depends on `BUF`, `DL_W` and the configuration only. -/
theorem lineDone_congr {t u : State} {ys : List Word} (h : LineDone s t n ys) (hbuf : u.buf = t.buf)
    (hdlW : u.dlW = t.dlW) (hcfg : u.cfg = t.cfg) : LineDone s u n ys := by
  have hu : u = { u with buf := t.buf, dlW := t.dlW, cfg := t.cfg } := by rw [← hbuf, ← hdlW, ← hcfg]
  rw [hu]
  exact { h with }

/-- The line after `n` samples, counted from where the block found it (`43_voice` R179; `20_memory` R72). -/
theorem afterSamples_line (b : Block) (hstart : LineDone r s 0 []) (hcfg : s.cfg = r.cfg) (hc : r.cfg.log2c ≤ 24)
    (hw : Memory.wf s.buf = true) (hnoise : min s.burst.toNat n ≤ s.noise.length) :
    LineDone r (afterSamples b s n).2 n (sampleWords b s n) ∧ Memory.wf (afterSamples b s n).2.buf = true := by
  induction n with
  | zero => exact ⟨hstart, hw⟩
  | succ n ih =>
    obtain ⟨hline, hwf⟩ := ih (by omega)
    obtain ⟨y, hwords, -, hbuf, hdlW⟩ := afterSamples_word b hnoise
    have hcfg₀ : (afterSamples b s n).2.cfg = s.cfg := (afterSamples_frame b (by omega)).cfg
    have hcfg₁ : (afterSamples b s (n + 1)).2.cfg = s.cfg := (afterSamples_frame b hnoise).cfg
    have hpush := lineDone_push hline (sampleWords_length b s n) (hcfg₀.trans hcfg) hc hwf y
    rw [hwords, hbuf]
    exact ⟨lineDone_congr hpush hbuf hdlW (hcfg₁.trans hcfg₀.symm), State.pushSample_wf y hwf⟩

/-- The phase after `n` samples: advanced by each in the internal source (`43_voice` R180, `42_lfo` R133). -/
theorem afterSamples_lfoPhi (b : Block) {d : ℕ → ℕ → ℕ}
    (hd : ∀ j, d j = drawsUp ((afterSamples b s j).2.draws + 18)) (hnoise : min s.burst.toNat n ≤ s.noise.length) :
    (afterSamples b s n).2.lfoPhi = if s.modCfg.getLsbD 0 then
      (List.range n).foldl (fun p j => advanceRule (d j) p s.lfoF0) s.lfoPhi else s.lfoPhi := by
  induction n with
  | zero => simp [afterSamples]
  | succ n ih =>
    have hframe := afterSamples_frame b (s := s) (n := n) (by omega)
    have hmod : (afterSamples b s n).2.modCfg = s.modCfg := hframe.modCfg
    have hf0 : (afterSamples b s n).2.lfoF0 = s.lfoF0 := hframe.lfoF0
    obtain ⟨sig, y, exfZ, burst, noise, phi, hs, -, hphi, -⟩ := sampleStep_state (afterSamples_step b hnoise)
    rw [State.internalSource_eq, hmod, hf0, ih (by omega)] at hphi
    rw [hs, hphi]
    split
    · rw [List.range_succ, List.foldl_append, wrapAdd_eq_advanceRule, List.foldl_cons, List.foldl_nil, hd]
    · rfl

end Samples

/-! ### The samples of a `PROCESS` -/

section Blocks

variable (s : State) (frames : ℕ) (host : Word)

/-- The block's temporaries and the state before sample `n` of a `PROCESS` on `s`. -/
def blockSamples (n : ℕ) : Block × State :=
  afterSamples (s.openBlock frames host).1 (s.openBlock frames host).2 n

/-- The words of the first `n` samples of a `PROCESS` on `s`. -/
def blockWords (n : ℕ) : List Word :=
  sampleWords (s.openBlock frames host).1 (s.openBlock frames host).2 n

/-- A pending reset changes the line and the flag only, and leaves the line of `43_voice` R171 (b). -/
theorem State.consumeReset_eq_lineAtStart :
    s.consumeReset = { s with buf := (lineAtStart s).buf, dlW := (lineAtStart s).dlW, resetPend := false } := by
  unfold lineAtStart
  cases h : s.resetPend
  · rw [State.consumeReset_of_not_pending h, if_neg (by simp), ← h]
  · rw [State.consumeReset_of_pending h, if_pos rfl]

/-- The temporaries a block starts with (`43_voice` R172 to R174). -/
theorem openBlock_block :
    (s.openBlock frames host).1 =
      ⟨lengthRule s.draws s, fdiv (s.draws + 7)
        (fsub (s.draws + 6) (targetRule (targetDraws (s.draws + 1)) s host) s.modCur) (u2f frames),
        s.modCur, 0, frames⟩ := by
  rw [← modTarget_eq_targetRule]
  unfold State.openBlock
  rw [State.consumeReset_eq_lineAtStart]
  rfl

/-- The state a block starts its first sample in (`43_voice` R171 (b), R173, R174). -/
theorem openBlock_start :
    (s.openBlock frames host).2 = { s with
      buf := (lineAtStart s).buf, dlW := (lineAtStart s).dlW, resetPend := false, modPrev := s.modCur,
      modCur := targetRule (targetDraws (s.draws + 1)) s host, draws := s.draws + 8 } := by
  rw [State.openBlock_state, State.consumeReset_eq_lineAtStart, ← modTarget_eq_targetRule]
  rfl

@[simp] theorem openBlock_burst : (s.openBlock frames host).2.burst = s.burst := by rw [openBlock_start]
@[simp] theorem openBlock_lfoPhi : (s.openBlock frames host).2.lfoPhi = s.lfoPhi := by rw [openBlock_start]
@[simp] theorem openBlock_lfoF0 : (s.openBlock frames host).2.lfoF0 = s.lfoF0 := by rw [openBlock_start]
@[simp] theorem openBlock_modCfg : (s.openBlock frames host).2.modCfg = s.modCfg := by rw [openBlock_start]
@[simp] theorem openBlock_out : (s.openBlock frames host).2.out = s.out := by rw [openBlock_start]
@[simp] theorem openBlock_noise : (s.openBlock frames host).2.noise = s.noise := by rw [openBlock_start]
@[simp] theorem openBlock_cfg : (s.openBlock frames host).2.cfg = s.cfg := by rw [openBlock_start]

/-- A block starts from the line it finds, or from the cleared one (`43_voice` R171 (b)). -/
theorem lineDone_openBlock : LineDone s (s.openBlock frames host).2 0 [] := by
  rw [openBlock_start]
  unfold lineAtStart
  cases h : s.resetPend
  · exact lineDone_start (by rw [h]; rfl) fun k => by rw [h]; rfl
  · exact lineDone_start (by rw [h]; simp [State.cursor]) fun k => by rw [h]; rfl

theorem openBlock_wf (hw : Memory.wf s.buf = true) : Memory.wf (s.openBlock frames host).2.buf = true := by
  rw [openBlock_start]
  unfold lineAtStart
  split
  · rfl
  · exact hw

variable {n : ℕ}

/-- The noise reaches behind the first `n` samples of the opened block where it does so before. -/
theorem openBlock_reach (hnoise : min s.burst.toNat n ≤ s.noise.length) :
    min (s.openBlock frames host).2.burst.toNat n ≤ (s.openBlock frames host).2.noise.length := by
  rwa [openBlock_burst, openBlock_noise]

/-- A block of which the noise reaches behind the first `n` samples is these and then the others. -/
theorem exec_process_blockSamples {frames : Word} {left : ℕ} (hi : s.inited = true) (hf : frames.toNat = n + left)
    (hpos : frames.toNat ≠ 0) (hnoise : min s.burst.toNat n ≤ s.noise.length) :
    exec (.process frames host) s = .next (runBlock left (blockSamples s frames.toNat host n).1
      (blockSamples s frames.toNat host n).2) := by
  rw [exec_process_of_inited host hi hpos, blockSamples,
    ← runBlock_afterSamples _ left (openBlock_reach s _ _ hnoise), ← hf]
  rfl

/-- The block's temporaries before sample `n`. -/
theorem blockSamples_block (hnoise : min s.burst.toNat n ≤ s.noise.length) :
    (blockSamples s frames host n).1 = ⟨(s.openBlock frames host).1.length, (s.openBlock frames host).1.inc,
      (blockSamples s frames host n).1.v, n, frames⟩ := by
  have h := afterSamples_block (s.openBlock frames host).1 (openBlock_reach s frames host hnoise)
  rwa [show (s.openBlock frames host).1.j = 0 from rfl, Nat.zero_add] at h

/-- What the first samples of a block leave as it was before the block. -/
theorem blockSamples_frame (hnoise : min s.burst.toNat n ≤ s.noise.length) :
    (blockSamples s frames host n).2 = { s with
      buf := (blockSamples s frames host n).2.buf
      dlW := (blockSamples s frames host n).2.dlW
      exfZ := (blockSamples s frames host n).2.exfZ
      lfoPhi := (blockSamples s frames host n).2.lfoPhi
      burst := (blockSamples s frames host n).2.burst
      lastSig := (blockSamples s frames host n).2.lastSig
      out := (blockSamples s frames host n).2.out
      noise := (blockSamples s frames host n).2.noise
      draws := (blockSamples s frames host n).2.draws
      resetPend := false
      modPrev := s.modCur
      modCur := (s.openBlock frames host).2.modCur } := by
  have h : SampleFrame _ (blockSamples s frames host n).2 :=
    afterSamples_frame (s.openBlock frames host).1 (openBlock_reach s frames host hnoise)
  rw [openBlock_start] at h ⊢
  exact h

/-- The first samples of a `PROCESS` follow as `43_voice` R171 to R180 say, as far as the noise reaches. -/
theorem samplesFollow_blockSamples (hnoise : min s.burst.toNat n ≤ s.noise.length) :
    SamplesFollow s frames host n (blockDraws s fun j => (blockSamples s frames host j).2)
      (fun j => (blockSamples s frames host j).2) (fun j => (blockSamples s frames host j).1.v)
      (s.openBlock frames host).1.length (s.openBlock frames host).2.modCur (s.openBlock frames host).1.inc where
  length_eq := by rw [openBlock_block]; rfl
  target_eq := by rw [openBlock_start]; rfl
  inc_eq := by rw [openBlock_block, openBlock_start]; rfl
  start := by
    have hline : lineAtStart s = { s with buf := (lineAtStart s).buf, dlW := (lineAtStart s).dlW } := by
      unfold lineAtStart
      split <;> rfl
    change (s.openBlock frames host).2 = { lineAtStart s with
      resetPend := false, modPrev := s.modCur, modCur := (s.openBlock frames host).2.modCur
      draws := (s.openBlock frames host).2.draws }
    rw [openBlock_start, hline]
  ramp_start := by
    change (s.openBlock frames host).1.v = s.modCur
    rw [openBlock_block]
  sample := fun j hj => by
    have hblock := blockSamples_block s frames host (n := j) (by omega)
    have hstep := afterSamples_step (s.openBlock frames host).1
      (openBlock_reach s frames host (n := j + 1) (by omega))
    have hfollows := sampleFollows_of_sampleStep hstep
    rwa [show (afterSamples _ _ j).1.length = _ from congrArg Block.length hblock] at hfollows
  ramp := fun j hj =>
    afterSamples_ramp (s.openBlock frames host).1 (openBlock_reach s frames host (n := j + 1) (by omega))

/-- Each word of the block is the soft clip of its sample's signal (`43_voice` R163, R179). -/
theorem blockWords_eq_clipRule {j : ℕ} (hj : j < n) : ∃ e, (blockWords s frames host n).getD j 0#32 =
    clipRule e s.cfg.kClip (blockSamples s frames host (j + 1)).2.lastSig := by
  refine ⟨clipDraws ((blockSamples s frames host j).2.draws + 14), ?_⟩
  rw [blockWords, sampleWords_getD _ _ hj, openBlock_cfg]
  rfl

/-- The streams after the first `n` samples of a block. -/
theorem blockSamples_streams (hnoise : min s.burst.toNat n ≤ s.noise.length) :
    StreamsDone s (blockSamples s frames host n).2 n (blockWords s frames host n) := by
  obtain ⟨hcount, hout, hn, hburst⟩ :=
    afterSamples_streams (s.openBlock frames host).1 (openBlock_reach s frames host hnoise)
  rw [openBlock_out] at hout
  rw [openBlock_noise, openBlock_burst] at hn
  rw [openBlock_burst] at hburst
  exact ⟨hcount, hout, hn, hburst⟩

/-- The line after the first `n` samples of a block. -/
theorem blockSamples_line (hc : s.cfg.log2c ≤ 24) (hw : Memory.wf s.buf = true)
    (hnoise : min s.burst.toNat n ≤ s.noise.length) :
    LineDone s (blockSamples s frames host n).2 n (blockWords s frames host n) :=
  (afterSamples_line _ (lineDone_openBlock s frames host) (openBlock_cfg s frames host) hc
    (openBlock_wf s frames host hw) (openBlock_reach s frames host hnoise)).1

/-- The phase after the first `n` samples of a block. -/
theorem blockSamples_lfoPhi (hnoise : min s.burst.toNat n ≤ s.noise.length) :
    (blockSamples s frames host n).2.lfoPhi = if s.modCfg.getLsbD 0 then
      (List.range n).foldl (fun p j =>
        advanceRule (blockDraws s (fun j => (blockSamples s frames host j).2) (j + 3)) p s.lfoF0) s.lfoPhi
    else s.lfoPhi := by
  have h := afterSamples_lfoPhi (s.openBlock frames host).1 (fun _ => rfl) (openBlock_reach s frames host hnoise)
  rwa [openBlock_modCfg, openBlock_lfoF0, openBlock_lfoPhi] at h

end Blocks

/-- The first samples that exciting takes through all the words leave no noise (`20_memory` R68). -/
theorem blockSamples_noise_nil {s : State} (frames : ℕ) (host : Word) (h : s.noise.length ≤ s.burst.toNat) :
    (blockSamples s frames host s.noise.length).2.noise = [] := by
  rw [(blockSamples_streams s frames host (Nat.min_le_right _ _)).noise, Nat.min_eq_right h, List.drop_length]

/-- Where the burst and the frames reach behind the noise, the block waits in the sample whose word is missing. -/
theorem exec_process_waits {s : State} {frames : Word} (host : Word) (hi : s.inited = true)
    (hwait : s.noise.length < min s.burst.toNat frames.toNat) :
    exec (.process frames host) s = .next { (blockSamples s frames.toNat host s.noise.length).2 with
      inFlight := some (blockSamples s frames.toNat host s.noise.length).1 } := by
  have hreach : min s.burst.toNat s.noise.length ≤ s.noise.length := Nat.min_le_right _ _
  have hburst := (blockSamples_streams s frames.toNat host hreach).burst
  have hempty := blockSamples_noise_nil frames.toNat host (show s.noise.length ≤ s.burst.toNat by omega)
  have hx : (blockSamples s frames.toNat host s.noise.length).2.exciting = true :=
    (exciting_iff _).mpr (by omega)
  obtain ⟨left, hleft⟩ := Nat.exists_eq_add_of_lt (show s.noise.length < frames.toNat by omega)
  rw [exec_process_blockSamples s host hi (left := left + 1) hleft (by omega) hreach, runBlock,
    sampleStep_eq_none.mpr ⟨hx, hempty⟩]

/-- Settles O26: the noise reaches behind as many samples as there are words, and the next one waits. -/
theorem processWaitsForAMissingNoiseWord : Obligations.ProcessWaitsForAMissingNoiseWord := by
  unfold Obligations.ProcessWaitsForAMissingNoiseWord
  intro s frames host hi hidle hwait
  have hreach : min s.burst.toNat s.noise.length ≤ s.noise.length := Nat.min_le_right _ _
  have hempty := blockSamples_noise_nil frames.toNat host (show s.noise.length ≤ s.burst.toNat by omega)
  have hframe := blockSamples_frame s frames.toNat host hreach
  have hblock := blockSamples_block s frames.toNat host hreach
  exact ⟨_, blockWords s frames.toNat host s.noise.length, _, _, _, _, _, _, exec_process_waits host hi hwait,
    samplesFollow_blockSamples s frames.toNat host hreach, by rw [← hblock],
    fun j hj => blockWords_eq_clipRule s _ host hj, { blockSamples_streams s frames.toNat host hreach with },
    fun ⟨_, hc, _⟩ hw => { blockSamples_line s frames.toNat host hc hw hreach with }, hempty,
    (congrArg State.resp hframe :), (congrArg State.port hframe :), (congrArg State.resetPend hframe :),
    (congrArg State.modPrev hframe :), (congrArg State.modCur hframe :),
    blockSamples_lfoPhi s frames.toNat host hreach, by dsimp only; rw [hframe]⟩

end Sys2Proof.Machine
end

section
/-!
PROOFS. The encoding (`30_encoding` R80 to R85, R90): which packets the decoder reads, which it rejects, and the bytes a
packet is serialised to.
-/

namespace Sys2Proof

open Claims

/-! ### The decoder (R80 to R83) -/

/-- The decoder reads what the opcode selects. -/
theorem decode_eq_ok_iff {p : Packet} {i : Instr} :
    decode p = .ok i ↔ decodeOpcode p.w0.toNat p.a p.b = some i := by
  unfold decode
  cases decodeOpcode p.w0.toNat p.a p.b with
  | some j => simp
  | none => dsimp only; split_ifs <;> simp

/-- A packet whose command word is the opcode of a command is read as that command, with the operand words it uses. -/
theorem decode_of_selects {p : Packet} {i : Instr} (h : Selects p i) : decode p = .ok i := by
  obtain ⟨w0, a, b⟩ := p
  cases i with
  | init | param | process | lfoSetf => obtain ⟨rfl, rfl, rfl⟩ := h; rfl
  | noteOn | pitch | rdreg | dlWrite | dlReadx | dlReadf | opSetc | opProc | lfoSino | lfoTrio | lfoSawo | lfoSqro =>
    obtain ⟨rfl, rfl⟩ := h; rfl
  | nop | noteOff | dlClear | lfoReset | lfoAdv | lfoSin | lfoTri | lfoSaw | lfoSqr => cases h; rfl

/-- The decoder reads a command from no other packet: each row of its table is the opcode of the command it answers. -/
theorem selects_of_decode {p : Packet} {i : Instr} (h : decode p = .ok i) : Selects p i := by
  rw [decode_eq_ok_iff] at h
  unfold decodeOpcode at h
  split at h <;> cases h
  all_goals next hw => simp [Selects, BitVec.toNat_eq, hw]

theorem decode_eq_ok_iff_selects {p : Packet} {i : Instr} : decode p = .ok i ↔ Selects p i :=
  ⟨selects_of_decode, decode_of_selects⟩

/-! ### Reserved encodings (R85) -/

/-- The command words that `30_encoding` R85 reserves: `RSV` not 0, a unit from 4 on, an unassigned function. -/
def ReservedWord (w : ℕ) : Prop :=
  w / 256 ≠ 0 ∨ 4 ≤ w / 16 % 16 ∨ (0x08 ≤ w ∧ w ≤ 0x0F) ∨ (0x14 ≤ w ∧ w ≤ 0x1F) ∨ (0x22 ≤ w ∧ w ≤ 0x2F) ∨ w = 0x33 ∨
    (0x38 ≤ w ∧ w ≤ 0x3B)

/-- The table of R83 has a row for exactly the command words that R85 does not reserve. -/
theorem decodeOpcode_eq_none_iff (w : ℕ) (a b : Word) : decodeOpcode w a b = none ↔ ReservedWord w := by
  unfold decodeOpcode ReservedWord
  split
  case h_26 => simp only [true_iff, imp_false] at *; omega
  all_goals simp

theorem exists_decode_eq_ok_iff (p : Packet) : (∃ i, decode p = .ok i) ↔ ¬ ReservedWord p.w0.toNat := by
  simp only [decode_eq_ok_iff, ← decodeOpcode_eq_none_iff _ p.a p.b, ← Option.ne_none_iff_exists', ne_eq]

/-- Settles O2, by the rows of the decoder's table and the command words that have none. -/
theorem decoderAcceptsExactlyAssignedEncodings : Obligations.DecoderAcceptsExactlyAssignedEncodings :=
  ⟨fun _ _ => decode_eq_ok_iff_selects, exists_decode_eq_ok_iff⟩

/-- Settles O3: seven of the packets select their commands, and three fail one check each. -/
theorem specPacketsDecodeToTheirCommands : Obligations.SpecPacketsDecodeToTheirCommands :=
  ⟨decode_of_selects rfl, decode_of_selects ⟨rfl, rfl, rfl⟩, decode_of_selects ⟨rfl, rfl, rfl⟩,
    decode_of_selects ⟨rfl, rfl⟩, decode_of_selects ⟨rfl, rfl⟩, decode_of_selects ⟨rfl, rfl, rfl⟩,
    decode_of_selects ⟨rfl, rfl⟩, rfl, rfl, rfl⟩

/-! ### Bytes (R90) -/

/-- The packet of a command selects it. -/
theorem selects_encode (i : Instr) : Selects (encode i) i := by
  cases i <;> simp [Selects, encode, Instr.opcode, Instr.operands]

theorem decode_encode (i : Instr) : decode (encode i) = .ok i := decode_of_selects (selects_encode i)

/-- A word is put together again from its bytes. -/
theorem wordOfBytes_bytes (w : Word) :
    wordOfBytes (BitVec.ofNat 8 w.toNat) (BitVec.ofNat 8 (w.toNat / 2 ^ 8)) (BitVec.ofNat 8 (w.toNat / 2 ^ 16))
      (BitVec.ofNat 8 (w.toNat / 2 ^ 24)) = w := by
  apply BitVec.eq_of_toNat_eq
  simp only [wordOfBytes, BitVec.toNat_ofNat]
  omega

/-- The twelve bytes of a packet are read as the packet, whatever follows. -/
theorem packetOfBytes_toBytes (p : Packet) (rest : List Byte) : packetOfBytes (p.toBytes ++ rest) = some (p, rest) := by
  simp only [Packet.toBytes, bytesOfWord, List.cons_append, List.nil_append, packetOfBytes, wordOfBytes_bytes]

/-- Settles O1: the bytes give the packet back, and the packet selects its command. -/
theorem serialisedCommandDecodesToItself : Obligations.SerialisedCommandDecodesToItself := by
  unfold Obligations.SerialisedCommandDecodesToItself
  intro i rest
  simp only [decodeBytes, packetOfBytes_toBytes, decode_encode]

end Sys2Proof
end

section
/-!
PROOFS. The command port (`30_encoding` R84 to R87): what a step does with the packet it accepts, the gate before `INIT`,
and the one response of a completed command.
-/

namespace Sys2Proof.Machine

variable {s t : State} {p : Packet} {rest : List Packet}

theorem State.accept_of_port (h : s.port = p :: rest) : s.accept = some (p, { s with port := rest }) := by
  simp [State.accept, h]

/-- With no command in progress a step executes the command of the oldest packet. -/
theorem step_of_decode_ok {i : Instr} (hidle : s.inFlight = none) (hport : s.port = p :: rest)
    (hd : decode p = .ok i) : step s = exec i { s with port := rest } := by
  simp [step, hidle, State.accept_of_port hport, hd]

/-- A rejected packet is taken and answered with 0. -/
theorem step_of_decode_error {e : DecodeError} (hidle : s.inFlight = none) (hport : s.port = p :: rest)
    (hd : decode p = .error e) : step s = .next (State.respond { s with port := rest } 0#32) := by
  simp [step, hidle, State.accept_of_port hport, hd, reservedNoOperation]

/-- Settles O4. -/
theorem stepExecutesTheDecodedCommand : Obligations.StepExecutesTheDecodedCommand :=
  fun _ _ _ _ => step_of_decode_ok

/-- Settles O5: the decoder rejects every reserved command word. -/
theorem reservedEncodingIsNoOperation : Obligations.ReservedEncodingIsNoOperation := by
  unfold Obligations.ReservedEncodingIsNoOperation
  intro s p rest hidle hport hreserved
  cases hd : decode p with
  | ok i => exact absurd hreserved ((exists_decode_eq_ok_iff p).mp ⟨i, hd⟩)
  | error e => exact step_of_decode_error hidle hport hd

/-- Settles O7: every command but the three stands behind the gate of `30_encoding` R87. -/
theorem commandsBeforeInitAreIgnored : Obligations.CommandsBeforeInitAreIgnored := by
  unfold Obligations.CommandsBeforeInitAreIgnored
  intro i s hs hnop hinit hrdreg
  cases i with
  | nop => exact absurd rfl hnop
  | init platformId apiVersion => exact absurd rfl (hinit platformId apiVersion)
  | rdreg number => exact absurd rfl (hrdreg number)
  | _ =>
    simp only [exec_param, exec_noteOn, exec_noteOff, exec_pitch, exec_process, exec_dlWrite, exec_dlReadx,
      exec_dlReadf, exec_dlClear, exec_opSetc, exec_opProc, exec_lfoSetf, exec_lfoReset, exec_lfoAdv, exec_lfoSin,
      exec_lfoTri, exec_lfoSaw, exec_lfoSqr, exec_lfoSino, exec_lfoTrio, exec_lfoSawo, exec_lfoSqro,
      gated_of_not_inited hs, State.respond]

/-! ### The responses (R84) -/

/-- The samples of a block take no packet, and end in the one response 0 or in a wait without one. -/
theorem runBlock_answers (left : ℕ) (b : Block) (hidle : s.inFlight = none) :
    (runBlock left b s).port = s.port ∧
      (((runBlock left b s).inFlight = none ∧ (runBlock left b s).resp = s.resp ++ [0#32]) ∨
        ((runBlock left b s).inFlight ≠ none ∧ (runBlock left b s).resp = s.resp)) := by
  induction left generalizing b s with
  | zero => exact ⟨rfl, .inl ⟨hidle, rfl⟩⟩
  | succ left ih =>
    unfold runBlock
    cases hs : sampleStep b s with
    | none => exact ⟨rfl, .inr ⟨Option.some_ne_none b, rfl⟩⟩
    | some sample =>
      obtain ⟨b', s'⟩ := sample
      obtain ⟨sig, y, exfZ, burst, noise, phi, rfl, -⟩ := sampleStep_state hs
      exact ih b' hidle

/-- A command takes no further packet, and completes with one response or is a `PROCESS` that waits without one. -/
theorem exec_answers {i : Instr} (hidle : s.inFlight = none) (h : exec i s = .next t) :
    t.port = s.port ∧
      ((t.inFlight = none ∧ ∃ r, t.resp = s.resp ++ [r]) ∨
        (t.inFlight ≠ none ∧ t.resp = s.resp ∧ ∃ n b, i = .process n b)) := by
  cases writes_of_exec h with
  | process frames target hi hf =>
    obtain ⟨buf, dlW, modCur, hopen⟩ := s.openBlock_eq (u32 frames) target
    have hanswers := runBlock_answers (s := (s.openBlock (u32 frames) target).2) (u32 frames)
      (s.openBlock (u32 frames) target).1 (by rw [hopen]; exact hidle)
    rw [hopen] at hanswers ⊢
    obtain ⟨hport, ⟨hdone, hresp⟩ | ⟨hwait, hresp⟩⟩ := hanswers
    · exact ⟨hport, .inl ⟨hdone, _, hresp⟩⟩
    · exact ⟨hport, .inr ⟨hwait, hresp, frames, target, rfl⟩⟩
  | _ => exact ⟨rfl, .inl ⟨hidle, _, rfl⟩⟩

/-- Settles O8: an accepted packet is executed or rejected, and a waiting block goes on with its samples. -/
theorem oneResponsePerCompletedCommand : Obligations.OneResponsePerCompletedCommand := by
  unfold Obligations.OneResponsePerCompletedCommand
  refine ⟨fun s t p rest hidle hport hstep => ?_, fun s t b hb hstep => ?_⟩
  · cases hd : decode p with
    | ok i =>
      rw [step_of_decode_ok hidle hport hd] at hstep
      simpa using exec_answers (s := { s with port := rest }) hidle hstep
    | error e =>
      rw [step_of_decode_error hidle hport hd] at hstep
      obtain rfl := Host.Outcome.next.inj hstep
      exact ⟨rfl, .inl ⟨hidle, _, rfl⟩⟩
  · rw [step_of_waiting hb] at hstep
    obtain rfl := Host.Outcome.next.inj hstep
    exact runBlock_answers (s := { s with inFlight := none }) _ b rfl

end Sys2Proof.Machine
end

section
/-!
PROOFS. What a correct rounding (`00_scope` R6) makes of exact results: a representable value is answered as it is, and a
result below the overflow threshold is finite; with it the integers up to 2^24 and the fraction of a delay.
-/

namespace Sys2Proof.F32

open Sys2Proof.Claims

/-! ### Rounding an exact result -/

/-- Only a result at or beyond the overflow threshold is rounded to an infinity. -/
theorem isFinite_of_isCorrectlyRounded {q : ℚ} {v : Word} (h : IsCorrectlyRounded q v)
    (hq : |q| < (2 ^ 25 - 1) * 2 ^ 103) : isFinite v = true := by
  obtain ⟨hlo, hhi⟩ := abs_lt.mp hq
  rcases h with ⟨hv, -⟩ | ⟨-, -, hover⟩ | ⟨-, -, hover⟩
  · exact hv
  · exact absurd hover (not_le.mpr hhi)
  · exact absurd hover (not_le.mpr hlo)

theorem abs_toRat_lt_of_isFinite {w : Word} (h : isFinite w = true) : |toRat w| < (2 ^ 25 - 1) * 2 ^ 103 := by
  have hmag : magBits w ≤ infMag - 1 := Nat.le_sub_one_of_lt (by simpa [isFinite] using h)
  have hunits : units w ≤ (2 ^ 24 - 1) * 2 ^ 253 := magUnits_le_iff.mpr hmag
  rw [toRat_eq_withSign, abs_div, abs_withSign _ (by positivity), abs_of_pos (by positivity : (0 : ℚ) < 2 ^ 149),
    div_lt_iff₀ (by positivity)]
  calc (units w : ℚ) ≤ ((2 ^ 24 - 1) * 2 ^ 253 : ℕ) := by exact_mod_cast hunits
    _ < (2 ^ 25 - 1) * 2 ^ 103 * 2 ^ 149 := by norm_num

/-- The rounding of a representable value has that value. -/
theorem toRat_of_isCorrectlyRounded {w v : Word} (hw : isFinite w = true) (h : IsCorrectlyRounded (toRat w) v) :
    isFinite v = true ∧ toRat v = toRat w := by
  have hv := isFinite_of_isCorrectlyRounded h (abs_toRat_lt_of_isFinite hw)
  rcases h with ⟨-, -, hnearest, -⟩ | ⟨hinf, -⟩ | ⟨hinf, -⟩
  · have hdist := hnearest w hw
    rw [sub_self, abs_zero, abs_nonpos_iff, sub_eq_zero] at hdist
    exact ⟨hv, hdist⟩
  · simp [(isFinite_iff.mp hv).2] at hinf
  · simp [(isFinite_iff.mp hv).2] at hinf

variable {a b : Word}

theorem toRat_zero : toRat zero = 0 := toRat_eq_zero.mpr rfl

theorem isFinite_zero : isFinite zero = true := by decide

theorem toRat_fsub_self (t : ℕ) (ha : isFinite a = true) : isFinite (fsub t a a) = true ∧ toRat (fsub t a a) = 0 := by
  have h := isCorrectlyRounded_fsub t ha ha
  rw [sub_self, ← toRat_zero] at h
  simpa only [toRat_zero] using toRat_of_isCorrectlyRounded isFinite_zero h

theorem toRat_fmul_of_toRat_eq_zero (t : ℕ) (ha : isFinite a = true) (hb : isFinite b = true) (h0 : toRat a = 0) :
    isFinite (fmul t a b) = true ∧ toRat (fmul t a b) = 0 := by
  have h := isCorrectlyRounded_fmul t ha hb
  rw [h0, zero_mul, ← toRat_zero] at h
  simpa only [toRat_zero] using toRat_of_isCorrectlyRounded isFinite_zero h

theorem toRat_fadd_of_toRat_eq_zero (t : ℕ) (ha : isFinite a = true) (hb : isFinite b = true) (h0 : toRat b = 0) :
    toRat (fadd t a b) = toRat a := by
  have h := isCorrectlyRounded_fadd t ha hb
  rw [h0, add_zero] at h
  exact (toRat_of_isCorrectlyRounded ha h).2

/-! ### The integers up to 2^24 and the fraction of a delay (R8) -/

theorem u2f_zero : u2f 0 = zero := by rw [u2f, Nat.zero_mul, roundMag_zero]; rfl

theorem isFinite_u2f {n : ℕ} (hn : n ≤ 2 ^ 24) : isFinite (u2f n) = true := by
  refine isFinite_of_isCorrectlyRounded (isCorrectlyRounded_u2f n) ?_
  rw [Nat.abs_cast]
  calc (n : ℚ) ≤ (2 ^ 24 : ℕ) := by exact_mod_cast hn
    _ < (2 ^ 25 - 1) * 2 ^ 103 := by norm_num

theorem isNaN_u2f (n : ℕ) : isNaN (u2f n) = false := isNaN_pack_roundMag _ _ _

theorem fle_u2f {m n : ℕ} (hmn : m ≤ n) (hn : n ≤ 2 ^ 24) : fle (u2f m) (u2f n) = true := by
  rw [fle_iff (isNaN_u2f m) (isNaN_u2f n), toRat_u2f_of_le (hmn.trans hn), toRat_u2f_of_le hn]
  exact_mod_cast hmn

theorem fle_zero_u2f {n : ℕ} (hn : n ≤ 2 ^ 24) : fle zero (u2f n) = true := u2f_zero ▸ fle_u2f n.zero_le hn

theorem floorI_u2f {n : ℕ} (hn : n ≤ 2 ^ 24) : floorI (u2f n) = n := by
  have hval := toRat_u2f_of_le hn
  have hfloor := floorI_eq_floor (x := u2f n) (by rw [hval]; positivity)
  rw [hval, Int.floor_natCast] at hfloor
  exact_mod_cast hfloor

theorem clamp_u2f {m n : ℕ} (hmn : m ≤ n) (hn : n ≤ 2 ^ 24) : clamp zero (u2f m) (u2f n) = u2f m := by
  obtain ⟨-, -, -, hinside⟩ := clampAnswersWithinItsBounds zero (u2f m) (u2f n) (fle_zero_u2f hn)
  have hlo : ¬ flt (u2f m) zero = true := (fge_iff_not_flt (isNaN_u2f m) rfl).mp (fle_zero_u2f (hmn.trans hn))
  have hhi : ¬ flt (u2f n) (u2f m) = true := (fge_iff_not_flt (isNaN_u2f n) (isNaN_u2f m)).mp (fle_u2f hmn hn)
  exact hinside (isNaN_u2f m) (Bool.eq_false_iff.mpr hlo) (Bool.eq_false_iff.mpr hhi)

/-- A delay up to 2^24 less its integer part is finite: before it is rounded it is the fractional part of the delay. -/
theorem isFinite_fsub_floorI {n : ℕ} {x : Word} (t : ℕ) (hn : n ≤ 2 ^ 24) (h0 : fle zero x = true)
    (h1 : fle x (u2f n) = true) : isFinite (fsub t x (u2f (floorI x))) = true := by
  have hx := isFinite_of_between isFinite_zero (isFinite_u2f hn) h0 h1
  have hnan := (isFinite_iff.mp hx).1
  have hnonneg : 0 ≤ toRat x := toRat_zero ▸ (fle_iff rfl hnan).mp h0
  have hle : toRat x ≤ n := toRat_u2f_of_le hn ▸ (fle_iff hnan (isNaN_u2f n)).mp h1
  have hfloor := floorI_eq_floor hnonneg
  have hint : floorI x ≤ 2 ^ 24 := by
    have : ⌊toRat x⌋ ≤ n := Int.floor_le_iff.mpr (by push_cast; linarith)
    omega
  have hfract : toRat x - toRat (u2f (floorI x)) = Int.fract (toRat x) := by
    rw [toRat_u2f_of_le hint, Int.fract, ← hfloor, Int.cast_natCast]
  refine isFinite_of_isCorrectlyRounded (isCorrectlyRounded_fsub t hx (isFinite_u2f hint)) ?_
  rw [hfract, Int.abs_fract]
  exact (Int.fract_lt_one _).trans (by norm_num)

end Sys2Proof.F32
end

section
/-!
PROOFS. The commands of the delay line unit (`40_delay_line` R101 to R106): what `DL.WRITE`, `DL.READX`, `DL.READF` and
`DL.CLEAR` answer and leave, and the fractional read of a cleared line and at an integer delay.
-/

namespace Sys2Proof.Machine

open F32

variable {s : State}

/-! ### The fractional read (R104) -/

theorem State.capacity_le (hc : s.cfg.log2c ≤ 24) : s.capacity ≤ 2 ^ 24 := Nat.pow_le_pow_right (by norm_num) hc

/-- The fraction of the clamped delay is finite, whatever word the delay is. -/
theorem State.isFinite_delayFraction (t : ℕ) (x : Word) (hc : s.cfg.log2c ≤ 24) :
    isFinite (fsub t (clamp zero x (u2f s.capacity)) (u2f (floorI (clamp zero x (u2f s.capacity))))) = true :=
  have hcap := State.capacity_le hc
  have ⟨hlo, hhi⟩ := clamp_between x (fle_zero_u2f hcap)
  isFinite_fsub_floorI t hcap hlo hhi

/-- Interpolating between two words `+0.0` answers `+0.0`, of whichever sign the zero product is. -/
theorem interpolate_zero (t₀ t₁ t₂ : ℕ) {frac : Word} (hfrac : isFinite frac = true) :
    fadd t₀ zero (fmul t₁ frac (fsub t₂ zero zero)) = zero := by
  have hdiff : fsub t₂ zero zero = zero := rfl
  rw [hdiff, fmul_of_finite t₁ hfrac isFinite_zero, show units zero = 0 from rfl, Nat.mul_zero, roundMag_zero]
  cases signBit frac != signBit zero <;> rfl

/-- A fractional read of a line that is all `+0.0` answers `+0.0` (R106 (a)). -/
theorem State.readFrac_of_cleared (t : ℕ) (x : Word) (hc : s.cfg.log2c ≤ 24) (h : ∀ a, s.memRead a = zero) :
    s.readFrac t x = zero := by
  simp only [State.readFrac, State.readExact, h]
  exact interpolate_zero _ _ _ (State.isFinite_delayFraction t x hc)

/-- At an integer delay up to `C` the clamp and the floor keep the delay, and the fraction is `k - k`. -/
theorem State.readFrac_u2f (t k : ℕ) (hc : s.cfg.log2c ≤ 24) (hk : k ≤ s.capacity) :
    s.readFrac t (u2f k) = fadd (t + 3) (s.readExact k)
      (fmul (t + 2) (fsub t (u2f k) (u2f k)) (fsub (t + 1) (s.readExact (k + 1)) (s.readExact k))) := by
  have hcap := State.capacity_le hc
  rw [State.readFrac, clamp_u2f hk hcap, floorI_u2f (hk.trans hcap)]

/-! ### The commands with the gate open (`30_encoding` R87) -/

theorem exec_dlWrite_of_inited (x : Word) (h : s.inited = true) :
    exec (.dlWrite x) s = .next ((s.pushSample x).respond 0#32) :=
  (exec_dlWrite x s).trans (gated_of_inited h)

theorem exec_dlReadx_of_inited (k : Word) (h : s.inited = true) :
    exec (.dlReadx k) s = .next (s.respond (s.readExact k.toNat)) :=
  (exec_dlReadx k s).trans (gated_of_inited h)

theorem exec_dlReadf_of_inited (x : Word) (h : s.inited = true) :
    exec (.dlReadf x) s = .next ((s.spend 4).respond (s.readFrac s.draws x)) :=
  (exec_dlReadf x s).trans (gated_of_inited h)

theorem exec_dlClear_of_inited (h : s.inited = true) : exec .dlClear s = .next (s.clearLine.respond 0#32) :=
  (exec_dlClear s).trans (gated_of_inited h)

/-! ### The obligations of the delay line -/

/-- Settles O34: the write stores at the cursor and the new cursor wraps modulo `C`. -/
theorem dlWriteStoresAndAdvances : Obligations.DlWriteStoresAndAdvances := by
  unfold Obligations.DlWriteStoresAndAdvances
  rintro s x hinited ⟨-, hc, -⟩ hw
  refine ⟨(s.pushSample x).respond 0#32, exec_dlWrite_of_inited x hinited, ?_, fun a ha => ?_, ?_, rfl⟩
  · rw [State.respond_memRead, State.pushSample_memRead x hw, if_pos rfl]
  · rw [State.respond_memRead, State.pushSample_memRead x hw, if_neg ha]
  · rw [State.respond_cursor, State.pushSample_cursor x hc]

/-- Settles O35: the address is the slot of R102. -/
theorem dlReadxAnswersTheWrappedSlot : Obligations.DlReadxAnswersTheWrappedSlot := by
  unfold Obligations.DlReadxAnswersTheWrappedSlot
  intro s k hinited
  exact ⟨s.slot k.toNat, s.slot_lt _, s.slot_eq_sub _, exec_dlReadx_of_inited k hinited⟩

/-- Settles O36: `ReadFrac` names its primitives in the order of `readDraws`. -/
theorem dlReadfInterpolates : Obligations.DlReadfInterpolates := by
  unfold Obligations.DlReadfInterpolates
  intro s x hinited
  exact ⟨readDraws s.draws, s.draws + 4, _, _, rfl, rfl, exec_dlReadf_of_inited x hinited⟩

/-- Settles O37. -/
theorem dlClearZeroesTheLine : Obligations.DlClearZeroesTheLine := by
  unfold Obligations.DlClearZeroesTheLine
  intro s hinited
  exact ⟨s.clearLine.respond 0#32, exec_dlClear_of_inited hinited, s.clearLine_memRead, s.clearLine_cursor, rfl⟩

/-- Settles O38: every word of the cleared line is `+0.0`, and so is every interpolation between two of them. -/
theorem clearedLineReadsZero : Obligations.ClearedLineReadsZero := by
  unfold Obligations.ClearedLineReadsZero
  rintro s t hinited ⟨-, hc, -⟩ hclear x
  rw [exec_dlClear_of_inited hinited] at hclear
  obtain rfl := Host.Outcome.next.inj hclear
  have hzero : (s.clearLine.respond 0#32).readFrac s.draws x = zero :=
    State.readFrac_of_cleared s.draws x hc s.clearLine_memRead
  refine ⟨exec_dlReadx_of_inited x hinited, s.draws + 4, ?_⟩
  calc exec (.dlReadf x) (s.clearLine.respond 0#32)
    _ = .next (((s.clearLine.respond 0#32).spend 4).respond ((s.clearLine.respond 0#32).readFrac s.draws x)) :=
      exec_dlReadf_of_inited x hinited
    _ = .next (((s.clearLine.respond 0#32).spend 4).respond zero) := by rw [hzero]

/-- Settles O39: the fraction `k - k` is a zero, and so is its product with the finite difference of the samples. -/
theorem integerDelayReadsTheSample : Obligations.IntegerDelayReadsTheSample := by
  unfold Obligations.IntegerDelayReadsTheSample
  rintro s k d ⟨-, hc, -⟩ hk hsample - hdiff
  obtain ⟨hfrac, hfrac0⟩ := toRat_fsub_self d (isFinite_u2f (hk.trans (State.capacity_le hc)))
  obtain ⟨hprod, hprod0⟩ := toRat_fmul_of_toRat_eq_zero (d + 2) hfrac hdiff hfrac0
  rw [State.readFrac_u2f d k hc hk]
  exact toRat_fadd_of_toRat_eq_zero (d + 3) hsample hprod hprod0

end Sys2Proof.Machine
end

section
/-!
PROOFS. The commands of the one-pole filter unit (`41_one_pole` R120 to R122): what `OP.SETC` and `OP.PROC` answer and
leave.
-/

namespace Sys2Proof.Machine

open F32

variable {s : State}

/-- The filter's next value is the recurrence of R120 at `EXF_A` and `EXF_Z`, its primitives drawing in their order. -/
theorem State.exfNext_eq_recurrence (t : ℕ) (x : Word) : s.exfNext t x =
    fadd (drawsUp t 3) (fmul (drawsUp t 0) s.exfA x) (fmul (drawsUp t 2) (fsub (drawsUp t 1) one s.exfA) s.exfZ) :=
  rfl

/-! ### The commands with the gate open (`30_encoding` R87) -/

theorem exec_opSetc_of_inited (c : Word) (h : s.inited = true) :
    exec (.opSetc c) s = .next (State.respond { s with exfA := clampCoefficient c } 0#32) :=
  (exec_opSetc c s).trans (gated_of_inited h)

theorem exec_opProc_of_inited (x : Word) (h : s.inited = true) :
    exec (.opProc x) s =
      .next (State.respond ({ s with exfZ := s.exfNext s.draws x }.spend 4) (s.exfNext s.draws x)) :=
  (exec_opProc x s).trans (gated_of_inited h)

/-! ### The obligations of the one-pole filter -/

/-- Settles O41: the clamped coefficient is within its bounds for every word, a NaN included. -/
theorem opSetcClampsTheCoefficient : Obligations.OpSetcClampsTheCoefficient := by
  unfold Obligations.OpSetcClampsTheCoefficient
  intro s c hinited
  exact ⟨exec_opSetc_of_inited c hinited, within_clampCoefficient c⟩

/-- Settles O42: the next value is the recurrence, and the command both keeps it and answers it. -/
theorem opProcFiltersTheSample : Obligations.OpProcFiltersTheSample := by
  unfold Obligations.OpProcFiltersTheSample
  intro s x hinited
  exact ⟨drawsUp s.draws, s.draws + 4, s.exfNext s.draws x, State.exfNext_eq_recurrence s.draws x,
    exec_opProc_of_inited x hinited⟩

end Sys2Proof.Machine
end

section
/-!
PROOFS. The phase of the modulator and its waveforms (`42_lfo` R133 to R137): a shift by no offset keeps the value of a
phase, a product of a phase with a power of two is exact, and so are the differences of the triangle.
-/

namespace Sys2Proof.F32

open Sys2Proof.Claims SineWitness

variable {a b p : Word}

/-! ### The values of the constants and of a phase -/

theorem toRat_two : toRat two = 2 := by
  have h : signedUnits two = 2 ^ 150 := by decide
  rw [toRat, h]; norm_num

theorem toRat_four : toRat four = 4 := by
  have h : signedUnits four = 2 ^ 151 := by decide
  rw [toRat, h]; norm_num

theorem isFinite_of_isPhase (hp : isPhase p = true) : isFinite p = true := (orderKey_range hp).1

theorem toRat_nonneg_of_isPhase (hp : isPhase p = true) : 0 ≤ toRat p := (orderKey_range hp).2.1

theorem toRat_lt_one_of_isPhase (hp : isPhase p = true) : toRat p < 1 := (orderKey_range hp).2.2

/-- A comparison of a finite word with a constant compares their values. -/
theorem flt_iff_of_isFinite (ha : isFinite a = true) (hb : isFinite b = true) : flt a b = true ↔ toRat a < toRat b :=
  flt_iff (isFinite_iff.mp ha).1 (isFinite_iff.mp hb).1

theorem fle_iff_of_isFinite (ha : isFinite a = true) (hb : isFinite b = true) : fle a b = true ↔ toRat a ≤ toRat b :=
  fle_iff (isFinite_iff.mp ha).1 (isFinite_iff.mp hb).1

/-! ### Exact results and results rounded once (R6) -/

theorem isNearestEven_of_isCorrectlyRounded {q : ℚ} (h : IsCorrectlyRounded q a)
    (hq : |q| < (2 ^ 25 - 1) * 2 ^ 103) : IsNearestEven q a := by
  have hfinite := isFinite_of_isCorrectlyRounded h hq
  rcases h with ⟨-, -, hnearest⟩ | ⟨hinf, -⟩ | ⟨hinf, -⟩
  · exact hnearest
  · simp [(isFinite_iff.mp hfinite).2] at hinf
  · simp [(isFinite_iff.mp hfinite).2] at hinf

/-- A power of two times a word has a word of its own where it does not overflow: only the exponent moves, and a
subnormal's fraction is no longer than a significand. -/
theorem exists_toRat_eq_two_pow_mul {i : ℕ} (h : units a * 2 ^ i < (2 ^ 25 - 1) * 2 ^ 252) :
    ∃ w, isFinite w = true ∧ toRat w = 2 ^ i * toRat a := by
  obtain ⟨e, m, hpattern, hm, he⟩ := pattern_cases (magBits a)
  have hunits : units a * 2 ^ i = m * 2 ^ (e + i) := by
    rw [units, hpattern, magUnits_eq hm he, pow_add, mul_assoc]
  have hfit : roundMag (m * 2 ^ (e + i)) 1 < infMag := by
    rwa [roundMag_lt_infMag_iff _ Nat.one_pos, Nat.mul_one, ← hunits]
  refine ⟨pack (signBit a) (roundMag (m * 2 ^ (e + i)) 1), by simpa [isFinite, magBits_pack_roundMag] using hfit, ?_⟩
  rw [toRat_pack (roundMag_lt _ _), roundMag_exact hm hfit, ← hunits, toRat_eq_withSign a, Nat.cast_mul,
    withSign_mul_right]
  push_cast
  ring

/-- The product of a phase with a power of two up to 4.0 is exact (`42_lfo` R136). -/
theorem toRat_fmul_of_isPhase (t : ℕ) {c : Word} {i : ℕ} (hc : isFinite c = true) (hval : toRat c = 2 ^ i) (hi : i ≤ 2)
    (hp : isPhase p = true) : isFinite (fmul t c p) = true ∧ toRat (fmul t c p) = 2 ^ i * toRat p := by
  have hlt := toRat_lt_one_of_isPhase hp
  rw [toRat_of_nonneg (toRat_nonneg_of_isPhase hp), div_lt_one (by positivity)] at hlt
  have hunits : units p < 2 ^ 149 := by exact_mod_cast hlt
  have hfit : units p * 2 ^ i < (2 ^ 25 - 1) * 2 ^ 252 := calc
    units p * 2 ^ i ≤ 2 ^ 149 * 2 ^ 2 := Nat.mul_le_mul hunits.le (Nat.pow_le_pow_right (by norm_num) hi)
    _ < (2 ^ 25 - 1) * 2 ^ 252 := by norm_num
  obtain ⟨w, hw, hwval⟩ := exists_toRat_eq_two_pow_mul hfit
  have h := isCorrectlyRounded_fmul t hc (isFinite_of_isPhase hp)
  rw [hval, ← hwval] at h
  rw [← hwval]
  exact toRat_of_isCorrectlyRounded hw h

theorem fmul_two_of_isPhase (t : ℕ) (hp : isPhase p = true) :
    isFinite (fmul t two p) = true ∧ toRat (fmul t two p) = 2 * toRat p := by
  simpa using toRat_fmul_of_isPhase t (c := two) (i := 1) (by decide) (by rw [toRat_two]; norm_num) (by norm_num) hp

theorem fmul_four_of_isPhase (t : ℕ) (hp : isPhase p = true) :
    isFinite (fmul t four p) = true ∧ toRat (fmul t four p) = 4 * toRat p := by
  have h := toRat_fmul_of_isPhase t (c := four) (i := 2) (by decide) (by rw [toRat_four]; norm_num) (by norm_num) hp
  norm_num at h
  exact h

/-- From 0.25 on a value is a multiple of 2^-25, the unit in the last place there. -/
theorem exists_toRat_eq_div_of_quarter_le (h : 1 / 4 ≤ toRat a) : ∃ k : ℤ, toRat a = k / 2 ^ 25 := by
  have hunits : toRat a = (units a : ℚ) / 2 ^ 149 := toRat_of_nonneg (by linarith)
  have hlow : magUnits 0x3E800000 ≤ magUnits (magBits a) := by
    rw [hunits, le_div_iff₀ (by positivity)] at h
    have hval : ((magUnits 0x3E800000 : ℕ) : ℚ) = 1 / 4 * 2 ^ 149 := by
      rw [show magUnits 0x3E800000 = 2 ^ 147 by decide]; norm_num
    exact_mod_cast hval.trans_le h
  obtain ⟨e, m, hpattern, hm, he⟩ := pattern_cases (magBits a)
  have hexp : 124 ≤ e := by
    have := magUnits_le_iff.mp hlow
    omega
  refine ⟨m * 2 ^ (e - 124), ?_⟩
  rw [hunits, units, hpattern, magUnits_eq hm he, show 2 ^ e = 2 ^ (e - 124) * 2 ^ 124 by
    rw [← pow_add, Nat.sub_add_cancel hexp]]
  push_cast
  ring

/-- A difference whose exact value is a multiple of 2^-23 in `[-1, 1]` is exact. -/
theorem toRat_fsub_of_grid (t : ℕ) (ha : isFinite a = true) (hb : isFinite b = true) {k : ℤ}
    (hval : toRat a - toRat b = k / 2 ^ 23) (hle : |toRat a - toRat b| ≤ 1) :
    isFinite (fsub t a b) = true ∧ toRat (fsub t a b) = toRat a - toRat b := by
  have hk : k.natAbs ≤ 2 ^ 23 := by
    rw [hval, abs_div, abs_of_pos (by positivity : (0 : ℚ) < 2 ^ 23), div_le_one (by positivity)] at hle
    zify
    exact_mod_cast hle
  obtain ⟨hw, hwval⟩ := grid_value hk
  have h := isCorrectlyRounded_fsub t ha hb
  rw [hval, ← hwval] at h
  rw [hval, ← hwval]
  exact toRat_of_isCorrectlyRounded hw h

end Sys2Proof.F32

namespace Sys2Proof.Machine

open Claims F32 Safety SineWitness

variable {p : Word}

/-! ### The shifted phase (R134) -/

theorem isPhase_shiftPhase (t : ℕ) (o : Word) (hp : isPhase p = true) : isPhase (shiftPhase t p o) = true := by
  obtain ⟨hlo, hhi⟩ := clamp_between (lo := zero) (hi := Config.phiMax) o (by decide)
  exact isPhase_wrapAdd t hp hlo hhi

/-- The sum of a phase and a zero has the phase's value, which is below 1, so nothing is subtracted. -/
theorem toRat_shiftPhase_zero (t : ℕ) (hp : isPhase p = true) : toRat (shiftPhase t p zero) = toRat p := by
  have hfinite := isFinite_of_isPhase hp
  have hclamp : clamp zero zero Config.phiMax = zero := by decide
  have hval := toRat_fadd_of_toRat_eq_zero t hfinite isFinite_zero F32.toRat_zero
  obtain ⟨hnan, -⟩ := fadd_orderKey t hfinite isFinite_zero
  obtain ⟨-, -, -, -, hone, -⟩ := quadrant_toRat
  have hbelow : ¬ fge (fadd t p zero) one = true := by
    rw [fge, fle_iff (by decide) hnan, hval, hone, not_le]
    exact toRat_lt_one_of_isPhase hp
  rw [shiftPhase, hclamp, wrapAdd, if_neg hbelow, hval]

/-- Settles O46: the ranges are those of `wrapAdd`, whose draws are in rising order. -/
theorem phasesStayPhases : Obligations.PhasesStayPhases := by
  unfold Obligations.PhasesStayPhases
  intro t p f o hp hf
  obtain ⟨h0, h1⟩ : fle zero f = true ∧ fle f half = true := by simpa [within] using hf
  exact ⟨isPhase_wrapAdd t hp h0 (fle_trans h1 (by decide)), isPhase_shiftPhase t o hp, toRat_shiftPhase_zero t hp,
    ⟨drawsUp t, wrapAdd_eq_advanceRule t p f⟩, ⟨t, t + 1, _, rfl, rfl⟩⟩

/-! ### The shapes at a phase (R136) -/

/-- The value of the triangle's piecewise formula. -/
def triangle (x : ℚ) : ℚ := if x < 1 / 4 then 4 * x else if x < 3 / 4 then 2 - 4 * x else 4 * x - 4

theorem abs_triangle_le {x : ℚ} (h0 : 0 ≤ x) (h1 : x < 1) : |triangle x| ≤ 1 := by
  unfold triangle
  rw [abs_le]
  split
  · constructor <;> linarith
  · split <;> constructor <;> linarith

/-- The triangle is exact: below 0.25 it is a product, and from there on `4p` is a multiple of 2^-23, and so is its
distance from 2 or 4, which is at most 1. -/
theorem toRat_triWave (t : ℕ) (hp : isPhase p = true) :
    isFinite (triWave t p) = true ∧ toRat (triWave t p) = triangle (toRat p) := by
  have hfinite := isFinite_of_isPhase hp
  have hlt := toRat_lt_one_of_isPhase hp
  obtain ⟨hprod, hval⟩ := fmul_four_of_isPhase t hp
  obtain ⟨-, hquarter, -, hthree, -⟩ := quadrant_toRat
  unfold triWave triangle
  simp only [flt_iff_of_isFinite hfinite (show isFinite quarter = true by decide),
    flt_iff_of_isFinite hfinite (show isFinite threeQuarters = true by decide), hquarter, hthree]
  split
  · exact ⟨hprod, hval⟩
  · next hlow =>
    obtain ⟨k, hk⟩ := exists_toRat_eq_div_of_quarter_le (not_lt.mp hlow)
    rw [← hval]
    split
    · rw [← toRat_two]
      refine toRat_fsub_of_grid (k := 2 ^ 24 - k) (t + 1) (by decide) hprod ?_ ?_ <;> rw [hval, toRat_two]
      · rw [hk]; push_cast; ring
      · rw [abs_le]; constructor <;> linarith
    · rw [← toRat_four]
      refine toRat_fsub_of_grid (k := k - 2 ^ 25) (t + 1) hprod (by decide) ?_ ?_ <;> rw [hval, toRat_four]
      · rw [hk]; push_cast; ring
      · rw [abs_le]; constructor <;> linarith

/-- A finite word whose value is in `[-1, 1]` is within `-1.0` and `1.0`. -/
theorem within_negOne_one {w : Word} (hw : isFinite w = true) (h : |toRat w| ≤ 1) : within negOne w one = true := by
  obtain ⟨-, -, -, -, hone, hnegOne⟩ := quadrant_toRat
  rw [within, Bool.and_eq_true, fle_iff_of_isFinite (by decide) hw, fle_iff_of_isFinite hw (by decide), hone, hnegOne]
  exact abs_le.mp h

theorem within_triWave (t : ℕ) (hp : isPhase p = true) : within negOne (triWave t p) one = true := by
  obtain ⟨hfinite, hval⟩ := toRat_triWave t hp
  refine within_negOne_one hfinite ?_
  rw [hval]
  exact abs_triangle_le (toRat_nonneg_of_isPhase hp) (toRat_lt_one_of_isPhase hp)

/-- The product of the sawtooth is exact, so only the difference rounds. -/
theorem isNearestEven_sawWave (t : ℕ) (hp : isPhase p = true) : IsNearestEven (2 * toRat p - 1) (sawWave t p) := by
  obtain ⟨hprod, hval⟩ := fmul_two_of_isPhase t hp
  obtain ⟨-, -, -, -, hone, -⟩ := quadrant_toRat
  have h := isCorrectlyRounded_fsub (t + 1) hprod (show isFinite one = true by decide)
  rw [hval, hone] at h
  have hle : |2 * toRat p - 1| ≤ 1 := by
    have h0 := toRat_nonneg_of_isPhase hp
    have h1 := toRat_lt_one_of_isPhase hp
    rw [abs_le]; constructor <;> linarith
  exact isNearestEven_of_isCorrectlyRounded h (hle.trans_lt (by norm_num))

/-- The sawtooth lies between its values at the doubled phases 0 and 2. -/
theorem within_sawWave (t : ℕ) (hp : isPhase p = true) : within negOne (sawWave t p) one = true := by
  obtain ⟨hprod, hval⟩ := fmul_two_of_isPhase t hp
  have hlow : fle zero (fmul t two p) = true := by
    rw [fle_iff_of_isFinite isFinite_zero hprod, F32.toRat_zero, hval]
    linarith [toRat_nonneg_of_isPhase hp]
  have hhigh : fle (fmul t two p) two = true := by
    rw [fle_iff_of_isFinite hprod (by decide), toRat_two, hval]
    linarith [toRat_lt_one_of_isPhase hp]
  have h0 : fle (fsub 0 zero one) (sawWave t p) = true :=
    fle_fsub 0 (t + 1) (by decide) (by decide) hprod (by decide) hlow (by decide)
  have h1 : fle (sawWave t p) (fsub 0 two one) = true :=
    fle_fsub (t + 1) 0 hprod (by decide) (by decide) (by decide) hhigh (by decide)
  rw [show fsub 0 zero one = negOne by decide] at h0
  rw [show fsub 0 two one = one by decide] at h1
  simp [within, h0, h1]

theorem within_sqrWave (p : Word) : within negOne (sqrWave p) one = true := by
  unfold sqrWave
  split <;> decide

/-- Settles O49, shape by shape. -/
theorem lfoShapesAreBipolar : Obligations.LfoShapesAreBipolar := by
  unfold Obligations.LfoShapesAreBipolar
  intro t p hp
  exact ⟨within_triWave t hp, within_sawWave t hp, within_sqrWave p, (toRat_triWave t hp).2,
    isNearestEven_sawWave t hp⟩

end Sys2Proof.Machine
end

section
/-!
PROOFS. The commands of the modulator unit (`42_lfo` R131 to R145): what each answers and leaves.
-/

namespace Sys2Proof.Machine

open Claims F32

variable {s : State}

/-! ### The waveforms, as the statements write them out -/

theorem triWave_eq_waveRule (t : ℕ) (p : Word) : triWave t p = waveRule (drawsUp t) 1#2 p :=
  waveform_eq_waveRule t 1#2 p (drawsUp t) rfl rfl

theorem sawWave_eq_waveRule (t : ℕ) (p : Word) : sawWave t p = waveRule (drawsUp t) 2#2 p :=
  waveform_eq_waveRule t 2#2 p (drawsUp t) rfl rfl

theorem sqrWave_eq_waveRule (t : ℕ) (p : Word) : sqrWave p = waveRule (drawsUp t) 3#2 p :=
  waveform_eq_waveRule t 3#2 p (drawsUp t) rfl rfl

/-! ### The commands with the gate open (`30_encoding` R87) -/

theorem exec_lfoSetf_of_inited (hz recip : Word) (h : s.inited = true) : exec (.lfoSetf hz recip) s =
    .next (({ s with lfoF0 := clamp zero (fmul s.draws hz recip) half }.spend 1).respond 0#32) :=
  (exec_lfoSetf hz recip s).trans (gated_of_inited h)

theorem exec_lfoReset_of_inited (h : s.inited = true) :
    exec .lfoReset s = .next (State.respond { s with lfoPhi := zero } 0#32) :=
  (exec_lfoReset s).trans (gated_of_inited h)

theorem exec_lfoAdv_of_inited (h : s.inited = true) :
    exec .lfoAdv s = .next (((s.lfoAdvance s.draws).spend 2).respond 0#32) :=
  (exec_lfoAdv s).trans (gated_of_inited h)

theorem exec_lfoSin_of_inited (h : s.inited = true) :
    exec .lfoSin s = .next (s.respond (Config.sin2pi.fn s.lfoPhi)) := by
  rw [← sinWave_eq_sin2pi]
  exact (exec_lfoSin s).trans (gated_of_inited h)

theorem exec_lfoTri_of_inited (h : s.inited = true) :
    exec .lfoTri s = .next ((s.spend 2).respond (triWave s.draws s.lfoPhi)) :=
  (exec_lfoTri s).trans (gated_of_inited h)

theorem exec_lfoSaw_of_inited (h : s.inited = true) :
    exec .lfoSaw s = .next ((s.spend 2).respond (sawWave s.draws s.lfoPhi)) :=
  (exec_lfoSaw s).trans (gated_of_inited h)

theorem exec_lfoSqr_of_inited (h : s.inited = true) : exec .lfoSqr s = .next (s.respond (sqrWave s.lfoPhi)) :=
  (exec_lfoSqr s).trans (gated_of_inited h)

theorem exec_lfoSino_of_inited (o : Word) (h : s.inited = true) : exec (.lfoSino o) s =
    .next ((s.spend 2).respond (Config.sin2pi.fn (shiftPhase s.draws s.lfoPhi o))) := by
  rw [← sinWave_eq_sin2pi]
  exact (exec_lfoSino o s).trans (gated_of_inited h)

theorem exec_lfoTrio_of_inited (o : Word) (h : s.inited = true) : exec (.lfoTrio o) s =
    .next ((s.spend 4).respond (waveRule (drawsUp (s.draws + 2)) 1#2 (shiftPhase s.draws s.lfoPhi o))) := by
  rw [← triWave_eq_waveRule]
  exact (exec_lfoTrio o s).trans (gated_of_inited h)

theorem exec_lfoSawo_of_inited (o : Word) (h : s.inited = true) : exec (.lfoSawo o) s =
    .next ((s.spend 4).respond (waveRule (drawsUp (s.draws + 2)) 2#2 (shiftPhase s.draws s.lfoPhi o))) := by
  rw [← sawWave_eq_waveRule]
  exact (exec_lfoSawo o s).trans (gated_of_inited h)

theorem exec_lfoSqro_of_inited (o : Word) (h : s.inited = true) : exec (.lfoSqro o) s =
    .next ((s.spend 2).respond (waveRule (drawsUp (s.draws + 2)) 3#2 (shiftPhase s.draws s.lfoPhi o))) := by
  rw [← sqrWave_eq_waveRule]
  exact (exec_lfoSqro o s).trans (gated_of_inited h)

/-! ### The obligations of the modulator's commands -/

/-- Settles O47: the function is `SIN2PI`, of which only the properties of R137 are known. -/
theorem lfoSinAnswersTheSine : Obligations.LfoSinAnswersTheSine := by
  unfold Obligations.LfoSinAnswersTheSine
  refine ⟨Config.sin2pi.fn, fun s hinited => exec_lfoSin_of_inited hinited, fun p hp => ?_, Config.sin2pi.quadrants⟩
  obtain ⟨hfinite, hlow, hhigh⟩ := Config.sin2pi.bounded p hp
  exact ⟨hfinite, abs_le.mpr ⟨hlow, hhigh⟩, Config.sin2pi.close p hp⟩

/-- Settles O43: the clamp answers within its bounds for every product, a NaN included. -/
theorem lfoSetfClampsTheProduct : Obligations.LfoSetfClampsTheProduct := by
  unfold Obligations.LfoSetfClampsTheProduct
  intro s hz recip hinited
  exact ⟨s.draws, s.draws + 1, exec_lfoSetf_of_inited hz recip hinited, within_clamp _ (by decide)⟩

/-- Settles O44. -/
theorem lfoResetZeroesThePhase : Obligations.LfoResetZeroesThePhase := by
  unfold Obligations.LfoResetZeroesThePhase
  intro s hinited
  exact exec_lfoReset_of_inited hinited

/-- Settles O45: the sum and the difference take the first two draws. -/
theorem lfoAdvAdvancesThePhase : Obligations.LfoAdvAdvancesThePhase := by
  unfold Obligations.LfoAdvAdvancesThePhase
  intro s hinited
  exact ⟨s.draws, s.draws + 1, s.draws + 2, exec_lfoAdv_of_inited hinited⟩

/-- Settles O48: the product and the difference of a shape take the first two draws. -/
theorem lfoShapesAtThePhase : Obligations.LfoShapesAtThePhase := by
  unfold Obligations.LfoShapesAtThePhase
  intro s hinited
  exact ⟨⟨s.draws, s.draws + 1, s.draws + 2, exec_lfoTri_of_inited hinited⟩,
    ⟨s.draws, s.draws + 1, s.draws + 2, exec_lfoSaw_of_inited hinited⟩, exec_lfoSqr_of_inited hinited⟩

/-- Settles O50: the shift takes the first two draws, and the waveform at the shifted phase those after them. -/
theorem lfoOffsetVariantsShiftThePhase : Obligations.LfoOffsetVariantsShiftThePhase := by
  unfold Obligations.LfoOffsetVariantsShiftThePhase
  intro s o hinited
  refine ⟨⟨s.draws, s.draws + 1, s.draws + 2, _, shiftPhase s.draws s.lfoPhi o, rfl, rfl, ?_, ?_⟩,
    ⟨s.draws, s.draws + 1, drawsUp (s.draws + 2), s.draws + 4, _, shiftPhase s.draws s.lfoPhi o, rfl, rfl, ?_⟩,
    ⟨s.draws, s.draws + 1, drawsUp (s.draws + 2), s.draws + 4, _, shiftPhase s.draws s.lfoPhi o, rfl, rfl, ?_⟩,
    ⟨s.draws, s.draws + 1, drawsUp (s.draws + 2), s.draws + 2, _, shiftPhase s.draws s.lfoPhi o, rfl, rfl, ?_⟩⟩
  · exact exec_lfoSino_of_inited o hinited
  · exact exec_lfoSin_of_inited (s := { s with lfoPhi := shiftPhase s.draws s.lfoPhi o }) hinited
  · exact exec_lfoTrio_of_inited o hinited
  · exact exec_lfoSawo_of_inited o hinited
  · exact exec_lfoSqro_of_inited o hinited

end Sys2Proof.Machine
end

section
/-!
PROOFS. The commands of the voice that write registers only (`43_voice` R162 to R170), the `PROCESS` of no frames (R171
(a)), and the ranges of a block's length and damping (R172, R175).
-/

namespace Sys2Proof.Machine

open F32 Safety

variable {s : State}

/-! ### The effect of a parameter by its index (R162) -/

/-- What `PARAM` index 4 keeps are the low three bits (R167). -/
theorem modCfgOf_eq_extractLsb' (v : Word) : modCfgOf v = v.extractLsb' 0 3 :=
  BitVec.eq_of_toNat_eq (by simp [modCfgOf])

/-- An index from 6 on has no register. -/
theorem State.setParam_of_six_le {k : ℕ} (s : State) (v : Word) (hk : 6 ≤ k) : s.setParam k v = s := by
  unfold State.setParam
  split
  case h_7 => rfl
  all_goals omega

/-! ### The commands with the gate open (`30_encoding` R87) -/

theorem exec_param_of_inited (k v : Word) (h : s.inited = true) :
    exec (.param k v) s = .next ((s.setParam k.toNat v).respond 0#32) :=
  (exec_param k v s).trans (gated_of_inited h)

theorem exec_noteOn_of_inited (hz : Word) (h : s.inited = true) : exec (.noteOn hz) s =
    .next (({ s with freq := hz, burst := s.burstLength s.draws, resetPend := true }.spend 1).respond 0#32) :=
  (exec_noteOn hz s).trans (gated_of_inited h)

theorem exec_noteOff_of_inited (h : s.inited = true) : exec .noteOff s = .next (s.respond 0#32) :=
  (exec_noteOff s).trans (gated_of_inited h)

theorem exec_pitch_of_inited (hz : Word) (h : s.inited = true) :
    exec (.pitch hz) s = .next (State.respond { s with freq := hz } 0#32) :=
  (exec_pitch hz s).trans (gated_of_inited h)

theorem exec_process_zero_of_inited (target : Word) (h : s.inited = true) :
    exec (.process 0#32 target) s = .next (s.respond 0#32) :=
  (exec_process 0#32 target s).trans (gated_of_inited h)

/-! ### The obligations of the register commands -/

/-- Settles O13: the difference is the damping of a shape, whose range is that of R29. -/
theorem paramShapeSetsTheDamping : Obligations.ParamShapeSetsTheDamping := by
  unfold Obligations.ParamShapeSetsTheDamping
  intro s v hinited
  exact ⟨⟨s.draws + 1, exec_param_of_inited 0#32 v hinited⟩, within_shapeDamping s.draws v⟩

/-- Settles O14: the five primitives of the warp take four draws, the two differences from 1 the same one. -/
theorem paramShiftShapeSetsThePole : Obligations.ParamShiftShapeSetsThePole := by
  unfold Obligations.ParamShiftShapeSetsThePole
  intro s v hinited
  exact ⟨s.draws, s.draws + 1, s.draws + 2, s.draws + 3, s.draws + 4, exec_param_of_inited 1#32 v hinited⟩

/-- Settles O15. -/
theorem paramAttackSetsTheAttackTime : Obligations.ParamAttackSetsTheAttackTime := by
  unfold Obligations.ParamAttackSetsTheAttackTime
  intro s v hinited
  exact ⟨s.draws, exec_param_of_inited 2#32 v hinited⟩

/-- Settles O16, register by register. -/
theorem paramModulationRegisters : Obligations.ParamModulationRegisters := by
  unfold Obligations.ParamModulationRegisters
  intro s v hinited
  refine ⟨⟨s.draws, exec_param_of_inited 3#32 v hinited⟩, ⟨s.draws, ?_⟩,
    ⟨s.draws, exec_param_of_inited 5#32 v hinited⟩⟩
  rw [← modCfgOf_eq_extractLsb']
  exact exec_param_of_inited 4#32 v hinited

/-- Settles O17. -/
theorem paramUnknownIndexIsIgnored : Obligations.ParamUnknownIndexIsIgnored := by
  unfold Obligations.ParamUnknownIndexIsIgnored
  intro s k v hinited hk
  refine ⟨s.draws, ?_⟩
  rw [exec_param_of_inited k v hinited, State.setParam_of_six_le s v hk]
  rfl

/-- Settles O18: the rate per millisecond is the quotient of R4. -/
theorem noteOnStartsABurst : Obligations.NoteOnStartsABurst := by
  unfold Obligations.NoteOnStartsABurst
  intro s hz hinited
  exact ⟨s.draws, s.draws + 1, exec_noteOn_of_inited hz hinited⟩

/-- Settles O20. -/
theorem noteOffChangesNothing : Obligations.NoteOffChangesNothing := by
  unfold Obligations.NoteOffChangesNothing
  intro s hinited
  exact exec_noteOff_of_inited hinited

/-- Settles O21. -/
theorem pitchWritesTheFrequency : Obligations.PitchWritesTheFrequency := by
  unfold Obligations.PitchWritesTheFrequency
  intro s hz hinited
  exact exec_pitch_of_inited hz hinited

/-- Settles O22. -/
theorem processWithoutFramesIsNoOperation : Obligations.ProcessWithoutFramesIsNoOperation := by
  unfold Obligations.ProcessWithoutFramesIsNoOperation
  intro s target hinited
  exact exec_process_zero_of_inited target hinited

/-! ### The length and the damping of a block -/

/-- Settles O29: both are clamped, and `C` is at least 4. -/
theorem lengthAndDampingAreAlwaysLegal : Obligations.LengthAndDampingAreAlwaysLegal := by
  unfold Obligations.LengthAndDampingAreAlwaysLegal
  rintro s t v ⟨hlow, hhigh, -⟩
  have hcap : 2 ≤ s.capacity := (Nat.pow_le_pow_right Nat.two_pos (by omega) : 2 ^ 1 ≤ s.capacity)
  have hbounds : fle two (u2f s.capacity) = true := by
    rw [fle_iff (by decide) (isNaN_u2f _), toRat_two, toRat_u2f_of_le (State.capacity_le hhigh)]
    exact_mod_cast hcap
  exact ⟨within_clamp _ hbounds, within_clampCoefficient _⟩

end Sys2Proof.Machine
end

section
/-!
PROOFS. A block that completes (`43_voice` R171 to R181): where the noise reaches behind all its frames, the samples of
`blockSamples` are the whole block, and a block of one frame is its one sample.
-/

namespace Sys2Proof.Machine

open Claims F32

variable {s : State} {b : Block} {n : ℕ}

/-! ### The end of a block -/

/-- Where the noise reaches behind all its samples, a block ends with the response (R181). -/
theorem exec_process_completes {frames : Word} (host : Word) (hi : s.inited = true) (hpos : 0 < frames.toNat)
    (hnoise : min s.burst.toNat frames.toNat ≤ s.noise.length) :
    exec (.process frames host) s = .next ((blockSamples s frames.toNat host frames.toNat).2.respond 0#32) :=
  exec_process_blockSamples s host hi (left := 0) rfl hpos.ne' hnoise

/-- In the state Idle no sample filters a noise word (R177). -/
theorem afterSamples_exfZ_of_idle (b : Block) (hidle : s.burst.toNat = 0) :
    (afterSamples b s n).2.exfZ = s.exfZ := by
  induction n with
  | zero => rfl
  | succ n ih =>
    obtain ⟨hburst, -⟩ := afterSamples_counts b (s := s) (n := n) (by omega)
    obtain ⟨sig, y, exfZ, burst, noise, phi, hs, -, -, ⟨-, rfl, -⟩ | ⟨hx, -⟩⟩ :=
      sampleStep_state (afterSamples_step b (s := s) (n := n) (by omega))
    · rw [hs, ← ih]
    · have := (exciting_iff _).mp hx
      omega

/-- A block of which no sample excites leaves the filter's state as it was. -/
theorem blockSamples_exfZ_of_idle (frames : ℕ) (host : Word) (hidle : s.burst.toNat = 0) :
    (blockSamples s frames host n).2.exfZ = s.exfZ :=
  (afterSamples_exfZ_of_idle _ (by rwa [openBlock_burst])).trans (by rw [openBlock_start])

/-- Settles O25: the noise reaches behind all the samples, so the block ends after the last of them. -/
theorem processCompletesTheBlock : Obligations.ProcessCompletesTheBlock := by
  unfold Obligations.ProcessCompletesTheBlock
  rintro s frames host hi hidle ⟨-, hc, -⟩ hw hpos hnoise
  have hframe := blockSamples_frame s frames.toNat host hnoise
  have hresp : (blockSamples s frames.toNat host frames.toNat).2.resp = s.resp := (congrArg State.resp hframe :)
  exact ⟨_, blockWords s frames.toNat host frames.toNat, _, _, _, _, _, _, exec_process_completes host hi hpos hnoise,
    samplesFollow_blockSamples s frames.toNat host hnoise, by rw [State.respond, hresp],
    fun j hj => blockWords_eq_clipRule s _ host hj, { blockSamples_streams s frames.toNat host hnoise with },
    { blockSamples_line s frames.toNat host hc hw hnoise with }, (congrArg State.inFlight hframe :).trans hidle,
    by rw [State.respond_resp, hresp], (congrArg State.resetPend hframe :),
    (congrArg State.modPrev hframe :), (congrArg State.modCur hframe :),
    blockSamples_lfoPhi s frames.toNat host hnoise, blockSamples_exfZ_of_idle _ host,
    by rw [State.respond]; dsimp only; rw [hframe]⟩

/-! ### A block of one sample -/

/-- The draws of a block of one sample: `d` before its excitation, `e` from there on, `l` that of the length and `m`
those of the target. -/
def oneSampleDraws (d e : ℕ → ℕ → ℕ) (l : ℕ) (m : ℕ → ℕ) : ℕ → ℕ → ℕ
  | 3 => fun _ => l
  | 4 => e 0
  | 5 => m
  | 6 => e 1
  | 7 => e 2
  | 8 => e 3
  | i => d i

/-- A block of one frame is its one sample, from the line and the modulation pair of R171 (b) and R173. -/
theorem exec_process_one (host : Word) (hi : s.inited = true) (hnoise : min s.burst.toNat 1 ≤ s.noise.length) :
    ∃ (d : ℕ → ℕ → ℕ) (k : ℕ) (u : State), exec (.process 1#32 host) s = .next (u.respond 0#32) ∧
      SampleFollows (lengthRule (d 0 0) s) s.modCur { lineAtStart s with
        resetPend := false, modPrev := s.modCur, modCur := targetRule (d 1) s host, draws := k } u := by
  have hfollows := samplesFollow_blockSamples s 1 host hnoise
  have hsample := hfollows.sample 0 Nat.one_pos
  rw [hfollows.start, hfollows.ramp_start, hfollows.length_eq, hfollows.target_eq] at hsample
  exact ⟨_, _, _, exec_process_completes host hi Nat.one_pos hnoise, hsample⟩

/-- A pending reset changes the line's words and the cursor only. -/
theorem exists_lineAtStart_eq (s : State) : ∃ buf dlW, lineAtStart s = { s with buf := buf, dlW := dlW } := by
  unfold lineAtStart
  split
  · exact ⟨[], 0#32, rfl⟩
  · exact ⟨s.buf, s.dlW, rfl⟩

/-- Settles O23: without a burst the one sample is the damped signal, emitted. -/
theorem processOneIdleSample : Obligations.ProcessOneIdleSample := by
  unfold Obligations.ProcessOneIdleSample
  intro s host hi hidle
  obtain ⟨d, k, u, hexec, d', e, n, hsample⟩ := exec_process_one host hi (by simp [hidle])
  obtain ⟨buf, dlW, hline⟩ := exists_lineAtStart_eq s
  rw [hline] at hsample ⊢
  rcases hsample with ⟨-, rfl⟩ | ⟨hpos, -⟩
  · exact ⟨oneSampleDraws d' e (d 0 0) (d 1), _, _, _, n, rfl, rfl, rfl, hexec⟩
  · simp [hidle] at hpos

/-- Settles O24: in a burst the one sample pops, filters and adds the noise word before it is emitted. -/
theorem processOneExcitedSampleAfterNoteOn : Obligations.ProcessOneExcitedSampleAfterNoteOn := by
  unfold Obligations.ProcessOneExcitedSampleAfterNoteOn
  intro s host w rest hi hpos hnoise
  obtain ⟨d, k, u, hexec, d', e, n, hsample⟩ := exec_process_one (s := s) host hi (by simp [hnoise])
  obtain ⟨buf, dlW, hline⟩ := exists_lineAtStart_eq s
  rw [hline] at hsample ⊢
  rcases hsample with ⟨hidle, -⟩ | ⟨-, w', rest', z, hn, rfl, rfl⟩
  · exact absurd hidle hpos.ne'
  · obtain ⟨rfl, rfl⟩ := List.cons.inj (hnoise.symm.trans hn)
    exact ⟨oneSampleDraws d' e (d 0 0) (d 1), _, _, _, _, n, rfl, rfl, rfl, rfl, hexec⟩

end Sys2Proof.Machine
end

section
/-!
PROOFS. How far a correct rounding (`00_scope` R6) can be from the exact value: no result crosses a binary32 value, and
the distance is at most 2^-24 of the value, or half the least subnormal.
-/

namespace Sys2Proof.F32

open Sys2Proof.Claims

variable {c w : Word} {q : ℚ}

/-- Only a value below the overflow threshold has a finite rounding. -/
theorem abs_lt_of_isCorrectlyRounded (h : IsCorrectlyRounded q w) (hw : isFinite w = true) :
    |q| < (2 ^ 25 - 1) * 2 ^ 103 := by
  rcases h with ⟨-, hbelow, -⟩ | ⟨hinf, -⟩ | ⟨hinf, -⟩
  · exact hbelow
  · simp [(isFinite_iff.mp hw).2] at hinf
  · simp [(isFinite_iff.mp hw).2] at hinf

/-- A finite rounding is no further from the exact value than any other binary32 value. -/
theorem abs_sub_le_of_isFinite (h : IsCorrectlyRounded q w) (hw : isFinite w = true) (hc : isFinite c = true) :
    |toRat w - q| ≤ |toRat c - q| :=
  (isNearestEven_of_isCorrectlyRounded h (abs_lt_of_isCorrectlyRounded h hw)).1 c hc

/-! ### No result crosses a binary32 value -/

/-- The rounding of a value of at most `c` in magnitude is finite and at most `c` in magnitude. -/
theorem abs_toRat_le_of_isCorrectlyRounded (h : IsCorrectlyRounded q w) (hc : isFinite c = true)
    (hq : |q| ≤ toRat c) : isFinite w = true ∧ |toRat w| ≤ toRat c := by
  have hw := isFinite_of_isCorrectlyRounded h
    (hq.trans_lt ((le_abs_self _).trans_lt (abs_toRat_lt_of_isFinite hc)))
  obtain ⟨hlo, hhi⟩ := abs_le.mp hq
  have hup := abs_sub_le_of_isFinite h hw hc
  have hdown := abs_sub_le_of_isFinite h hw (c := flipSign c) (by rwa [isFinite_flipSign])
  rw [toRat_flipSign, abs_of_nonpos (by linarith : -toRat c - q ≤ 0)] at hdown
  rw [abs_of_nonneg (by linarith : 0 ≤ toRat c - q)] at hup
  exact ⟨hw, abs_le.mpr ⟨by linarith [neg_le_abs (toRat w - q)], by linarith [le_abs_self (toRat w - q)]⟩⟩

/-- The rounding of a value of at least `c` is at least `c`. -/
theorem toRat_le_of_isCorrectlyRounded (h : IsCorrectlyRounded q w) (hw : isFinite w = true) (hc : isFinite c = true)
    (hq : toRat c ≤ q) : toRat c ≤ toRat w := by
  have hdist := abs_sub_le_of_isFinite h hw hc
  rw [abs_of_nonpos (by linarith : toRat c - q ≤ 0)] at hdist
  linarith [neg_le_abs (toRat w - q)]

theorem toRat_nonneg_of_isCorrectlyRounded (h : IsCorrectlyRounded q w) (hw : isFinite w = true) (hq : 0 ≤ q) :
    0 ≤ toRat w :=
  toRat_zero ▸ toRat_le_of_isCorrectlyRounded h hw isFinite_zero (by rwa [toRat_zero])

/-! ### The distance -/

/-- A result below the overflow threshold is within half a unit in the last place of the quotient. -/
theorem abs_magUnits_roundMag_sub_le {num den : ℕ} (hd : 0 < den) (h : roundMag num den < infMag) :
    |(magUnits (roundMag num den) : ℚ) - num / den| ≤ num / den / 2 ^ 24 + 1 / 2 := by
  have hd' : (0 : ℚ) < den := by exact_mod_cast hd
  obtain ⟨-, he⟩ := truncated_bounds num den
  obtain ⟨hlow, hhigh⟩ := divNearestEven_spec (num := num) (show 0 < den * 2 ^ excess (num / den) by positivity)
  rw [magUnits_roundMag h]
  generalize excess (num / den) = e at *
  generalize divNearestEven num (den * 2 ^ e) = m at *
  have hulp : (den : ℚ) * 2 ^ e ≤ num / 2 ^ 23 + den := by
    rcases he with rfl | he
    · rw [pow_zero, mul_one]; linarith [show (0 : ℚ) ≤ num / 2 ^ 23 by positivity]
    · rw [Nat.le_div_iff_mul_le (by positivity)] at he
      have he' : (2 ^ 23 * (den * 2 ^ e) : ℚ) ≤ num := by exact_mod_cast he
      linarith
  have hlow' : (2 * num : ℚ) ≤ 2 * (m * (den * 2 ^ e)) + den * 2 ^ e := by exact_mod_cast hlow
  have hhigh' : (2 * (m * (den * 2 ^ e)) : ℚ) ≤ 2 * num + den * 2 ^ e := by exact_mod_cast hhigh
  have hnum : (num : ℚ) / den * den = num := div_mul_cancel₀ _ hd'.ne'
  rw [← mul_le_mul_iff_of_pos_right hd', ← abs_of_pos hd', ← abs_mul, abs_of_pos hd', sub_mul, add_mul, hnum,
    div_mul_eq_mul_div, hnum, abs_le]
  push_cast
  constructor <;> linarith

/-- Every rational is a sign and a quotient of units, which a packed rounding answers. -/
theorem exists_roundMag_isCorrectlyRounded (q : ℚ) : ∃ (s : Bool) (num den : ℕ), 0 < den ∧
    q = withSign s (num / den) / 2 ^ 149 ∧ IsCorrectlyRounded q (pack s (roundMag num den)) := by
  have hden := (q * 2 ^ 149).den_pos
  have habs : ((q * 2 ^ 149).num.natAbs : ℚ) / (q * 2 ^ 149).den = |q * 2 ^ 149| := by
    rw [Rat.abs_def, Rat.divInt_eq_div]; rfl
  have hq : q = withSign (decide (q < 0)) ((q * 2 ^ 149).num.natAbs / (q * 2 ^ 149).den) / 2 ^ 149 := by
    rw [habs, abs_mul, abs_of_pos (show (0 : ℚ) < 2 ^ 149 by positivity), withSign_mul_right,
      mul_div_cancel_right₀ _ (by positivity)]
    rcases lt_or_ge q 0 with h | h
    · simp [withSign, h, abs_of_neg]
    · simp [withSign, not_lt.mpr h, abs_of_nonneg h]
  refine ⟨_, _, _, hden, hq, ?_⟩
  have h := isCorrectlyRounded_pack_roundMag (decide (q < 0)) (q * 2 ^ 149).num.natAbs hden
  rwa [← hq] at h

/-- The relative error of a finite rounding is at most 2^-24, beside the absolute one of gradual underflow. -/
theorem abs_sub_le_of_isCorrectlyRounded (h : IsCorrectlyRounded q w) (hw : isFinite w = true) :
    |toRat w - q| ≤ |q| / 2 ^ 24 + 1 / 2 ^ 150 := by
  obtain ⟨s, num, den, hden, hq, hpack⟩ := exists_roundMag_isCorrectlyRounded q
  have hfinite := isFinite_of_isCorrectlyRounded hpack (abs_lt_of_isCorrectlyRounded h hw)
  have hlt : roundMag num den < infMag := by simpa [isFinite, magBits_pack_roundMag] using hfinite
  have habs : |q| = num / den / 2 ^ 149 := by
    rw [hq, abs_div, abs_withSign s (by positivity), abs_of_pos (show (0 : ℚ) < 2 ^ 149 by positivity)]
  calc |toRat w - q| ≤ |toRat (pack s (roundMag num den)) - q| := abs_sub_le_of_isFinite h hw hfinite
    _ = |(magUnits (roundMag num den) : ℚ) - num / den| / 2 ^ 149 := by
      conv_lhs => rw [hq]
      rw [toRat_pack (roundMag_lt _ _), abs_div_sub_div, abs_withSign_sub]
    _ ≤ (num / den / 2 ^ 24 + 1 / 2) / 2 ^ 149 :=
      div_le_div_of_nonneg_right (abs_magUnits_roundMag_sub_le hden hlt) (by positivity)
    _ = |q| / 2 ^ 24 + 1 / 2 ^ 150 := by rw [habs]; ring

end Sys2Proof.F32
end

section
/-!
PROOFS. The soft clip (`43_voice` R163): odd, because its denominator sees the magnitude only and is at least 1.0, and
below 20.000005 for the default knee, because each of its three primitives rounds by at most 2^-24 of its result.
-/

namespace Sys2Proof.F32

variable {a b x k : Word}

/-! ### The magnitude and the sign -/

theorem toRat_one : toRat one = 1 := by
  obtain ⟨-, -, -, -, hone, -⟩ := SineWitness.quadrant_toRat
  exact hone

theorem flipSign_pack {s : Bool} {m : ℕ} (hm : m < 2 ^ 31) : flipSign (pack s m) = pack (!s) m :=
  ext_parts (by rw [signBit_flipSign, signBit_pack hm, signBit_pack hm])
    (by rw [magBits_flipSign, magBits_pack hm, magBits_pack hm])

theorem fabs_flipSign (a : Word) : fabs (flipSign a) = fabs a :=
  ext_parts (by rw [signBit_fabs, signBit_fabs]) (by rw [magBits_fabs, magBits_fabs, magBits_flipSign])

theorem isFinite_fabs (a : Word) : isFinite (fabs a) = isFinite a := by simp only [isFinite, magBits_fabs]

theorem toRat_fabs (a : Word) : toRat (fabs a) = |toRat a| := by
  rw [toRat_eq_withSign, toRat_eq_withSign a, signBit_fabs, abs_div, abs_withSign _ (by positivity),
    abs_of_pos (by positivity : (0 : ℚ) < 2 ^ 149), units, units, magBits_fabs]
  rfl

/-- Inverting the sign of a finite dividend inverts the sign of the quotient by anything but a NaN or a zero. -/
theorem fdiv_flipSign (t : ℕ) (ha : isFinite a = true) (hn : isNaN b = false) (h0 : units b ≠ 0) :
    fdiv t (flipSign a) b = flipSign (fdiv t a b) := by
  have ha' : isFinite (flipSign a) = true := by rwa [isFinite_flipSign]
  have hsign : ((!signBit a) != signBit b) = !(signBit a != signBit b) := Bool.not_bne _ _
  rcases classify b with ⟨hb, -⟩ | ⟨-, hb, -⟩ | ⟨-, -, hb⟩
  · exact absurd hb (by simp [hn])
  · rw [fdiv_finite_inf t ha' hb, fdiv_finite_inf t ha hb, flipSign_pack (by norm_num), signBit_flipSign, hsign]
  · rw [fdiv_of_finite t ha' hb h0, fdiv_of_finite t ha hb h0, flipSign_pack (roundMag_lt _ _), signBit_flipSign,
      units, magBits_flipSign, hsign]
    rfl

/-- A sum of 1.0 and a word that is not negative is at least 1.0. -/
theorem fle_one_fadd (t : ℕ) (hb : fle zero b = true) : fle one (fadd t one b) = true := by
  have hn := (fle_not_nan hb).2
  rcases classify b with ⟨hb', -⟩ | ⟨-, hinf, -⟩ | ⟨-, -, hfinite⟩
  · exact absurd hb' (by simp [hn])
  · rw [fadd_of_inf_right t (by decide) hinf]
    obtain ⟨-, -, hkey⟩ := fle_iff_orderKey.mp hb
    have hmag : magBits b = infMag := by simpa [isInf] using hinf
    refine fle_iff_orderKey.mpr ⟨by decide, hn, ?_⟩
    rw [show orderKey zero = 0 by decide, orderKey] at hkey
    rw [show orderKey one = 0x3F800000 by decide, orderKey]
    cases hs : signBit b <;> simp [hs, hmag, infMag] at hkey ⊢
  · have h := fle_fadd 0 t (by decide) (by decide) (by decide) hfinite (show fle one one = true by decide) hb
    rwa [show fadd 0 one zero = one by decide] at h

/-- A product of two finite words of one sign is not below zero. -/
theorem fle_zero_fmul (t : ℕ) (ha : isFinite a = true) (hb : isFinite b = true) (hs : signBit a = signBit b) :
    fle zero (fmul t a b) = true := by
  rw [fmul_of_finite t ha hb, hs, bne_self_eq_false, fle_iff_orderKey]
  refine ⟨by decide, isNaN_pack_roundMag _ _ _, ?_⟩
  rw [show orderKey zero = 0 by decide, orderKey, signBit_pack_roundMag]
  simp

theorem signBit_of_orderKey_pos (h : 0 < orderKey k) : signBit k = false := by
  by_contra hs
  rw [orderKey, if_pos (by simpa using hs)] at h
  omega

/-- The sign of a positive word. -/
theorem signBit_of_pos (h : flt zero k = true) : signBit k = false := by
  obtain ⟨h0, hk⟩ := flt_not_nan h
  refine signBit_of_orderKey_pos ?_
  rw [← show orderKey zero = 0 by decide, ← toRat_lt_iff]
  exact (flt_iff h0 hk).mp h

end Sys2Proof.F32

namespace Sys2Proof.Machine

open F32

variable {k x : Word}

/-- The denominator of the soft clip is at least 1.0 for every finite value and every finite knee that is not below
zero. -/
theorem fle_one_clipDenominator (t : ℕ) (hx : isFinite x = true) (hk : isFinite k = true) (hs : signBit k = false) :
    fle one (fadd (t + 1) one (fmul t (fabs x) k)) = true :=
  fle_one_fadd _ (fle_zero_fmul t (by rwa [isFinite_fabs]) hk (by rw [signBit_fabs, hs]))

theorem units_ne_zero_of_fle_one (h : fle one x = true) : units x ≠ 0 := by
  rw [fle_iff (by decide) (fle_not_nan h).2, toRat_one] at h
  intro h0
  rw [toRat_eq_zero.mpr h0] at h
  norm_num at h

/-- Settles O30: the denominator is the same for `x` and `-x`, and it is no NaN and no zero. -/
theorem softClipIsOdd : Obligations.SoftClipIsOdd := by
  unfold Obligations.SoftClipIsOdd
  intro t k x hx hk hpos
  have hden := fle_one_clipDenominator t hx hk (signBit_of_pos hpos)
  calc softClip t k (flipSign x) = fdiv (t + 2) (flipSign x) (fadd (t + 1) one (fmul t (fabs (flipSign x)) k)) := rfl
    _ = flipSign (softClip t k x) := by
      rw [fabs_flipSign, fdiv_flipSign _ hx (fle_not_nan hden).2 (units_ne_zero_of_fle_one hden)]; rfl

/-- The value of the default knee, the binary32 nearest to 0.05 (`00_scope` R4). -/
theorem toRat_defaultKnee : toRat 0x3D4CCCCD#32 = 13421773 / 2 ^ 28 := by
  have h : signedUnits 0x3D4CCCCD#32 = 13421773 * 2 ^ 121 := by decide
  rw [toRat, h]; norm_num

/-- The denominator of the soft clip with the default knee is finite, and below `1 + K·|x|` by its two roundings at
most. -/
theorem clipDenominator_lower (t : ℕ) (hx : isFinite x = true) :
    isFinite (fadd (t + 1) one (fmul t (fabs x) 0x3D4CCCCD#32)) = true ∧
      (1 - 1 / 2 ^ 24) ^ 2 * (13421773 / 2 ^ 28) * |toRat x| + 1 / 2 ≤
        toRat (fadd (t + 1) one (fmul t (fabs x) 0x3D4CCCCD#32)) := by
  have hbelow := abs_toRat_lt_of_isFinite hx
  have h0 := abs_nonneg (toRat x)
  have hmul := isCorrectlyRounded_fmul t (show isFinite (fabs x) = true by rwa [isFinite_fabs])
    (show isFinite 0x3D4CCCCD#32 = true by decide)
  rw [toRat_fabs, toRat_defaultKnee] at hmul
  have hm := isFinite_of_isCorrectlyRounded hmul (by rw [abs_of_nonneg (by positivity)]; linarith)
  have hmerr := abs_sub_le_of_isCorrectlyRounded hmul hm
  have hadd := isCorrectlyRounded_fadd (t + 1) (show isFinite one = true by decide) hm
  generalize toRat (fmul t (fabs x) 0x3D4CCCCD#32) = m at *
  rw [abs_of_nonneg (by positivity : 0 ≤ |toRat x| * (13421773 / 2 ^ 28)), abs_le] at hmerr
  obtain ⟨hmlow, hmhigh⟩ := hmerr
  have hpos : 0 ≤ toRat one + m := by rw [toRat_one]; linarith
  rw [toRat_one] at *
  have hd := isFinite_of_isCorrectlyRounded hadd (by rw [abs_of_nonneg hpos]; linarith)
  have hderr := abs_sub_le_of_isCorrectlyRounded hadd hd
  rw [abs_of_nonneg hpos, abs_le] at hderr
  exact ⟨hd, by linarith [hderr.1]⟩

/-- The soft clip of a finite value is finite and below its bound for the default knee. -/
theorem softClip_lt (t : ℕ) (hx : isFinite x = true) :
    isFinite (softClip t 0x3D4CCCCD#32 x) = true ∧
      |toRat (softClip t 0x3D4CCCCD#32 x)| < 20000005 / 1000000 := by
  obtain ⟨hd, hlow⟩ := clipDenominator_lower t hx
  have h0 := abs_nonneg (toRat x)
  have hdpos : 0 < toRat (fadd (t + 1) one (fmul t (fabs x) 0x3D4CCCCD#32)) := lt_of_lt_of_le (by positivity) hlow
  have hdiv := isCorrectlyRounded_fdiv (t + 2) hx hd hdpos.ne'
  have hquot : |toRat x / toRat (fadd (t + 1) one (fmul t (fabs x) 0x3D4CCCCD#32))| ≤ 20000003 / 1000000 := by
    rw [abs_div, abs_of_pos hdpos, div_le_iff₀ hdpos]
    linarith
  have hclip : isFinite (softClip t 0x3D4CCCCD#32 x) = true :=
    isFinite_of_isCorrectlyRounded hdiv (hquot.trans_lt (by norm_num))
  have herr : |toRat (softClip t 0x3D4CCCCD#32 x) - _| ≤ _ := abs_sub_le_of_isCorrectlyRounded hdiv hclip
  refine ⟨hclip, ?_⟩
  linarith [abs_sub_abs_le_abs_sub (toRat (softClip t 0x3D4CCCCD#32 x))
    (toRat x / toRat (fadd (t + 1) one (fmul t (fabs x) 0x3D4CCCCD#32)))]

/-- Settles O31. -/
theorem softClipIsBounded : Obligations.SoftClipIsBounded := by
  unfold Obligations.SoftClipIsBounded
  intro t x hx
  exact softClip_lt t hx

end Sys2Proof.Machine
end

section
/-!
PROOFS. The burst of a note (`43_voice` R168): in a sound state the attack time in samples is a finite value that is not
negative, to which `round_u32` of `00_scope` R8 applies.
-/

namespace Sys2Proof.Machine

open F32 Safety

variable {s : State}

theorem toRat_thousand : toRat thousand = 1000 := by
  have h : signedUnits thousand = 1000 * 2 ^ 149 := by decide
  rw [toRat, h]; norm_num

/-- The rate per millisecond of a legal configuration is finite and not negative (`00_scope` R4). -/
theorem srPerMs_range {c : Config} (hc : c.WellFormed) : isFinite c.srPerMs = true ∧ 0 ≤ toRat c.srPerMs := by
  obtain ⟨-, -, hfs, hpos, -⟩ := hc
  rw [flt_iff_of_isFinite isFinite_zero hfs, F32.toRat_zero] at hpos
  have hdiv := isCorrectlyRounded_fdiv 0 hfs (show isFinite thousand = true by decide)
    (by rw [toRat_thousand]; norm_num)
  rw [toRat_thousand] at hdiv
  have hbelow := abs_toRat_lt_of_isFinite hfs
  rw [abs_of_pos hpos] at hbelow
  have hfinite : isFinite c.srPerMs = true :=
    isFinite_of_isCorrectlyRounded hdiv (by rw [abs_of_pos (by positivity)]; linarith)
  exact ⟨hfinite, toRat_nonneg_of_isCorrectlyRounded hdiv hfinite (by positivity)⟩

/-- The attack time in samples is finite and not negative: R4 bounds the product at the largest attack time. -/
theorem attackSamples_range (t : ℕ) (hc : s.cfg.WellFormed) (ha : within zero s.attackMs s.cfg.attackMaxMs = true) :
    isFinite (fmul t s.attackMs s.cfg.srPerMs) = true ∧ 0 ≤ toRat (fmul t s.attackMs s.cfg.srPerMs) := by
  obtain ⟨hsr, hsr0⟩ := srPerMs_range hc
  obtain ⟨-, -, -, -, -, -, hmax, hmax0, hlimit⟩ := hc
  rw [show 298 = 149 + 149 from rfl, pow_add] at hlimit
  obtain ⟨hlo, hhi⟩ : fle zero s.attackMs = true ∧ fle s.attackMs s.cfg.attackMaxMs = true := by
    simpa [within] using ha
  have hfinite := isFinite_of_between isFinite_zero hmax hlo hhi
  rw [fle_iff_of_isFinite isFinite_zero hfinite, F32.toRat_zero] at hlo
  rw [fle_iff_of_isFinite hfinite hmax] at hhi
  have hmul := isCorrectlyRounded_fmul t hfinite hsr
  have hq : 0 ≤ toRat s.attackMs * toRat s.cfg.srPerMs := mul_nonneg hlo hsr0
  have hbelow : toRat s.attackMs * toRat s.cfg.srPerMs < 2 ^ 32 - 1 :=
    calc toRat s.attackMs * toRat s.cfg.srPerMs
      _ ≤ toRat s.cfg.attackMaxMs * toRat s.cfg.srPerMs := mul_le_mul_of_nonneg_right hhi hsr0
      _ = (units s.cfg.attackMaxMs * units s.cfg.srPerMs : ℕ) / (2 ^ 149 * 2 ^ 149) := by
        rw [toRat_of_nonneg (hlo.trans hhi), toRat_of_nonneg hsr0, div_mul_div_comm, Nat.cast_mul]
      _ < 2 ^ 32 - 1 := by
        rw [div_lt_iff₀ (by positivity)]
        calc ((units s.cfg.attackMaxMs * units s.cfg.srPerMs : ℕ) : ℚ)
          _ < ((2 ^ 32 - 1) * (2 ^ 149 * 2 ^ 149) : ℕ) := Nat.cast_lt.mpr hlimit
          _ = (2 ^ 32 - 1) * (2 ^ 149 * 2 ^ 149) := by norm_num
  have hprod := isFinite_of_isCorrectlyRounded hmul (by rw [abs_of_nonneg hq]; linarith)
  exact ⟨hprod, toRat_nonneg_of_isCorrectlyRounded hmul hprod hq⟩

/-- Settles O19: the product is in the domain of `round_u32`. -/
theorem noteOnBurstIsTheRoundedAttackTime : Obligations.NoteOnBurstIsTheRoundedAttackTime := by
  unfold Obligations.NoteOnBurstIsTheRoundedAttackTime
  intro s t hz h hi hexec
  rw [exec_noteOn_of_inited hz hi] at hexec
  obtain rfl := Host.Outcome.next.inj hexec
  obtain ⟨hfinite, hnonneg⟩ := attackSamples_range s.draws h.config (h.ranges hi).attackMs
  exact roundU32_eq_floor hfinite hnonneg

end Sys2Proof.Machine
end

section
/-!
PROOFS. The bounded regime (`43_voice` R182 (b)): the sizes of the words of a sample, from the read of the line to the
clipped word, and a block that keeps them.
-/

namespace Sys2Proof.F32

open Claims

variable {a b w x z : Word} {p q : ℚ} {n : ℕ}

/-! ### Words of at most a size -/

/-- A finite word of magnitude at most `q`. -/
def BoundedBy (q : ℚ) (w : Word) : Prop := isFinite w = true ∧ |toRat w| ≤ q

theorem BoundedBy.mono (h : BoundedBy p w) (hpq : p ≤ q) : BoundedBy q w := ⟨h.1, h.2.trans hpq⟩

theorem boundedBy_zero (hq : 0 ≤ q) : BoundedBy q zero := ⟨isFinite_zero, by rwa [F32.toRat_zero, abs_zero]⟩

/-- The rounding of a value of at most an integer up to 2^24 is at most that integer. -/
theorem boundedBy_of_isCorrectlyRounded (h : IsCorrectlyRounded q w) (hq : |q| ≤ n) (hn : n ≤ 2 ^ 24) :
    BoundedBy n w := by
  have hle := abs_toRat_le_of_isCorrectlyRounded h (isFinite_u2f hn) (by rwa [toRat_u2f_of_le hn])
  rwa [toRat_u2f_of_le hn] at hle

theorem BoundedBy.fadd (t : ℕ) (ha : BoundedBy p a) (hb : BoundedBy q b) (hpq : p + q ≤ n) (hn : n ≤ 2 ^ 24) :
    BoundedBy n (fadd t a b) :=
  boundedBy_of_isCorrectlyRounded (isCorrectlyRounded_fadd t ha.1 hb.1)
    ((abs_add_le _ _).trans ((add_le_add ha.2 hb.2).trans hpq)) hn

theorem BoundedBy.fsub (t : ℕ) (ha : BoundedBy p a) (hb : BoundedBy q b) (hpq : p + q ≤ n) (hn : n ≤ 2 ^ 24) :
    BoundedBy n (fsub t a b) :=
  boundedBy_of_isCorrectlyRounded (isCorrectlyRounded_fsub t ha.1 hb.1)
    ((abs_sub _ _).trans ((add_le_add ha.2 hb.2).trans hpq)) hn

/-- A product with a word of at most a power of two does not cross the multiple by that power, which is a binary32
value. -/
theorem BoundedBy.fmul_two_pow (t : ℕ) {i : ℕ} (ha : BoundedBy 64 a) (hx : BoundedBy (2 ^ i) x) (hi : i ≤ 24) :
    BoundedBy (2 ^ i * |toRat a|) (fmul t a x) := by
  obtain ⟨hfinite, hle⟩ := ha
  have hpow : (2 : ℚ) ^ i ≤ 2 ^ 24 := pow_le_pow_right₀ (by norm_num) hi
  have hfit : units (fabs a) * 2 ^ i < (2 ^ 25 - 1) * 2 ^ 252 := by
    rw [toRat_eq_withSign, abs_div, abs_withSign _ (by positivity), abs_of_pos (by positivity : (0 : ℚ) < 2 ^ 149),
      div_le_iff₀ (by positivity)] at hle
    have hunits : units a ≤ 64 * 2 ^ 149 := by exact_mod_cast hle
    calc units (fabs a) * 2 ^ i = units a * 2 ^ i := by rw [units, units, magBits_fabs]
      _ ≤ 64 * 2 ^ 149 * 2 ^ 24 := Nat.mul_le_mul hunits (Nat.pow_le_pow_right Nat.two_pos hi)
      _ < (2 ^ 25 - 1) * 2 ^ 252 := by norm_num
  obtain ⟨c, hc, hval⟩ := exists_toRat_eq_two_pow_mul hfit
  rw [toRat_fabs] at hval
  have hq : |toRat a * toRat x| ≤ toRat c := by
    rw [hval, abs_mul, mul_comm]
    exact mul_le_mul_of_nonneg_right hx.2 (abs_nonneg _)
  have h := abs_toRat_le_of_isCorrectlyRounded (isCorrectlyRounded_fmul t hfinite hx.1) hc hq
  rwa [hval] at h

/-! ### The filter (`41_one_pole` R120) -/

theorem toRat_eps_ge : 1 / 2 ^ 20 ≤ toRat Config.eps := by
  have h : signedUnits Config.eps = 8796093 * 2 ^ 106 := by decide
  rw [toRat, h]; norm_num

theorem toRat_oneMEps_le : toRat Config.oneMEps ≤ 1 := by
  have h : signedUnits Config.oneMEps = 16777199 * 2 ^ 125 := by decide
  rw [toRat, h]; norm_num

/-- The values of a coefficient lie between 2^-20 and 1 (`10_state` R26). -/
theorem coefficient_range (h : Safety.within Config.eps a Config.oneMEps = true) :
    isFinite a = true ∧ 1 / 2 ^ 20 ≤ toRat a ∧ toRat a ≤ 1 := by
  obtain ⟨hlo, hhi⟩ : fle Config.eps a = true ∧ fle a Config.oneMEps = true := by simpa [Safety.within] using h
  have ha := isFinite_of_between (by decide) (by decide) hlo hhi
  rw [fle_iff_of_isFinite (by decide) ha] at hlo
  rw [fle_iff_of_isFinite ha (by decide)] at hhi
  exact ⟨ha, toRat_eps_ge.trans hlo, hhi.trans toRat_oneMEps_le⟩

/-- The complement of a coefficient is a word of at most 1, within its one rounding of `1 - a`. -/
theorem complement_range (t : ℕ) (ha : Safety.within Config.eps a Config.oneMEps = true) :
    BoundedBy 1 (fsub t one a) ∧ |toRat (fsub t one a)| ≤ (1 - toRat a) * (1 + 1 / 2 ^ 24) + 1 / 2 ^ 150 := by
  obtain ⟨hfinite, hlo, hhi⟩ := coefficient_range ha
  have hsub := isCorrectlyRounded_fsub t (show isFinite one = true by decide) hfinite
  rw [toRat_one] at hsub
  have habs : |1 - toRat a| = 1 - toRat a := abs_of_nonneg (by linarith)
  have hone : BoundedBy (1 : ℕ) (fsub t one a) :=
    boundedBy_of_isCorrectlyRounded hsub (by rw [habs, Nat.cast_one]; linarith) (by norm_num)
  have herr := abs_sub_le_of_isCorrectlyRounded hsub hone.1
  refine ⟨hone.mono (by norm_num), ?_⟩
  have htri := abs_sub_abs_le_abs_sub (toRat (fsub t one a)) (1 - toRat a)
  rw [habs] at herr htri
  linarith

end Sys2Proof.F32

namespace Sys2Proof.Machine

open Claims F32 Safety

/-- The size of the filter's result: its two products do not cross the multiples of the coefficients by the powers of
two that bound the operands. -/
theorem boundedBy_onePole (t : ℕ) {a x z : Word} {i k n : ℕ} (ha : within Config.eps a Config.oneMEps = true)
    (hx : BoundedBy (2 ^ i) x) (hz : BoundedBy (2 ^ k) z) (hi : i ≤ 24) (hk : k ≤ 24) (hn : n ≤ 2 ^ 24)
    (hle : ∀ c : ℚ, 1 / 2 ^ 20 ≤ c → 2 ^ i * c + 2 ^ k * ((1 - c) * (1 + 1 / 2 ^ 24) + 1 / 2 ^ 150) ≤ n) :
    BoundedBy n (onePole t a x z) := by
  obtain ⟨hfinite, hlo, hhi⟩ := coefficient_range ha
  obtain ⟨hcomp, hcomple⟩ := complement_range (t + 1) ha
  have hsize : BoundedBy 64 a := ⟨hfinite, by rw [abs_of_nonneg (by linarith)]; linarith⟩
  refine (hsize.fmul_two_pow t hx hi).fadd (t + 3)
    ((hcomp.mono (by norm_num : (1 : ℚ) ≤ 64)).fmul_two_pow (t + 2) hz hk) (le_trans ?_ (hle _ hlo)) hn
  rw [abs_of_nonneg (by linarith)]
  gcongr

/-- The excitation of a noise word of at most 1 keeps the filter's state at most 2 (R182 (b)). -/
theorem boundedBy_exfNext (t : ℕ) {s : State} {w : Word} (ha : within Config.eps s.exfA Config.oneMEps = true)
    (hw : BoundedBy 1 w) (hz : BoundedBy 2 s.exfZ) : BoundedBy 2 (s.exfNext t w) :=
  boundedBy_onePole (i := 0) (k := 1) (n := 2) t ha (by rwa [pow_zero]) (by rwa [pow_one]) (by norm_num)
    (by norm_num) (by norm_num) fun c hc => by push_cast; linarith

/-! ### The read of the line (`40_delay_line` R104) -/

variable {s : State}

/-- The fraction of a delay is at most 1, whatever word the delay is. -/
theorem boundedBy_delayFraction (t : ℕ) (x : Word) (hc : s.cfg.log2c ≤ 24) :
    BoundedBy 1 (fsub t (clamp zero x (u2f s.capacity)) (u2f (floorI (clamp zero x (u2f s.capacity))))) := by
  have hcap := State.capacity_le hc
  obtain ⟨hlo, hhi⟩ := clamp_between x (fle_zero_u2f hcap)
  generalize clamp zero x (u2f s.capacity) = y at *
  have hy := isFinite_of_between isFinite_zero (isFinite_u2f hcap) hlo hhi
  rw [fle_iff_of_isFinite isFinite_zero hy, F32.toRat_zero] at hlo
  rw [fle_iff_of_isFinite hy (isFinite_u2f hcap), toRat_u2f_of_le hcap] at hhi
  have hfloor := floorI_eq_floor hlo
  have hint : floorI y ≤ 2 ^ 24 := by
    have : ⌊toRat y⌋ ≤ s.capacity := Int.floor_le_iff.mpr (by push_cast; linarith)
    omega
  have hsub := isCorrectlyRounded_fsub t hy (isFinite_u2f hint)
  have hfract : toRat y - toRat (u2f (floorI y)) = Int.fract (toRat y) := by
    rw [toRat_u2f_of_le hint, Int.fract, ← hfloor, Int.cast_natCast]
  rw [hfract] at hsub
  have hone : BoundedBy (1 : ℕ) _ := boundedBy_of_isCorrectlyRounded hsub
    (by rw [Int.abs_fract, Nat.cast_one]; exact (Int.fract_lt_one _).le) (by norm_num)
  exact hone.mono (by norm_num)

theorem boundedBy_readDifference (t i j : ℕ) (hline : ∀ a, BoundedBy 21 (s.memRead a)) :
    BoundedBy 42 (fsub t (s.readExact i) (s.readExact j)) :=
  (hline _).fsub (n := 42) _ (hline _) (by norm_num) (by norm_num)

/-- A product with a fraction is no larger than the other operand. -/
theorem boundedBy_fractionProduct (t : ℕ) {f d : Word} (hf : BoundedBy 1 f) (hd : BoundedBy 42 d) :
    BoundedBy 42 (fmul t f d) := by
  rw [fmul_comm]
  refine ((hd.mono (by norm_num)).fmul_two_pow (i := 0) t (by rwa [pow_zero]) (by norm_num)).mono ?_
  rw [pow_zero, one_mul]
  exact hd.2

/-- A read of a line of words of at most 21 is at most 64, roundings included. -/
theorem boundedBy_readFrac (t : ℕ) (x : Word) (hc : s.cfg.log2c ≤ 24) (hline : ∀ a, BoundedBy 21 (s.memRead a)) :
    BoundedBy 64 (s.readFrac t x) :=
  (hline _).fadd (n := 64) _ (boundedBy_fractionProduct _ (boundedBy_delayFraction t x hc)
    (boundedBy_readDifference _ _ _ hline)) (by norm_num) (by norm_num)

/-! ### The regime -/

/-- A sound initialised state in the bounded regime. -/
structure Regime (s : State) : Prop where
  invariant : Invariant s
  inited : s.inited = true
  bounded : Bounded s

/-- A word that may be pushed: the soft clip of a finite signal. -/
def Clipped (w : Word) : Prop := isFinite w = true ∧ |toRat w| < 20000005 / 1000000

theorem Clipped.boundedBy {w : Word} (h : Clipped w) : BoundedBy 21 w := ⟨h.1, h.2.le.trans (by norm_num)⟩

theorem clipped_zero : Clipped zero := ⟨isFinite_zero, by rw [F32.toRat_zero]; norm_num⟩

/-- `Bounded`, in the terms of sizes. -/
theorem bounded_iff : Bounded s ↔ s.cfg.kClip = 0x3D4CCCCD#32 ∧ (∀ a, Clipped (s.memRead a)) ∧
    BoundedBy 2 s.exfZ ∧ BoundedBy (2 ^ 22) s.lastSig ∧ tameNoise s = true := by
  simp only [Bounded, Clipped, BoundedBy, and_assoc]

theorem tameNoise_cons {w : Word} {rest : List Word} (h : s.noise = w :: rest) (ht : tameNoise s = true) :
    BoundedBy 1 w ∧ rest.all (fun w => within negOne w one) = true := by
  rw [tameNoise, h, List.all_cons, Bool.and_eq_true, within, Bool.and_eq_true] at ht
  obtain ⟨⟨hlo, hhi⟩, hrest⟩ := ht
  have hw := isFinite_of_between (by decide) (by decide) hlo hhi
  obtain ⟨-, -, -, -, -, hnegOne⟩ := SineWitness.quadrant_toRat
  rw [fle_iff_of_isFinite (by decide) hw, hnegOne] at hlo
  rw [fle_iff_of_isFinite hw (by decide), toRat_one] at hhi
  exact ⟨⟨hw, abs_le.mpr ⟨hlo, hhi⟩⟩, hrest⟩

namespace Regime

variable {t : State} {b b' : Block}

theorem ranges (h : Regime s) : RegisterRanges s := h.invariant.ranges h.inited

theorem log2c_le (h : Regime s) : s.cfg.log2c ≤ 24 := by
  obtain ⟨-, hc, -⟩ := h.invariant.config
  exact hc

/-- The damped read is at most 2^22 less 3: the smallest coefficient takes 4 off, and the roundings give back less than
1 (R182 (b)). -/
theorem boundedBy_feedback (h : Regime s) (d : ℕ) (b : Block) : BoundedBy 4194301 (s.feedback d b) := by
  obtain ⟨-, hline, -, hlast, -⟩ := bounded_iff.mp h.bounded
  have hread := boundedBy_readFrac (d + 1) b.length h.log2c_le fun a => (hline a).boundedBy
  exact boundedBy_onePole (i := 6) (k := 22) (n := 4194301) (d + 5) (within_clampCoefficient _)
    (hread.mono (by norm_num)) hlast (by norm_num) (by norm_num) (by norm_num)
    fun c hc => by push_cast; linarith

/-- An excitation adds at most 2 to the signal and changes the filter's state, the burst and the noise only. -/
theorem excite (h : Regime s) {sig sig' : Word} {d : ℕ} (hsig : BoundedBy 4194301 sig)
    (he : s.excite d sig = some (sig', t)) :
    BoundedBy (2 ^ 22) sig' ∧ ∃ z burst noise, t = { s with exfZ := z, burst := burst, noise := noise } ∧
      BoundedBy 2 z ∧ noise.all (fun w => within negOne w one) = true := by
  obtain ⟨-, -, hexfZ, -, htame⟩ := bounded_iff.mp h.bounded
  rcases State.excite_eq_some he with ⟨-, rfl, rfl⟩ | ⟨-, w, rest, hn, rfl, rfl⟩
  · exact ⟨hsig.mono (by norm_num), _, _, _, rfl, hexfZ, htame⟩
  · obtain ⟨hw, hrest⟩ := tameNoise_cons hn htame
    have hz := boundedBy_exfNext d h.ranges.exfA hw hexfZ
    exact ⟨(hsig.fadd (n := 4194304) _ hz (by norm_num) (by norm_num)).mono (by norm_num), _, _, _, rfl, hz, hrest⟩

/-- A sample keeps the regime and pushes a clipped word twice. -/
theorem sampleStep (h : Regime s) (hs : sampleStep b s = some (b', t)) :
    Regime t ∧ ∃ y, Clipped y ∧ t.out = s.out ++ [y, y] := by
  obtain ⟨hknee, hline, -⟩ := bounded_iff.mp h.bounded
  have hinv := h.invariant.sampleStep h.inited hs
  obtain ⟨sig, u, he, -, rfl⟩ := sampleStep_eq_some hs
  obtain ⟨hsig, z, burst, noise, rfl, hz, htame⟩ := h.excite (h.boundedBy_feedback s.draws b) he
  rw [State.emit_eq] at hinv ⊢
  have hclip : Clipped (softClip (s.draws + 14) s.cfg.kClip sig) := by
    rw [hknee]; exact softClip_lt _ hsig.1
  refine ⟨⟨hinv, h.inited, bounded_iff.mpr ⟨hknee, fun a => ?_, hz, hsig, htame⟩⟩, _, hclip, rfl⟩
  change Clipped ((s.pushSample (softClip (s.draws + 14) s.cfg.kClip sig)).memRead a)
  rw [State.pushSample_memRead _ h.invariant.canonical]
  split
  · exact hclip
  · exact hline a

/-- Opening a block keeps the regime, whatever the target. -/
theorem openBlock (h : Regime s) (frames : ℕ) (host : Word) : Regime (s.openBlock frames host).2 := by
  have hinv := h.invariant.openBlock frames host
  obtain ⟨hknee, hline, hrest⟩ := bounded_iff.mp h.bounded
  rw [openBlock_start] at hinv ⊢
  refine ⟨hinv, h.inited, bounded_iff.mpr ⟨hknee, fun a => ?_, hrest⟩⟩
  change Clipped ((lineAtStart s).memRead a)
  unfold lineAtStart
  split
  · exact clipped_zero
  · exact hline a

/-- A block of samples stays in the bounds, also where it waits, and pushes clipped words only. -/
theorem runBlock {left : ℕ} (h : Regime s) (b : Block) :
    Bounded (runBlock left b s) ∧ ∃ ws, (runBlock left b s).out = s.out ++ ws ∧ ∀ w ∈ ws, Clipped w := by
  induction left generalizing b s with
  | zero => exact ⟨h.bounded, [], by simp [Machine.runBlock], by simp⟩
  | succ left ih =>
    unfold Machine.runBlock
    cases hs : Machine.sampleStep b s with
    | none => exact ⟨h.bounded, [], by simp, by simp⟩
    | some p =>
      obtain ⟨h', y, hy, hout⟩ := h.sampleStep hs
      obtain ⟨hbounded, ws, hws, hclipped⟩ := ih h' p.1
      refine ⟨hbounded, [y, y] ++ ws, by rw [hws, hout, List.append_assoc], fun w hw => ?_⟩
      simp only [List.cons_append, List.nil_append, List.mem_cons] at hw
      rcases hw with rfl | rfl | hw
      · exact hy
      · exact hy
      · exact hclipped w hw

end Regime

/-- `INIT` clears the line and the filters. -/
theorem bounded_initialise (hknee : s.cfg.kClip = 0x3D4CCCCD#32) (htame : tameNoise s = true) :
    Bounded s.initialise :=
  bounded_iff.mpr ⟨hknee, fun _ => clipped_zero, boundedBy_zero (by norm_num), boundedBy_zero (by norm_num), htame⟩

/-- Settles O32, sample by sample from the regime the block opens in. -/
theorem tameNoiseKeepsTheOutputBounded : Obligations.TameNoiseKeepsTheOutputBounded := by
  unfold Obligations.TameNoiseKeepsTheOutputBounded
  refine ⟨fun s t frames target hinv hi hbounded hexec => ?_, fun s t p v hknee htame hexec => ?_⟩
  · cases writes_of_exec hexec with
    | onlyAnswers => exact ⟨hbounded, [], by simp, by simp⟩
    | process =>
      have h := (Regime.mk hinv hi hbounded).openBlock (u32 frames) target
      have hblock := h.runBlock (left := u32 frames) (s.openBlock (u32 frames) target).1
      rwa [openBlock_out] at hblock
  · obtain rfl := Host.Outcome.next.inj hexec
    exact bounded_initialise hknee htame

end Sys2Proof.Machine
end

section
/-!
PROOFS. Operations on finite operands do not take the draw they stand at (`00_scope` R7 (c)): where no primitive of an
operation answers a NaN, its result is the same at any draw.
-/

namespace Sys2Proof.F32

variable {a b c : Word}

theorem fadd_draw (t t' : ℕ) (ha : isFinite a = true) (hb : isNaN b = false) : fadd t a b = fadd t' a b := by
  obtain ⟨han, hai⟩ := isFinite_iff.mp ha
  simp [fadd, han, hai, hb]

theorem fsub_draw (t t' : ℕ) (ha : isFinite a = true) (hb : isNaN b = false) : fsub t a b = fsub t' a b :=
  fadd_draw t t' ha (by rwa [isNaN_flipSign])

theorem fmul_draw (t t' : ℕ) (ha : isFinite a = true) (hb : isFinite b = true) : fmul t a b = fmul t' a b := by
  rw [fmul_of_finite t ha hb, fmul_of_finite t' ha hb]

theorem fdiv_draw (t t' : ℕ) (ha : isFinite a = true) (hb : isNaN b = false) (h0 : units b ≠ 0) :
    fdiv t a b = fdiv t' a b := by
  obtain ⟨han, hai⟩ := isFinite_iff.mp ha
  simp [fdiv, han, hai, hb, h0]

/-- A clamped quotient takes no draw: a NaN clamps to the lower bound, whichever it is. -/
theorem clamp_fdiv_draw (t t' : ℕ) (lo hi a b : Word) : clamp lo (fdiv t a b) hi = clamp lo (fdiv t' a b) hi := by
  have h : fdiv t a b = fdiv t' a b ∨ isNaN (fdiv t a b) = true ∧ isNaN (fdiv t' a b) = true := by
    unfold fdiv
    split_ifs <;> simp
  rcases h with h | ⟨h, h'⟩
  · rw [h]
  · rw [clamp_nan h, clamp_nan h']

/-- A sum with a first operand that is not negative depends on the value of the second one only. -/
theorem fadd_eq_of_toRat_eq (t t' : ℕ) (ha : isFinite a = true) (hs : signBit a = false) (hb : isFinite b = true)
    (hc : isFinite c = true) (h : toRat b = toRat c) : fadd t a b = fadd t' a c := by
  obtain ⟨han, hai⟩ := isFinite_iff.mp ha
  obtain ⟨hbn, hbi⟩ := isFinite_iff.mp hb
  obtain ⟨hcn, hci⟩ := isFinite_iff.mp hc
  have hunits : signedUnits b = signedUnits c :=
    le_antisymm (signedUnits_le_iff.mpr (toRat_le_iff.mp h.le)) (signedUnits_le_iff.mpr (toRat_le_iff.mp h.ge))
  simp [fadd, han, hai, hbn, hbi, hcn, hci, hs, hunits]

/-- A finite word less itself is `+0`. -/
theorem fsub_self (t : ℕ) (ha : isFinite a = true) : fsub t a a = zero := by
  obtain ⟨han, hai⟩ := isFinite_iff.mp ha
  have hz : signedUnits a + signedUnits (flipSign a) = 0 := by
    unfold signedUnits units
    rw [signBit_flipSign, magBits_flipSign]
    cases signBit a <;> simp
  simp [fsub, fadd, isNaN_flipSign, isInf_flipSign, han, hai, hz, signBit_flipSign]

/-- `+0` over a count of frames is `+0`. -/
theorem fdiv_zero_u2f (t : ℕ) {n : ℕ} (h0 : 0 < n) (hn : n < 2 ^ 32) : fdiv t zero (u2f n) = zero := by
  have hround := isCorrectlyRounded_u2f n
  have hone : (1 : ℚ) ≤ n := by exact_mod_cast h0
  have hbelow : (n : ℚ) < 2 ^ 32 := by exact_mod_cast hn
  have hfinite := isFinite_of_isCorrectlyRounded hround (by rw [Nat.abs_cast]; linarith)
  have hpos := toRat_le_of_isCorrectlyRounded hround hfinite (show isFinite one = true by decide)
    (toRat_one.trans_le hone)
  rw [toRat_one] at hpos
  have hunits : units (u2f n) ≠ 0 := fun h => by rw [toRat_eq_zero.mpr h] at hpos; norm_num at hpos
  have hs : signBit (u2f n) = false := signBit_pack_roundMag _ _ _
  rw [fdiv_of_finite t isFinite_zero hfinite hunits, hs, show units zero = 0 from rfl, Nat.zero_mul, roundMag_zero]
  rfl

end Sys2Proof.F32

namespace Sys2Proof.Machine

open F32 Safety Claims

variable {s : State} {a x z : Word}

theorem onePole_draw (t t' : ℕ) {i k : ℕ} (ha : within Config.eps a Config.oneMEps = true)
    (hx : BoundedBy (2 ^ i) x) (hz : BoundedBy (2 ^ k) z) (hi : i ≤ 24) (hk : k ≤ 24) :
    onePole t a x z = onePole t' a x z := by
  obtain ⟨hfinite, hlo, hhi⟩ := coefficient_range ha
  obtain ⟨⟨hcomp, hcomple⟩, -⟩ := complement_range (t' + 1) ha
  have hsize : BoundedBy 64 a := ⟨hfinite, by rw [abs_of_nonneg (by linarith)]; linarith⟩
  have hfirst := (hsize.fmul_two_pow t' hx hi).1
  have hsecond := (BoundedBy.fmul_two_pow (t' + 2) ⟨hcomp, hcomple.trans (by norm_num)⟩ hz hk).1
  dsimp only [onePole]
  rw [fmul_draw t t' hfinite hx.1, fsub_draw (t + 1) (t' + 1) (by decide) (isFinite_iff.mp hfinite).1,
    fmul_draw (t + 2) (t' + 2) hcomp hz.1, fadd_draw (t + 3) (t' + 3) hfirst (isFinite_iff.mp hsecond).1]

theorem State.exfNext_draw (t t' : ℕ) {w : Word} (ha : within Config.eps s.exfA Config.oneMEps = true)
    (hw : BoundedBy 1 w) (hz : BoundedBy 2 s.exfZ) : s.exfNext t w = s.exfNext t' w :=
  onePole_draw (i := 0) (k := 1) t t' ha (by rwa [pow_zero]) (by rwa [pow_one]) (by norm_num) (by norm_num)

theorem softClip_draw (t t' : ℕ) {k : Word} (hx : isFinite x = true) (hk : isFinite k = true)
    (hs : signBit k = false) : softClip t k x = softClip t' k x := by
  have hx' : isFinite (fabs x) = true := by rwa [isFinite_fabs]
  have hden := fle_one_clipDenominator t' hx hk hs
  have hm := (fle_not_nan (fle_zero_fmul t' hx' hk (by rw [signBit_fabs, hs]))).2
  dsimp only [softClip]
  rw [fmul_draw t t' hx' hk, fadd_draw (t + 1) (t' + 1) (by decide) hm,
    fdiv_draw (t + 2) (t' + 2) hx (fle_not_nan hden).2 (units_ne_zero_of_fle_one hden)]

theorem State.readFrac_draw (t t' : ℕ) (x : Word) (hc : s.cfg.log2c ≤ 24) (hline : ∀ a, BoundedBy 21 (s.memRead a)) :
    s.readFrac t x = s.readFrac t' x := by
  have hcap := State.capacity_le hc
  obtain ⟨hlo, hhi⟩ := clamp_between x (fle_zero_u2f hcap)
  have hclamp := isFinite_of_between isFinite_zero (isFinite_u2f hcap) hlo hhi
  have hfrac := boundedBy_delayFraction t' x hc
  have hread (k : ℕ) : BoundedBy 21 (s.readExact k) := hline _
  have hdiff (i j : ℕ) := boundedBy_readDifference (t' + 1) i j hline
  have hprod (i j : ℕ) := boundedBy_fractionProduct (t' + 2) hfrac (hdiff i j)
  dsimp only [State.readFrac]
  rw [fsub_draw t t' hclamp (isNaN_u2f _), fsub_draw (t + 1) (t' + 1) (hread _).1 (isFinite_iff.mp (hread _).1).1,
    fmul_draw (t + 2) (t' + 2) hfrac.1 (hdiff _ _).1,
    fadd_draw (t + 3) (t' + 3) (hread _).1 (isFinite_iff.mp (hprod _ _).1).1]

end Sys2Proof.Machine
end

section
/-!
PROOFS. Splitting a block (`43_voice` R181): with a flat ramp, and in the bounded regime, a sample depends on the state
but for its responses and the draw counter, and on the block but for its count of samples.
-/

namespace Sys2Proof.Machine

open F32 Safety Claims

variable {s s' t : State} {b b' c : Block} {length target : Word} {n : ℕ}

/-! ### What a sample does not look at -/

/-- The state with other responses and another draw counter. -/
def State.relabel (s : State) (resp : List Word) (draws : ℕ) : State := { s with resp := resp, draws := draws }

theorem Regime.relabel (h : Regime s) (resp : List Word) (draws : ℕ) : Regime (s.relabel resp draws) :=
  ⟨{ h.invariant with }, h.inited, h.bounded⟩

/-- A block on a flat ramp: the increment is `+0`, so that the ramp value keeps the value of the target, though not its
sign where it is a zero. -/
structure FlatRamp (length target : Word) (b : Block) : Prop where
  length : b.length = length
  finite : isFinite b.v = true
  value : toRat b.v = toRat target
  inc : b.inc = zero

theorem FlatRamp.sampleStep (hb : FlatRamp length target b) (h : sampleStep b s = some (b', s')) :
    FlatRamp length target b' := by
  obtain ⟨sig, u, -, rfl, -⟩ := sampleStep_eq_some h
  have hsum := isCorrectlyRounded_fadd (s.draws + 17) hb.finite isFinite_zero
  rw [F32.toRat_zero, add_zero] at hsum
  obtain ⟨hfinite, hvalue⟩ := toRat_of_isCorrectlyRounded hb.finite hsum
  rw [← hb.inc] at hfinite hvalue
  exact ⟨hb.length, hfinite, hvalue.trans hb.value, hb.inc⟩

/-- The damping takes the value of the ramp only, since `DAMP_BASE` is positive. -/
theorem Regime.damping_eq (h : Regime s) (hb : FlatRamp length target b) (hc : FlatRamp length target c) (d d' : ℕ) :
    s.damping d b.v = s.damping d' c.v := by
  obtain ⟨hlo, hhi⟩ : fle dampLow s.dampBase = true ∧ fle s.dampBase Config.oneMEps = true := by
    simpa [within] using h.ranges.dampBase
  have hfinite := isFinite_of_between (by decide) (by decide) hlo hhi
  obtain ⟨-, -, hkey⟩ := fle_iff_orderKey.mp hlo
  have hsign : signBit s.dampBase = false :=
    signBit_of_orderKey_pos (lt_of_lt_of_le (by decide : 0 < orderKey dampLow) hkey)
  unfold State.damping
  rw [fadd_eq_of_toRat_eq d d' hfinite hsign hb.finite hc.finite (hb.value.trans hc.value.symm)]

/-- The damped read is the same at any draw. -/
theorem Regime.feedback_eq (h : Regime s) (hb : FlatRamp length target b) (hc : FlatRamp length target c) (d d' : ℕ) :
    s.feedback d b = s.feedback d' c := by
  obtain ⟨-, hline, -, hlast, -⟩ := bounded_iff.mp h.bounded
  have hread := boundedBy_readFrac (d' + 1) c.length h.log2c_le fun a => (hline a).boundedBy
  rw [State.feedback, State.feedback, h.damping_eq hb hc d d', hb.length, ← hc.length,
    State.readFrac_draw (d + 1) (d' + 1) c.length h.log2c_le fun a => (hline a).boundedBy]
  exact onePole_draw (i := 6) (k := 22) _ _ (within_clampCoefficient _) (hread.mono (by norm_num)) hlast
    (by norm_num) (by norm_num)

/-- An excitation is the same with other labels and at any draw. -/
theorem Regime.excite_relabel (h : Regime s) {sig sig' : Word} (hsig : BoundedBy 4194301 sig) (d d' : ℕ)
    (resp : List Word) (draws : ℕ) (he : s.excite d sig = some (sig', s')) :
    (s.relabel resp draws).excite d' sig = some (sig', s'.relabel resp draws) := by
  obtain ⟨-, -, hexfZ, -, htame⟩ := bounded_iff.mp h.bounded
  rcases State.excite_eq_some he with ⟨hidle, rfl, rfl⟩ | ⟨hx, w, rest, hn, rfl, rfl⟩
  · exact State.excite_of_idle hidle
  · obtain ⟨hw, -⟩ := tameNoise_cons hn htame
    have hz := boundedBy_exfNext d h.ranges.exfA hw hexfZ
    rw [State.excite_of_exciting (s := s.relabel resp draws) hx hn,
      fadd_draw (d + 4) (d' + 4) hsig.1 (isFinite_iff.mp hz.1).1,
      State.exfNext_draw d d' h.ranges.exfA hw hexfZ]
    rfl

/-- In the host source the end of a sample is the same with other labels and at any draw. -/
theorem emit_relabel {sig : Word} (hknee : s.cfg.kClip = 0x3D4CCCCD#32) (hsrc : s.internalSource = false)
    (hsig : isFinite sig = true) (d d' : ℕ) (resp : List Word) (draws : ℕ) :
    (s.relabel resp draws).emit d' sig = (s.emit d sig).relabel resp draws := by
  rw [State.emit_eq, State.emit_eq, hsrc, show (s.relabel resp draws).internalSource = false from hsrc,
    show (s.relabel resp draws).cfg = s.cfg from rfl, hknee, softClip_draw d d' hsig (by decide) (by decide)]
  rfl

/-- A sample on a flat ramp is the same with other labels. -/
theorem Regime.sampleStep_relabel (h : Regime s) (hsrc : s.internalSource = false)
    (hb : FlatRamp length target b) (hc : FlatRamp length target c) (resp : List Word) (draws : ℕ)
    (hs : Machine.sampleStep b s = some (b', s')) :
    ∃ c' draws', Machine.sampleStep c (s.relabel resp draws) = some (c', s'.relabel resp draws') := by
  obtain ⟨sig, u, he, -, rfl⟩ := sampleStep_eq_some hs
  have hsize := h.boundedBy_feedback s.draws b
  obtain ⟨hsig, z, burst, noise, hu, -⟩ := h.excite hsize he
  obtain ⟨hknee, -⟩ := bounded_iff.mp h.bounded
  have hexcite := h.excite_relabel hsize _ (draws + 9) resp draws he
  have hfeedback : (s.relabel resp draws).feedback draws c = s.feedback s.draws b :=
    (h.feedback_eq hb hc s.draws draws).symm
  have hemit := emit_relabel (s := u) (by rwa [hu]) (by rw [hu]; exact hsrc) hsig.1 (s.draws + 14) (draws + 14) resp
    draws
  refine ⟨{ c with v := fadd (draws + 17) c.v c.inc, j := c.j + 1 }, draws + 20, ?_⟩
  unfold Machine.sampleStep
  rw [show (s.relabel resp draws).draws = draws from rfl, hfeedback, hexcite]
  dsimp only
  rw [hemit]
  rfl

/-! ### The first samples of a block on a flat ramp -/

theorem FlatRamp.afterSamples (hb : FlatRamp length target b) (hnoise : min s.burst.toNat n ≤ s.noise.length) :
    FlatRamp length target (afterSamples b s n).1 := by
  induction n with
  | zero => exact hb
  | succ n ih => exact (ih (by omega)).sampleStep (afterSamples_step b hnoise)

theorem Regime.afterSamples (h : Regime s) (b : Block) (hnoise : min s.burst.toNat n ≤ s.noise.length) :
    Regime (afterSamples b s n).2 := by
  induction n with
  | zero => exact h
  | succ n ih => exact ((ih (by omega)).sampleStep (afterSamples_step b hnoise)).1

theorem afterSamples_internalSource (b : Block) (hnoise : min s.burst.toNat n ≤ s.noise.length) :
    (afterSamples b s n).2.internalSource = s.internalSource := by
  rw [State.internalSource_eq, State.internalSource_eq, (afterSamples_frame b hnoise).modCfg]

/-- The first samples of two blocks on the same flat ramp are the same, but for the labels. -/
theorem Regime.afterSamples_relabel (h : Regime s) (hsrc : s.internalSource = false)
    (hb : FlatRamp length target b) (hc : FlatRamp length target c) (resp : List Word) (draws : ℕ)
    (hnoise : min s.burst.toNat n ≤ s.noise.length) :
    ∃ draws', (Machine.afterSamples c (s.relabel resp draws) n).2 =
      (Machine.afterSamples b s n).2.relabel resp draws' := by
  induction n with
  | zero => exact ⟨draws, rfl⟩
  | succ n ih =>
    have hreach : min s.burst.toNat n ≤ s.noise.length := by omega
    obtain ⟨draws', hsame⟩ := ih hreach
    have hflat : FlatRamp length target (Machine.afterSamples c (s.relabel resp draws) n).1 :=
      hc.afterSamples (s := s.relabel resp draws) hreach
    obtain ⟨c', draws'', hstep⟩ := (h.afterSamples b hreach).sampleStep_relabel
      ((afterSamples_internalSource b hreach).trans hsrc) (hb.afterSamples hreach) hflat resp draws'
      (afterSamples_step b hnoise)
    rw [← hsame] at hstep
    exact ⟨draws'', congrArg Prod.snd (afterSamples_succ hstep)⟩

/-- The samples behind the first `n` are those of the block as it stands there. -/
theorem afterSamples_add (b : Block) (s : State) (n m : ℕ) :
    afterSamples b s (n + m) = afterSamples (afterSamples b s n).1 (afterSamples b s n).2 m := by
  induction m with
  | zero => rfl
  | succ m ih => rw [← Nat.add_assoc, Machine.afterSamples, ih]; rfl

/-! ### Opening a block on a flat ramp -/

/-- In the host source the target is the host's word (R173). -/
theorem targetRule_of_host (d : ℕ → ℕ) (host : Word) (hsrc : s.internalSource = false) : targetRule d s host = host :=
  if_pos (s.internalSource_eq ▸ hsrc)

/-- With the target at `MOD_CUR` the difference is `+0`, and so is the increment. -/
theorem flatRamp_openBlock (d : ℕ) (hsrc : s.internalSource = false) (hfinite : isFinite s.modCur = true) (h0 : 0 < n)
    (hn : n < 2 ^ 32) : FlatRamp (lengthRule d s) s.modCur (s.openBlock n s.modCur).1 := by
  rw [openBlock_block, targetRule_of_host _ _ hsrc, fsub_self _ hfinite, fdiv_zero_u2f _ h0 hn]
  exact ⟨clamp_fdiv_draw _ _ _ _ _ _, hfinite, rfl, rfl⟩

/-- With the modulation pair at the target already and no reset pending, opening a block changes labels only. -/
theorem openBlock_eq_relabel (hsrc : s.internalSource = false) (hreset : s.resetPend = false)
    (hprev : s.modPrev = s.modCur) : (s.openBlock n s.modCur).2 = s.relabel s.resp (s.draws + 8) := by
  have hline : lineAtStart s = s := if_neg (by simp [hreset])
  rw [openBlock_start, targetRule_of_host _ _ hsrc, hline, State.relabel, ← hreset]
  nth_rw 2 [← hprev]

/-- The opened state does not depend on the number of frames. -/
theorem openBlock_state_eq (s : State) (n m : ℕ) (host : Word) : (s.openBlock n host).2 = (s.openBlock m host).2 := by
  rw [openBlock_start, openBlock_start]

/-- What the first samples of a block with the target at `MOD_CUR` leave for the next block to
open on. -/
theorem blockSamples_flat (hsrc : s.internalSource = false) (frames : ℕ)
    (hnoise : min s.burst.toNat n ≤ s.noise.length) :
    let t := (blockSamples s frames s.modCur n).2
    t.modCur = s.modCur ∧ t.modPrev = s.modCur ∧ t.resetPend = false ∧ t.internalSource = false ∧
      ∀ d, lengthRule d t = lengthRule d s := by
  have hcur : (s.openBlock frames s.modCur).2.modCur = s.modCur := by
    rw [openBlock_start, targetRule_of_host _ _ hsrc]
  dsimp only
  rw [blockSamples_frame s frames s.modCur hnoise]
  exact ⟨hcur, rfl, rfl, hsrc, fun _ => rfl⟩

theorem Regime.blockSamples (h : Regime s) (frames : ℕ) (host : Word)
    (hnoise : min s.burst.toNat n ≤ s.noise.length) : Regime (blockSamples s frames host n).2 :=
  (h.openBlock frames host).afterSamples _ (openBlock_reach s frames host hnoise)

theorem flatRamp_blockSamples {frames : ℕ} (d : ℕ) (hsrc : s.internalSource = false)
    (hfinite : isFinite s.modCur = true) (h0 : 0 < frames) (hlt : frames < 2 ^ 32)
    (hnoise : min s.burst.toNat n ≤ s.noise.length) :
    FlatRamp (lengthRule d s) s.modCur (blockSamples s frames s.modCur n).1 :=
  (flatRamp_openBlock d hsrc hfinite h0 hlt).afterSamples (openBlock_reach s frames s.modCur hnoise)

/-- The first samples do not depend on the number of frames, but for the labels. -/
theorem Regime.blockSamples_relabel {frames frames' : ℕ} (h : Regime s) (hsrc : s.internalSource = false)
    (hfinite : isFinite s.modCur = true) (h0 : 0 < frames) (hlt : frames < 2 ^ 32) (h0' : 0 < frames')
    (hlt' : frames' < 2 ^ 32) (hnoise : min s.burst.toNat n ≤ s.noise.length) :
    ∃ resp draws, (Machine.blockSamples s frames' s.modCur n).2 =
      (Machine.blockSamples s frames s.modCur n).2.relabel resp draws := by
  have hsame : (s.openBlock frames' s.modCur).2 = (s.openBlock frames s.modCur).2.relabel
      (s.openBlock frames s.modCur).2.resp (s.openBlock frames s.modCur).2.draws :=
    openBlock_state_eq s frames' frames s.modCur
  have hopenSrc : (s.openBlock frames s.modCur).2.internalSource = false := by rw [openBlock_start]; exact hsrc
  unfold Machine.blockSamples
  rw [hsame]
  exact ⟨_, (h.openBlock frames s.modCur).afterSamples_relabel hopenSrc
    (flatRamp_openBlock s.draws hsrc hfinite h0 hlt) (flatRamp_openBlock s.draws hsrc hfinite h0' hlt') _ _
    (openBlock_reach s frames s.modCur hnoise)⟩

/-- The samples of one block are those of two, but for the labels: the second block opens where the first one ends, and
finds the length, the ramp value and the modulation pair that the long block has there. -/
theorem Regime.blockSamples_add {m : ℕ} (h : Regime s) (hsrc : s.internalSource = false)
    (hfinite : isFinite s.modCur = true) (hn : 0 < n) (hm : 0 < m) (hlt : n + m < 2 ^ 32)
    (hnoise : min s.burst.toNat n ≤ s.noise.length) (ht : t = (Machine.blockSamples s n s.modCur n).2.respond 0#32)
    (hnoise' : min t.burst.toNat m ≤ t.noise.length) :
    ∃ resp draws, (Machine.blockSamples s (n + m) s.modCur (n + m)).2 =
      (Machine.blockSamples t m s.modCur m).2.relabel resp draws := by
  obtain ⟨hcur, hprev, hreset, htsrc, hlength⟩ : t.modCur = s.modCur ∧ t.modPrev = s.modCur ∧ t.resetPend = false ∧
      t.internalSource = false ∧ ∀ d, lengthRule d t = lengthRule d s := by
    rw [ht]; exact blockSamples_flat hsrc n hnoise
  have hregime : Regime t := by
    rw [ht]; exact (h.blockSamples n s.modCur hnoise).relabel _ _
  obtain ⟨resp, draws, hfirst⟩ := h.blockSamples_relabel hsrc hfinite hn (by omega) (show 0 < n + m by omega) hlt hnoise
  have hopen : (t.openBlock m t.modCur).2 = t.relabel t.resp (t.draws + 8) :=
    openBlock_eq_relabel htsrc hreset (hprev.trans hcur.symm)
  have hfound : (Machine.blockSamples s (n + m) s.modCur n).2 = (t.openBlock m t.modCur).2.relabel resp draws := by
    rw [hfirst, hopen, ht]; rfl
  have hshort := flatRamp_openBlock s.draws htsrc (hcur ▸ hfinite) hm (show m < 2 ^ 32 by omega)
  have hlong := flatRamp_blockSamples s.draws hsrc hfinite (show 0 < n + m by omega) hlt hnoise
  rw [hlength, hcur] at hshort
  rw [hcur] at hopen hfound
  have hlast := (hregime.openBlock m s.modCur).afterSamples_relabel (by rw [hopen]; exact htsrc) hshort hlong resp draws
    (openBlock_reach t m s.modCur hnoise')
  rw [← hfound] at hlast
  unfold Machine.blockSamples at hlast ⊢
  rw [afterSamples_add]
  exact ⟨resp, hlast⟩

/-- Settles O33: the noise reaches behind both blocks, and their samples are those of the long one, but for the labels,
which are the responses and the draw counter. -/
theorem flatBlocksCanBeSplit : Obligations.FlatBlocksCanBeSplit := by
  unfold Obligations.FlatBlocksCanBeSplit
  intro s t a b target hinv hi hbounded hidle hreset hsrc htarget hfinite ha hb hab hnoise hexec
  subst htarget
  have hsum : (a + b).toNat = a.toNat + b.toNat := by rw [BitVec.toNat_add, Nat.mod_eq_of_lt hab]
  have hreach : min s.burst.toNat a.toNat ≤ s.noise.length := by omega
  rw [exec_process_completes s.modCur hi ha hreach] at hexec
  have ht := Host.Outcome.next.inj hexec
  obtain ⟨-, -, htnoise, htburst⟩ := blockSamples_streams s a.toNat s.modCur hreach
  have hti : t.inited = true := by rw [← ht, blockSamples_frame s a.toNat s.modCur hreach]; exact hi
  have hreach' : min t.burst.toNat b.toNat ≤ t.noise.length := by
    rw [← ht, State.respond_burst, State.respond_noise, htnoise, htburst, List.length_drop]
    omega
  obtain ⟨resp, draws, hsame⟩ :=
    (Regime.mk hinv hi hbounded).blockSamples_add hsrc hfinite ha hb hab hreach ht.symm hreach'
  refine ⟨_, _, exec_process_completes s.modCur hti hb hreach',
    exec_process_completes s.modCur hi (by omega) (by rwa [hsum]), ?_⟩
  rw [hsum, hsame]
  rfl

end Sys2Proof.Machine
end

section
/-!
PROOFS. The system commands (`44_system` R200 to R202), which no gate stands before: what `NOP`, `INIT` and `RDREG`
answer and leave.
-/

namespace Sys2Proof.Machine

/-! ### The three commands -/

theorem exec_nop (s : State) : exec .nop s = .next (s.respond 0#32) := rfl

theorem exec_init (platformId apiVersion : Word) (s : State) :
    exec (.init platformId apiVersion) s = .next (s.initialise.respond 0#32) := rfl

theorem exec_rdreg (number : Word) (s : State) :
    exec (.rdreg number) s =
      .next (s.respond (if s.inited then s.register number.toNat else s.maskedRegister number.toNat)) := rfl

/-! ### The default state (R201) -/

@[simp] theorem State.initialise_memRead (s : State) (a : ℕ) : s.initialise.memRead a = F32.zero :=
  s.clearLine_memRead a

@[simp] theorem State.initialise_cursor (s : State) : s.initialise.cursor = 0 := s.clearLine_cursor

@[simp] theorem State.initialise_statusWord (s : State) : s.initialise.statusWord = 1#32 := rfl

@[simp] theorem State.respond_statusWord (s : State) (r : Word) : (s.respond r).statusWord = s.statusWord := rfl

/-! ### The registers by number (R202) -/

/-- After `INIT` the three conditions of `STATUS` stand in its low bits, one each (`10_state` R23). -/
theorem State.statusWord_of_inited {s : State} (h : s.inited = true) :
    s.statusWord =
      ((BitVec.ofBool (decide (0 < s.burst.toNat)) ++ BitVec.ofBool s.resetPend) ++ 1#1).zeroExtend 32 := by
  unfold State.statusWord State.exciting
  rw [if_pos h]
  cases s.resetPend <;> cases decide (0 < s.burst.toNat) <;> rfl

/-- From `0x12` on a number names no register. -/
theorem State.register_of_ge (s : State) {n : ℕ} (h : 0x12 ≤ n) : s.register n = 0#32 := by
  obtain ⟨k, rfl⟩ := Nat.exists_eq_add_of_le' h
  rfl

/-- Before `INIT` a number other than those of the two constants reads 0. -/
theorem State.maskedRegister_of_ne (s : State) {n : ℕ} (hC : n ≠ 0x10) (hFs : n ≠ 0x11) :
    s.maskedRegister n = 0#32 := by
  unfold State.maskedRegister
  split
  · exact absurd rfl hC
  · exact absurd rfl hFs
  · rfl

/-! ### The obligations -/

/-- Settles O9. -/
theorem nopOnlyAnswersZero : Obligations.NopOnlyAnswersZero := exec_nop

/-- Settles O10: the state is the one that `State.initialise` gives, with the response. -/
theorem initEstablishesTheDefaultState : Obligations.InitEstablishesTheDefaultState := by
  unfold Obligations.InitEstablishesTheDefaultState
  intro s platformId apiVersion
  refine ⟨s.initialise.respond 0#32, exec_init platformId apiVersion s, fun a => ?line, ?cursor, ?status, rfl⟩
  case line => rw [State.respond_memRead, State.initialise_memRead]; rfl
  case cursor => rw [State.respond_cursor, State.initialise_cursor]
  case status => rw [State.respond_statusWord, State.initialise_statusWord]

/-- Settles O11, along R202's table: each row's number selects its register, and a number in no row is past the last. -/
theorem rdregAnswersTheNumberedRegister : Obligations.RdregAnswersTheNumberedRegister := by
  unfold Obligations.RdregAnswersTheNumberedRegister
  intro s n
  rw [exec_rdreg]
  refine congrArg (fun r => Host.Outcome.next (s.respond r)) ?_
  cases hi : s.inited with
  | false =>
    rw [if_neg Bool.false_ne_true, if_neg Bool.false_ne_true]
    split_ifs with hC hFs
    · subst hC; rfl
    · subst hFs; rfl
    · exact s.maskedRegister_of_ne (by bv_omega) (by bv_omega)
  | true =>
    rw [if_pos rfl, if_pos rfl]
    by_cases hn : n.toNat < 0x12
    · obtain ⟨k, rfl⟩ : ∃ k : Fin 0x12, n = BitVec.ofNat 32 k := ⟨⟨n.toNat, hn⟩, by simp⟩
      rw [← State.statusWord_of_inited hi]
      fin_cases k <;> rfl
    · have hne : ∀ k < 0x12, n ≠ BitVec.ofNat 32 k := by
        rintro k hk rfl
        rw [BitVec.toNat_ofNat] at hn
        omega
      simp [hne, s.register_of_ge (Nat.le_of_not_lt hn)]

end Sys2Proof.Machine
end

section
/-!
PROOFS. Nothing stops the block (`60_exceptions` R210, R221): no command and no step ends in a fault or a refusal, and an
idle block holds its state.
-/

namespace Sys2Proof.Machine

/-- With no command in progress and no packet at the port a step holds the state. -/
theorem step_of_idle {s : State} (hidle : s.inFlight = none) (hport : s.port = []) : step s = .next s := by
  simp [step, hidle, State.accept_eq_none.mpr hport]

/-- A command behind the gate answers a next state, whatever its effect. -/
theorem next_of_gated {i : Instr} {s : State} {f : State → State} (he : exec i s = gated s f) :
    ∃ t, exec i s = .next t := by
  rcases gated_cases s f with ⟨-, hpassed⟩ | ⟨-, hignored⟩
  · exact ⟨_, he.trans hpassed⟩
  · exact ⟨_, he.trans hignored⟩

/-- No command stops: `NOP`, `INIT` and `RDREG` execute in any state, and every other one is an effect behind the gate. -/
theorem exec_next (i : Instr) (s : State) : ∃ t, exec i s = .next t := by
  cases i with
  | nop => exact ⟨_, exec_nop s⟩
  | init platformId apiVersion => exact ⟨_, exec_init platformId apiVersion s⟩
  | rdreg number => exact ⟨_, exec_rdreg number s⟩
  | param index value => exact next_of_gated (exec_param index value s)
  | noteOn hz => exact next_of_gated (exec_noteOn hz s)
  | noteOff => exact next_of_gated (exec_noteOff s)
  | pitch hz => exact next_of_gated (exec_pitch hz s)
  | process frames target => exact next_of_gated (exec_process frames target s)
  | dlWrite sample => exact next_of_gated (exec_dlWrite sample s)
  | dlReadx offset => exact next_of_gated (exec_dlReadx offset s)
  | dlReadf delay => exact next_of_gated (exec_dlReadf delay s)
  | dlClear => exact next_of_gated (exec_dlClear s)
  | opSetc coefficient => exact next_of_gated (exec_opSetc coefficient s)
  | opProc sample => exact next_of_gated (exec_opProc sample s)
  | lfoSetf hz recip => exact next_of_gated (exec_lfoSetf hz recip s)
  | lfoReset => exact next_of_gated (exec_lfoReset s)
  | lfoAdv => exact next_of_gated (exec_lfoAdv s)
  | lfoSin => exact next_of_gated (exec_lfoSin s)
  | lfoTri => exact next_of_gated (exec_lfoTri s)
  | lfoSaw => exact next_of_gated (exec_lfoSaw s)
  | lfoSqr => exact next_of_gated (exec_lfoSqr s)
  | lfoSino offset => exact next_of_gated (exec_lfoSino offset s)
  | lfoTrio offset => exact next_of_gated (exec_lfoTrio offset s)
  | lfoSawo offset => exact next_of_gated (exec_lfoSawo offset s)
  | lfoSqro offset => exact next_of_gated (exec_lfoSqro offset s)

/-- No step stops: a waiting `PROCESS` goes on, an idle block holds its state, and an accepted packet is a command or a
reserved encoding, which is answered. -/
theorem step_next (s : State) : ∃ t, step s = .next t := by
  cases hflight : s.inFlight with
  | some b => exact ⟨_, step_of_waiting hflight⟩
  | none =>
    cases hport : s.port with
    | nil => exact ⟨s, step_of_idle hflight hport⟩
    | cons p rest =>
      cases hd : decode p with
      | ok i => exact step_of_decode_ok hflight hport hd ▸ exec_next i _
      | error e => exact ⟨_, step_of_decode_error hflight hport hd⟩

/-- Settles O6. -/
theorem idleBlockHoldsItsState : Obligations.IdleBlockHoldsItsState := fun _ => step_of_idle

/-- Settles O53. -/
theorem noStepEverStops : Obligations.NoStepEverStops := ⟨exec_next, step_next⟩

end Sys2Proof.Machine
end

section
/-!
PROOFS. Power-on and the wait for noise (`70_reset_and_hazards` R230, R231, R237): the state after power-on, what it
leaves unspecified, and the block that is stuck.
-/

namespace Sys2Proof.Machine

open Safety Claims

/-! ### The state after power-on (R230) -/

/-- Settles O12: before `INIT` the gate is closed, in the state after power-on as in any other. -/
theorem powerOnState : Obligations.PowerOnState :=
  ⟨rfl, rfl, rfl, fun i => commandsBeforeInitAreIgnored i State.reset rfl⟩

/-- The default column of `00_scope` R4 meets its constraints: an attack of 1000 ms at 48 samples per ms is far below
`2^32 - 1` samples. -/
theorem standard_wellFormed : Config.standard.WellFormed := by
  have hattack : F32.units Config.standard.attackMaxMs = 1000 * 2 ^ 149 := by decide
  have hrate : F32.units Config.standard.srPerMs = 48 * 2 ^ 149 := by decide
  refine ⟨by decide, by decide, by decide, by decide, by decide, by decide, by decide, by decide, ?_⟩
  rw [hattack, hrate, show 298 = 149 + 149 from rfl, pow_add]
  norm_num

/-- Settles O52: the default configuration is a legal one, the line is empty, no `PROCESS` waits, and of the registers
nothing is asked before `INIT`. -/
theorem powerOnMeetsTheInvariant : Obligations.PowerOnMeetsTheInvariant where
  config := standard_wellFormed
  attackLimit := (by decide : F32.fle 0x41200000#32 Config.standard.attackMaxMs = true)
  canonical := rfl
  inBounds := rfl
  cursor := State.reset.capacity_pos
  registers := fun hinited => absurd hinited Bool.false_ne_true
  waiting := rfl

/-! ### The wait for noise (R237) -/

variable {s t : State}

/-- The samples left wait at once where the first excites and no noise word is there. -/
theorem runBlock_of_missing_noise {left : ℕ} (b : Block) (hleft : 0 < left) (hburst : 0 < s.burst.toNat)
    (hnoise : s.noise = []) : runBlock left b s = { s with inFlight := some b } := by
  obtain ⟨left, rfl⟩ := Nat.exists_eq_add_of_lt hleft
  have hwait : sampleStep b s = none := sampleStep_eq_none.mpr ⟨(exciting_iff s).mpr hburst, hnoise⟩
  rw [runBlock, hwait]

/-- Settles O27: the block resumes at a sample that waits again. -/
theorem waitingBlockIsStuckWithoutNoise : Obligations.WaitingBlockIsStuckWithoutNoise := by
  unfold Obligations.WaitingBlockIsStuckWithoutNoise
  intro s b hflight hj hburst hnoise
  calc step s = resumeBlock b s := step_of_waiting hflight
    _ = .next { s with inFlight := some b } :=
      congrArg Host.Outcome.next
        (runBlock_of_missing_noise (s := { s with inFlight := none }) b (Nat.sub_pos_of_lt hj) hburst hnoise)
    _ = .next s := by rw [← hflight]

/-! ### What power-on leaves unspecified (R230, R231) -/

/-- Two blocks before `INIT` that agree on everything R230 does not leave open: their registers and lines may differ. -/
structure AlikeBeforeInit (s t : State) : Prop where
  inited_left : s.inited = false
  inited_right : t.inited = false
  idle_left : s.inFlight = none
  idle_right : t.inFlight = none
  interface : SameInterface s t

/-- Before `INIT` a register number answers a constant of the configuration or 0 (`44_system` R202). -/
theorem State.maskedRegister_congr (h : s.cfg = t.cfg) (n : ℕ) : s.maskedRegister n = t.maskedRegister n := by
  unfold State.maskedRegister State.capacity
  rw [h]

namespace AlikeBeforeInit

theorem respond (h : AlikeBeforeInit s t) (r : Word) : AlikeBeforeInit (s.respond r) (t.respond r) := by
  obtain ⟨hport, hresp, hrest⟩ := h.interface
  exact { h with interface := ⟨hport, congrArg (· ++ [r]) hresp, hrest⟩ }

/-- Accepting a packet leaves the blocks alike. -/
theorem accept (h : AlikeBeforeInit s t) (rest : List Packet) :
    AlikeBeforeInit { s with port := rest } { t with port := rest } :=
  { h with interface := ⟨rfl, h.interface.2⟩ }

/-- `INIT` overwrites all that may differ (`44_system` R201). -/
theorem initialise_eq (h : AlikeBeforeInit s t) : s.initialise = t.initialise := by
  obtain ⟨hport, hresp, hout, hnoise, hcfg, hdraws⟩ := h.interface
  simp only [State.initialise, State.clearLine, h.idle_left, h.idle_right, hport, hresp, hout, hnoise, hcfg, hdraws]

/-- After the same command the blocks are alike still, or the command was `INIT` and they are equal. -/
theorem exec (h : AlikeBeforeInit s t) (i : Instr) : ∃ s' t', exec i s = .next s' ∧ exec i t = .next t' ∧
    (s' = t' ∨ AlikeBeforeInit s' t') := by
  cases i with
  | nop => exact ⟨_, _, exec_nop s, exec_nop t, .inr (h.respond 0#32)⟩
  | init platformId apiVersion =>
    exact ⟨_, _, exec_init _ _ s, exec_init _ _ t, .inl (congrArg (State.respond · 0#32) h.initialise_eq)⟩
  | rdreg number =>
    obtain ⟨-, -, -, -, hcfg, -⟩ := h.interface
    refine ⟨_, _, exec_rdreg number s, exec_rdreg number t, .inr ?_⟩
    rw [h.inited_left, h.inited_right, State.maskedRegister_congr hcfg]
    exact h.respond _
  | _ =>
    exact ⟨_, _, commandsBeforeInitAreIgnored _ s h.inited_left nofun nofun nofun,
      commandsBeforeInitAreIgnored _ t h.inited_right nofun nofun nofun, .inr (h.respond 0#32)⟩

/-- So it is after a step, which finds the same packet at both ports. -/
theorem step (h : AlikeBeforeInit s t) : ∃ s' t', step s = .next s' ∧ step t = .next t' ∧
    (s' = t' ∨ AlikeBeforeInit s' t') := by
  obtain ⟨hport, -⟩ := h.interface
  cases hs : s.port with
  | nil => exact ⟨s, t, step_of_idle h.idle_left hs, step_of_idle h.idle_right (hport ▸ hs), .inr h⟩
  | cons p rest =>
    have ht : t.port = p :: rest := hport ▸ hs
    cases hd : decode p with
    | ok i =>
      rw [step_of_decode_ok h.idle_left hs hd, step_of_decode_ok h.idle_right ht hd]
      exact (h.accept rest).exec i
    | error e =>
      exact ⟨_, _, step_of_decode_error h.idle_left hs hd, step_of_decode_error h.idle_right ht hd,
        .inr ((h.accept rest).respond 0#32)⟩

/-- So it is after any number of steps: equal blocks run alike. -/
theorem run {n : ℕ} {s' t' : State} (h : AlikeBeforeInit s t) (hs : Host.Core.run Sys2Proof.core n s = .next s')
    (ht : Host.Core.run Sys2Proof.core n t = .next t') : s' = t' ∨ AlikeBeforeInit s' t' := by
  induction n generalizing s t with
  | zero =>
    obtain rfl := Host.Outcome.next.inj hs
    obtain rfl := Host.Outcome.next.inj ht
    exact .inr h
  | succ n ih =>
    obtain ⟨u, v, hu, hv, huv⟩ := h.step
    rw [run_succ (M := Sys2Proof.core) n hu] at hs
    rw [run_succ (M := Sys2Proof.core) n hv] at ht
    rcases huv with rfl | halike
    · exact .inl (Host.Outcome.next.inj (hs.symm.trans ht))
    · exact ih halike hs ht

end AlikeBeforeInit

/-- Settles O56: the blocks are alike until `INIT` makes them equal, and then nothing can tell them apart. -/
theorem powerOnContentIsUnobservable : Obligations.PowerOnContentIsUnobservable := by
  unfold Obligations.PowerOnContentIsUnobservable
  intro n s₁ s₂ t₁ t₂ hinited₁ hinited₂ hidle₁ hidle₂ hinterface hrun₁ hrun₂
  have hstart : AlikeBeforeInit s₁ s₂ := ⟨hinited₁, hinited₂, hidle₁, hidle₂, hinterface⟩
  rcases hstart.run hrun₁ hrun₂ with rfl | h
  · exact ⟨⟨rfl, rfl, rfl, rfl, rfl, rfl⟩, rfl, fun _ => rfl⟩
  · exact ⟨h.interface, h.inited_left.trans h.inited_right.symm,
      fun hi => absurd (h.inited_left.symm.trans hi) Bool.false_ne_true⟩

end Sys2Proof.Machine
end
